-- ==== Sys2Proof/Word.lean ====
section
/-! DEFINITION. The word types of RUAT-CORE (rules R11, R12, R70, R71). Only the names: every bit-field, byte-order or
arithmetic helper stands in a file that may be mended (Decode.lean, Machine/). -/

namespace Sys2Proof

/-- A field element of GF(256), a raw sample byte, a byte of XRAM or of a packet (rule R12). -/
abbrev Byte := BitVec 8

/-- A word of the host register bus and of the packet output port; also a counter, which wraps modulo 2^32
(rules R12, R70, R106). -/
abbrev Word := BitVec 32

/-- A host bus address: the address space is 20 bits wide (rule R71). -/
abbrev BusAddr := BitVec 20

/-- A 36-bit sync pattern; bit 35 is the first bit received (rules R35, R80). -/
abbrev SyncPattern := BitVec 36

/-- A phase or a phase difference: a signed binary angle, 2^PW units to a full turn (rules R12, R141). The width PW is a
build parameter, so the value is held as an integer and narrowed by `Machine.sextPW`. -/
abbrev Phase := Int

end Sys2Proof
end

