-- ==== Sys2Proof/Config.lean ====
section
/-! DEFINITION. What an implementation of RUAT-CORE fixes (the build-time parameters of rule R9) and the values the spec
leaves open (items U1 to U3 of `93_implementation_defined.md`): opaque constants with no body, so that nothing can be
proved of a value the spec does not give. -/

namespace Sys2Proof.Config

/-- The build-time parameters of rule R9. A model takes each as an argument: State carries them, no step changes them, and
a statement about every state is a statement about every configuration. -/
structure Params where
  /-- QCAP: FIFO capacity in buffer slots. -/
  qcap : Nat
  /-- SLOT_BYTES: the largest raw input buffer, in bytes, that a FIFO slot can hold after demodulation. -/
  slotBytes : Nat
  /-- ACC_CAP: bit accumulator capacity in bits. -/
  accCap : Nat
  /-- PW: width of a phase value in bits. -/
  pw : Nat
  /-- PAIR_STRIDE: 1 for sliding pairs, 2 for disjoint pairs. -/
  pairStride : Nat
  /-- XRAM_BYTES: size of the host scratch RAM in bytes. -/
  xramBytes : Nat
  /-- BIAS_N: bias-estimator window in raw bytes. -/
  biasN : Nat
  /-- BIAS_K: bias-estimator period in received buffers. -/
  biasK : Nat
  /-- FS_HZ: nominal sample rate, used only to derive reset values. -/
  fsHz : Nat
  deriving DecidableEq, Repr

/-- The reference configuration: the default column of rule R9. -/
def Params.default : Params where
  qcap := 8
  slotBytes := 262144
  accCap := 8192
  pw := 16
  pairStride := 2
  xramBytes := 2048
  biasN := 4096
  biasK := 16
  fsHz := 2083334

/-- The legal values of rule R9. -/
abbrev Params.Legal (p : Params) : Prop :=
  (5 ≤ p.qcap ∧ p.qcap ≤ 10) ∧
  (p.slotBytes % 2 = 0 ∧ 2 ≤ p.slotBytes ∧ p.slotBytes ≤ 2 ^ 24) ∧
  (4416 ≤ p.accCap ∧ p.accCap ≤ 65535) ∧
  (8 ≤ p.pw ∧ p.pw ≤ 24) ∧
  (p.pairStride = 1 ∨ p.pairStride = 2) ∧
  (p.xramBytes % 4 = 0 ∧ 2048 ≤ p.xramBytes ∧ p.xramBytes ≤ 8192) ∧
  (1 ≤ p.biasN ∧ p.biasN ≤ 2 ^ 24) ∧
  (1 ≤ p.biasK ∧ p.biasK ≤ 65535) ∧
  0 < p.fsHz

/-- NGEN, the number of generator slots: 4 and not a parameter (rule R9). -/
abbrev ngen : Nat := 4

/-- FREE VALUE (item U1, rules R45, R282): the content of XRAM byte `addr` that nothing has written since reset number
`epoch`. A draw fixed at reset: the same byte reads the same value until it is written or the block is reset again. -/
opaque xramDraw (epoch addr : Nat) : Byte

/-- FREE VALUE (items U2 and U3, rules R25, R76, R285): what the `draw`-th read of RESULT or of an XRAM word while
BUSY = 1 returns. Drawn per read. -/
opaque busyRead (draw : Nat) : Word

end Sys2Proof.Config
end

