-- ==== Sys2Proof/Machine/FieldEngine.lean ====
section
/-! DEFINITION. The pure functions of the GF(256) Field Engine (rules R110 to R119): they read their arguments and the
field tables, and nothing else. A polynomial is a list of field elements, highest power first (rule R12). -/

namespace Sys2Proof.Machine

/-- The tables POWER and LOG (rule R42): 256 entries each. -/
structure FieldTables where
  power : List Byte
  log : List Byte
  deriving DecidableEq, Repr

/-- One step of rule R111: the 9-bit shift of the previous element, reduced by the polynomial's low byte where bit 8 is
set. -/
def nextPower (poly : BitVec 16) (e : Byte) : Byte :=
  let x : BitVec 9 := e.setWidth 9 <<< 1
  if x.getLsbD 8 then x.setWidth 8 ^^^ poly.setWidth 8 else x.setWidth 8

/-- `n` consecutive entries of the power table, the first of them `e`. -/
def powersFrom (poly : BitVec 16) : Nat → Byte → List Byte
  | 0, _ => []
  | n + 1, e => e :: powersFrom poly n (nextPower poly e)

/-- `build_power(p)` (rule R111): slot 0 is 0, slot 1 is 1, each further slot the previous one times α. -/
def buildPower (poly : BitVec 16) : List Byte := 0x00 :: powersFrom poly 255 0x01

/-- No entry of the list stands in it twice or in the set `seen` (bit v of `seen` says that v was met). -/
def noRepeat : Nat → List Byte → Bool
  | _, [] => true
  | seen, e :: es => !seen.testBit e.toNat && noRepeat (seen ||| 1 <<< e.toNat) es

/-- The table is a permutation of 0..255 (rule R112): 256 entries, none twice. -/
def isPermutation (table : List Byte) : Bool := table.length == 256 && noRepeat 0 table

/-- `build_log(P)` (rule R113): L[P[s]] = s, so L[e] is the slot that holds e. -/
def buildLog (power : List Byte) : List Byte :=
  (List.range 256).map fun e => BitVec.ofNat 8 (power.idxOf (BitVec.ofNat 8 e))

/-- The tables FIELD_BUILD builds from the polynomial word (rules R111, R113). -/
def buildTables (poly : BitVec 16) : FieldTables where
  power := buildPower poly
  log := buildLog (buildPower poly)

/-- `gf_add(a, b)` (rule R114). -/
def gfAdd (a b : Byte) : Byte := a ^^^ b

/-- POWER[i]. -/
def FieldTables.powerAt (t : FieldTables) (i : Nat) : Byte := t.power.getD i 0

/-- LOG[e], a slot number. -/
def FieldTables.logAt (t : FieldTables) (e : Byte) : Nat := (t.log.getD e.toNat 0).toNat

/-- `gf_mul(a, b)` (rule R115): LOG holds log + 1, so each is reduced by one and POWER is indexed at exponent + 1. -/
def gfMul (t : FieldTables) (a b : Byte) : Byte :=
  if a = 0 ∨ b = 0 then 0 else t.powerAt (((t.logAt a - 1) + (t.logAt b - 1)) % 255 + 1)

/-- `alpha_pow(i)` (rule R116). -/
def alphaPow (t : FieldTables) (i : Nat) : Byte := t.powerAt (i % 255 + 1)

/-- The sum, coefficient by coefficient from the front, of two sequences; where one is longer, its rest stands. -/
def xorAligned : List Byte → List Byte → List Byte
  | [], ys => ys
  | xs, [] => xs
  | x :: xs, y :: ys => gfAdd x y :: xorAligned xs ys

/-- `poly_mul(a, b)` (rule R117), highest power first: the row of a's leading coefficient, plus the product of the rest of
a moved one place down. -/
def polyMul (t : FieldTables) : List Byte → List Byte → List Byte
  | [], _ => []
  | [x], b => b.map (gfMul t x)
  | x :: x' :: xs, b => xorAligned (b.map (gfMul t x)) (0x00 :: polyMul t (x' :: xs) b)

/-- `gen_poly(start, end)` (rule R118): the product of the factors (X + α^i) for i = start..end, ascending. -/
def genPoly (t : FieldTables) (start stop : Nat) : List Byte :=
  (List.range' start (stop + 1 - start)).foldl (fun g i => polyMul t g [0x01, alphaPow t i]) [0x01]

/-- `k` steps of the division of rule R119 on the running remainder `r`: the top coefficient is the reduction factor, it
is multiplied into the generator's lower coefficients `tail`, added to the aligned window and discarded. -/
def reduceSteps (t : FieldTables) (tail : List Byte) : Nat → List Byte → List Byte
  | 0, r => r
  | _ + 1, [] => []
  | k + 1, f :: r =>
    reduceSteps t tail k (if f = 0 then r else xorAligned r (tail.map fun c => gfMul t c f))

/-- `remainder(m, g)` (rule R119): m shifted up by the parity length and divided by g, whose leading coefficient is 1. -/
def remainder (t : FieldTables) (m g : List Byte) : List Byte :=
  reduceSteps t g.tail m.length (m ++ List.replicate (g.length - 1) 0x00)

end Sys2Proof.Machine
end

