-- ==== Sys2Proof/Machine/Phase.lean ====
section
/-! DEFINITION. Binary angles and the phase lookup table (rules R141 to R143, R163): pure functions, computed with exact
integers only. -/

namespace Sys2Proof.Machine

/-- `sext_PW(v)`: the low PW bits of `v` as two's complement (rule R12), so the representative of `v` modulo 2^PW in
−2^(PW−1) .. 2^(PW−1) − 1. -/
def sextPW (pw : Nat) (v : Int) : Phase := Int.bmod v (2 ^ pw)

/-- `a / b` rounded to the nearest integer. The spec does not say which way a tie goes; ties go up (DESIGN CHOICE, log
entry 6). -/
def roundDiv (a b : Nat) : Nat := (2 * a + b) / (2 * b)

/-- The reset value of a deviation bound of `hz` Hz: round(hz × 2^PW / FS_HZ), of which the register holds PW bits
(rules R33, R34). -/
def deviationReset (p : Config.Params) (hz : Nat) : Nat := roundDiv (hz * 2 ^ p.pw) p.fsHz % 2 ^ p.pw

/-- The first `n` binary digits, appended to `acc`, of the angle of `x + i·y` measured in turns from the positive x axis
(the angle 0 for the zero vector). The leading digit says whether the angle is half a turn or more; squaring the complex
number doubles its angle and so brings the next digit to the front. The arithmetic is exact. -/
def turnDigits : Nat → Int → Int → Nat → Nat
  | 0, _, _, acc => acc
  | n + 1, x, y, acc =>
    turnDigits n (x * x - y * y) (2 * x * y) (2 * acc + (if y < 0 ∨ (y = 0 ∧ x < 0) then 1 else 0))

/-- LUT[i][q] for centre C (rule R142): the angle of (i − C, q − C) in units of 2^−PW turns, rounded to the nearest integer
and reduced to PW bits. With t the angle in turns, round(t·2^PW) = (⌊t·2^(PW+1)⌋ + 1) div 2, and the floor is the first
PW + 1 binary digits of t. No entry is a tie for PW ≥ 3 (DEDUCED, log entry 5). -/
def lutEntry (pw : Nat) (center i q : Byte) : Phase :=
  sextPW pw ((turnDigits (pw + 1) ((i.toNat : Int) - center.toNat) ((q.toNat : Int) - center.toNat) 0 + 1) / 2 : Nat)

end Sys2Proof.Machine
end

