-- ==== Sys2Proof/Machine/State.lean ====
section
/-! DEFINITION. The state of RUAT-CORE as plain data (`10_state.md`), its reset value (rule R281), and the reasons a step of
the model can stop. Registers that only mirror other state (STATUS, FRAMER0, PARAM0 to PARAM5, ID, VERSION) are computed
in Machine/Flags.lean and Machine/Bus.lean and have no field of their own. -/

namespace Sys2Proof.Machine

/-- The packet variants of rule R16. -/
inductive Variant where
  | short
  | long
  | uplink
  deriving DecidableEq, Repr

/-- PIPE_STATE (rule R50). -/
inductive PipeState where
  | idle
  | running
  | stopping
  | fault
  deriving DecidableEq, Repr

/-- FRAMER_STATE (rules R23, R179). -/
inductive FramerState where
  | searching
  | awaitingContinuation
  | dispatching
  deriving DecidableEq, Repr

/-- CONT_KIND (rules R38, R46): NONE, UNDET, or a pending packet of a known variant. -/
inductive ContKind where
  | none
  | undet
  | pending (v : Variant)
  deriving DecidableEq, Repr

/-- The error codes of rule R250, in the order of their numbers 0 to 15. -/
inductive ErrCode where
  | none
  | illegalOpcode
  | reservedNonzero
  | busy
  | invalidPolyDegree
  | notPrimitive
  | invalidPowerRange
  | noField
  | noGen
  | badLength
  | xramRange
  | locked
  | notReady
  | badVariant
  | badState
  | writeWhileBusy
  deriving DecidableEq, Repr

/-- The fatal codes of rule R257, in the order of their numbers 0 to 2. -/
inductive FatalCode where
  | none
  | contTooLong
  | accOverflow
  deriving DecidableEq, Repr

/-- The interrupt sources of rule R29, in the order of their bits 0 to 4. -/
inductive Irq where
  | cmdDone
  | err
  | fatal
  | stopped
  | drop
  deriving DecidableEq, Repr

/-- The ERR register (rule R24). -/
structure ErrReg where
  code : ErrCode
  sticky : Bool
  fatalCode : FatalCode
  deriving DecidableEq, Repr

/-- The configuration registers that are locked outside IDLE (rules R28 and R32 to R36). -/
structure Settings where
  /-- CTRL[0] (rule R28). -/
  rawMode : Bool
  /-- CTRL[1] (rule R28). -/
  reportFail : Bool
  /-- CENTER[7:0] (rule R32). -/
  center : Byte
  /-- DEV_MIN (rule R33): only bits [PW−1:0] can be nonzero. -/
  devMin : Word
  /-- DEV_MAX (rule R34): only bits [PW−1:0] can be nonzero. -/
  devMax : Word
  /-- SYNC_A (rule R35): SYNC_A_HI holds bits [35:32], SYNC_A_LO bits [31:0]. -/
  syncA : SyncPattern
  /-- SYNC_U (rule R36). -/
  syncU : SyncPattern
  deriving DecidableEq, Repr

/-- The Field Engine's tables (rules R31, R42). -/
structure FieldUnit where
  /-- FIELD_VALID. -/
  valid : Bool
  /-- POLY[15:0]. -/
  poly : BitVec 16
  /-- POWER and LOG. -/
  tables : FieldTables
  deriving DecidableEq, Repr

/-- A generator slot (rules R39, R43). `coeffs` is GEN[s][0..LEN), so LEN is its length; GEN[s] is 0 from LEN on. -/
structure GenSlot where
  /-- GEN_VALID[s]. -/
  valid : Bool
  /-- GEN_INFO[s].START. -/
  start : Byte
  /-- GEN_INFO[s].END. -/
  stop : Byte
  coeffs : List Byte
  deriving DecidableEq, Repr

/-- The phase lookup table (rule R44). LUT is the table of rule R142 for the centre it was built with, so its 65536 entries
are held by that one byte (DEDUCED, log entry 4); `State.lut` reads an entry. -/
structure PhaseUnit where
  /-- LUT_VALID. -/
  valid : Bool
  /-- The centre C that the DEMOD_INIT which built the table read from CENTER. -/
  builtFor : Byte
  deriving DecidableEq, Repr

/-- The bias estimator (rules R37, R49). -/
structure BiasUnit where
  /-- BIAS_EST[7:0]. -/
  est : Byte
  /-- BIAS_WIN, oldest byte first. -/
  win : List Byte
  /-- BIAS_BUFS. -/
  bufs : Word
  deriving DecidableEq, Repr

/-- The framer state (rules R41, R46), owned by the worker. -/
structure Framer where
  /-- ACC[0..ACC_LEN), first received bit first. -/
  acc : List Bool
  cont : ContKind
  fstate : FramerState
  runLen : Word
  /-- PREV, meaningful while PREV_VALID = 1. -/
  prev : Phase
  prevValid : Bool
  pairPhase : Bool
  deriving DecidableEq, Repr

/-- A FIFO entry (rule R47). -/
structure FifoEntry where
  phases : List Phase
  discont : Bool
  deriving DecidableEq, Repr

/-- The FIFO (rules R47, R220): a ring of QCAP slots. -/
structure Fifo where
  slots : List FifoEntry
  head : Nat
  tail : Nat
  count : Nat
  shutdownFlag : Bool
  dropPending : Bool
  deriving DecidableEq, Repr

/-- The sixteen statistics registers of rule R40, in address order. -/
structure Counters where
  bufIn : Word
  samples : Word
  validBits : Word
  maxRun : Word
  syncA : Word
  syncU : Word
  qdrop : Word
  nomem : Word
  shortOk : Word
  shortFail : Word
  longOk : Word
  longFail : Word
  upOk : Word
  upFail : Word
  trunc : Word
  raw : Word
  deriving DecidableEq, Repr

/-- A packet record (rule R103); LEN is the number of DATA bytes. -/
structure Record where
  tag : Variant
  raw : Bool
  ok : Bool
  fails : Nat
  data : List Byte
  deriving DecidableEq, Repr

/-- One atomic step of an agent or of the environment (rules R14, R265, R280): the alphabet of a schedule. -/
inductive Event where
  /-- The host reads the word at a bus address (rule R70). -/
  | busRead (addr : BusAddr)
  /-- The host writes a word at a bus address (rule R70). -/
  | busWrite (addr : BusAddr) (value : Word)
  /-- The command unit executes the accepted command (rule R90). -/
  | command
  /-- The front end sends one buffer, which the producer handles (rules R104, R223). -/
  | input (buffer : List Byte)
  /-- The worker takes its step (rule R226). -/
  | worker
  /-- The reset input is asserted (rule R280). -/
  | reset
  deriving DecidableEq, Repr

/-- Everything the spec gives the machine, and five fields of the model's own (`params`, `schedule`, `busData`, `draws`,
`epoch`). -/
structure State where
  /-- The build parameters (rule R9); no step changes them. -/
  params : Config.Params
  /-- CMD (rule R22): the last accepted command word. -/
  cmd : Word
  /-- STATUS.BUSY (rule R23): the command unit executes a command. -/
  busy : Bool
  /-- ERR (rule R24). -/
  err : ErrReg
  /-- RESULT (rule R25). -/
  result : Word
  /-- ARG_A (rule R26). -/
  argA : Word
  /-- ARG_B (rule R26). -/
  argB : Word
  /-- ARG_D[15:0] (rule R27). -/
  argD : BitVec 16
  /-- IRQ_STATUS[4:0] (rule R29). -/
  irqStatus : BitVec 5
  /-- IRQ_EN[4:0] (rule R30). -/
  irqEn : BitVec 5
  settings : Settings
  field : FieldUnit
  /-- The four generator slots (rule R43). -/
  gens : Vector GenSlot Config.ngen
  phase : PhaseUnit
  bias : BiasUnit
  framer : Framer
  fifo : Fifo
  counters : Counters
  /-- PIPE_STATE (rule R50). -/
  pipe : PipeState
  /-- XRAM (rule R45): the bytes written since reset, by rising address. -/
  xram : List Host.Cell
  /-- OUT_TRACE (rule R48): the records sent since reset, oldest first. -/
  outTrace : List Record
  /-- MODEL'S OWN: the interleaving still to come, next event first (rule R265; log entry 1). -/
  schedule : List Event
  /-- MODEL'S OWN: the word the bus returned to the host's last read (log entry 8). -/
  busData : Word
  /-- MODEL'S OWN: how many per-read draws have been taken (items U2, U3; log entry 3). -/
  draws : Nat
  /-- MODEL'S OWN: how many resets there have been, which names the XRAM draw (item U1; log entry 2). -/
  epoch : Nat
  deriving DecidableEq, Repr

/-- Why a step stops with a fault. NO CONSTRUCTOR: the spec gives every access and every command an effect (unmapped
addresses read 0, rule R71; a fatal condition enters PIPE_STATE = FAULT, which is a next state, rule R256). Safe: nothing
stops. -/
inductive Fault
  deriving DecidableEq, Repr

/-- Why a step has no meaning. -/
inductive Refusal where
  /-- Raised by an arm of `exec` that has no meaning yet; no arm is left in that case. Safe: the model stops. -/
  | notModelled (mnemonic : String)
  deriving DecidableEq, Repr

/-- An empty generator slot: GEN_VALID = 0, GEN_INFO = 0 (rules R39, R43). -/
def GenSlot.empty : GenSlot where
  valid := false
  start := 0
  stop := 0
  coeffs := []

/-- Every counter at 0 (rules R40, R231). -/
def Counters.zero : Counters where
  bufIn := 0
  samples := 0
  validBits := 0
  maxRun := 0
  syncA := 0
  syncU := 0
  qdrop := 0
  nomem := 0
  shortOk := 0
  shortFail := 0
  longOk := 0
  longFail := 0
  upOk := 0
  upFail := 0
  trunc := 0
  raw := 0

/-- The framer at reset, and as RUN and stop() leave it but for PREV (rules R46, R228, R229). PREV is UNSPECIFIED at reset
and unobservable; the model fixes it at 0 (DESIGN CHOICE, item U5, log entry 7). -/
def Framer.initial : Framer where
  acc := []
  cont := .none
  fstate := .searching
  runLen := 0
  prev := 0
  prevValid := false
  pairPhase := false

/-- The FIFO at reset (rule R47). The slots are UNSPECIFIED and unobservable; the model fixes them at empty entries (DESIGN
CHOICE, item U5, log entry 7). -/
def Fifo.initial (p : Config.Params) : Fifo where
  slots := List.replicate p.qcap { phases := [], discont := false }
  head := 0
  tail := 0
  count := 0
  shutdownFlag := false
  dropPending := false

/-- The configuration registers at reset (rules R28, R32 to R36). -/
def Settings.initial (p : Config.Params) : Settings where
  rawMode := false
  reportFail := false
  center := 127
  devMin := BitVec.ofNat 32 (deviationReset p 150000)
  devMax := BitVec.ofNat 32 (deviationReset p 500000)
  syncA := 0xEACDDA4E2
  syncU := 0x153225B1D

/-- The machine right after reset (rule R281) in the configuration `p`. POWER, LOG, GEN and LUT are UNSPECIFIED and
unobservable; the model fixes them at 0 (DESIGN CHOICE, item U4, log entry 7). -/
def State.resetWith (p : Config.Params) : State where
  params := p
  cmd := 0
  busy := false
  err := { code := .none, sticky := false, fatalCode := .none }
  result := 0
  argA := 0
  argB := 0
  argD := 0
  irqStatus := 0
  irqEn := 0
  settings := Settings.initial p
  field := { valid := false, poly := 0, tables := { power := List.replicate 256 0, log := List.replicate 256 0 } }
  gens := Vector.replicate Config.ngen GenSlot.empty
  phase := { valid := false, builtFor := 0 }
  bias := { est := 0, win := [], bufs := 0 }
  framer := Framer.initial
  fifo := Fifo.initial p
  counters := Counters.zero
  pipe := .idle
  xram := []
  outTrace := []
  schedule := []
  busData := 0
  draws := 0
  epoch := 0

/-- The machine right after reset in the reference configuration (rules R9, R281). -/
def State.reset : State := State.resetWith Config.Params.default

end Sys2Proof.Machine
end

