-- ==== Sys2Proof/Machine/Flags.lean ====
section
/-! DEFINITION. The status flags and the words that mirror them (rules R16, R21, R23, R24, R29, R38, R39, R53, R102, R103,
R250, R257): every number the spec gives to a named value, and every register word computed from other state. -/

namespace Sys2Proof.Machine

/-- 0 or 1 as a word. -/
def bitWord (b : Bool) : Word := if b then 1 else 0

/-- The variant code of rule R16. -/
def Variant.code : Variant → Nat
  | .short => 0
  | .long => 1
  | .uplink => 2

/-- The number of PIPE_STATE (rule R23). -/
def PipeState.code : PipeState → Nat
  | .idle => 0
  | .running => 1
  | .stopping => 2
  | .fault => 3

/-- The number of FRAMER_STATE (rule R23). -/
def FramerState.code : FramerState → Nat
  | .searching => 0
  | .awaitingContinuation => 1
  | .dispatching => 2

/-- The number of CONT_KIND (rule R38). -/
def ContKind.code : ContKind → Nat
  | .none => 0
  | .undet => 1
  | .pending v => 2 + v.code

/-- The number of an error code (rule R250). -/
def ErrCode.code : ErrCode → Nat
  | .none => 0
  | .illegalOpcode => 1
  | .reservedNonzero => 2
  | .busy => 3
  | .invalidPolyDegree => 4
  | .notPrimitive => 5
  | .invalidPowerRange => 6
  | .noField => 7
  | .noGen => 8
  | .badLength => 9
  | .xramRange => 10
  | .locked => 11
  | .notReady => 12
  | .badVariant => 13
  | .badState => 14
  | .writeWhileBusy => 15

/-- The number of a fatal code (rule R257). -/
def FatalCode.code : FatalCode → Nat
  | .none => 0
  | .contTooLong => 1
  | .accOverflow => 2

/-- The IRQ_STATUS bit of an interrupt source (rule R29). -/
def Irq.mask : Irq → BitVec 5
  | .cmdDone => 0b00001
  | .err => 0b00010
  | .fatal => 0b00100
  | .stopped => 0b01000
  | .drop => 0b10000

/-- The value `v` placed at bit `lo` of a register word. -/
def placed (v lo : Nat) : Word := BitVec.ofNat 32 v <<< lo

/-- PARAM0 (rule R21): QCAP, PAIR_STRIDE, PW and NGEN. -/
def param0Word (p : Config.Params) : Word :=
  placed (p.qcap % 16) 0 ||| placed (p.pairStride % 4) 4 ||| placed (p.pw % 32) 8 ||| placed Config.ngen 16

/-- STATUS.GEN_VALID, bits [7:4] of STATUS (rule R23). -/
def genValidWord (gens : Vector GenSlot Config.ngen) : Word :=
  bitWord gens[0].valid <<< 4 ||| bitWord gens[1].valid <<< 5 ||| bitWord gens[2].valid <<< 6 |||
    bitWord gens[3].valid <<< 7

/-- STATUS (rule R23). -/
def State.statusWord (s : State) : Word :=
  bitWord s.busy ||| bitWord s.field.valid <<< 1 ||| bitWord s.phase.valid <<< 2 ||| genValidWord s.gens |||
    placed s.pipe.code 8 ||| placed s.framer.fstate.code 10 ||| placed (s.fifo.count % 16) 12

/-- ERR (rule R24). -/
def ErrReg.word (e : ErrReg) : Word :=
  placed e.code.code 0 ||| bitWord e.sticky <<< 8 ||| placed e.fatalCode.code 16

/-- CTRL (rule R28). -/
def Settings.ctrlWord (c : Settings) : Word := bitWord c.rawMode ||| bitWord c.reportFail <<< 1

/-- FRAMER0 (rule R38). -/
def Framer.word (f : Framer) : Word :=
  placed (f.acc.length % 65536) 0 ||| placed f.cont.code 16 ||| placed f.fstate.code 20 |||
    bitWord f.prevValid <<< 22 ||| bitWord f.pairPhase <<< 23

/-- GEN_INFO.LEN: the number of coefficients (rule R39). -/
def GenSlot.len (g : GenSlot) : Nat := g.coeffs.length

/-- GEN_INFO (rule R39): 0 while the slot is not valid. -/
def GenSlot.infoWord (g : GenSlot) : Word :=
  if g.valid then placed (g.len % 512) 0 ||| placed g.start.toNat 16 ||| placed g.stop.toNat 24 else 0

/-- The interrupt line (rules R102, R259). -/
def State.irqLine (s : State) : Bool := s.irqStatus &&& s.irqEn != 0

/-- IRQ_STATUS with the bit of `i` set (rule R29). -/
def State.setIrq (i : Irq) (s : State) : State := { s with irqStatus := s.irqStatus ||| i.mask }

/-- The header word of a record (rule R103). -/
def Record.header (r : Record) : Word :=
  placed r.tag.code 0 ||| bitWord r.raw <<< 3 ||| bitWord r.ok <<< 4 ||| placed (r.fails % 8) 5 |||
    placed (r.data.length % 1024) 16

end Sys2Proof.Machine
end

