-- ==== Sys2Proof/Machine/Ops.lean ====
section
/-! DEFINITION. The named operations over memory and registers: XRAM as a list of cells in canonical form, the byte order
of the windows and of the records, the completion of a command, THE COMMAND ERROR (rule R252: what this block has in place
of an exception, rule R258), the host's return from it, and the reset input. -/

namespace Sys2Proof.Machine

/-! ### Memory -/

/-- The byte listed for an address; an unlisted address reads as no value (nothing has written it since reset). -/
def Memory.read : List Host.Cell → Nat → Option Byte
  | [], _ => none
  | (b, v) :: m, a => if a = b then some v else if a < b then none else Memory.read m a

/-- The list with the byte at `a` written. -/
def Memory.write : List Host.Cell → Nat → Byte → List Host.Cell
  | [], a, v => [(a, v)]
  | (b, w) :: m, a, v =>
    if a < b then (a, v) :: (b, w) :: m else if a = b then (a, v) :: m else (b, w) :: Memory.write m a v

/-- Every address of the list is `lo` or more, and the addresses rise strictly. -/
def Memory.wfFrom : Nat → List Host.Cell → Bool
  | _, [] => true
  | lo, (a, _) :: m => decide (lo ≤ a) && Memory.wfFrom (a + 1) m

/-- The canonical form: addresses rise strictly, so equal memories are equal lists. No entry can equal what an unlisted
address reads as, which is no value. -/
def Memory.wf (m : List Host.Cell) : Bool := Memory.wfFrom 0 m

/-- XRAM[a] (rule R13): the byte written, or the draw fixed at reset for a byte nothing has written (item U1). -/
def State.xramByte (s : State) (a : Nat) : Byte := (Memory.read s.xram a).getD (Config.xramDraw s.epoch a)

/-- XRAM[addr .. addr + n) (rule R96). -/
def State.xramRange (s : State) (addr n : Nat) : List Byte := (List.range n).map fun k => s.xramByte (addr + k)

/-- The list with consecutive bytes written from `addr` on. -/
def Memory.writeAll : List Host.Cell → Nat → List Byte → List Host.Cell
  | m, _, [] => m
  | m, addr, v :: vs => Memory.writeAll (Memory.write m addr v) (addr + 1) vs

/-- XRAM[addr .. addr + n) <- bytes (rule R96). -/
def State.writeXram (addr : Nat) (bytes : List Byte) (s : State) : State :=
  { s with xram := Memory.writeAll s.xram addr bytes }

/-! ### Byte order -/

/-- Four bytes as a word, the first in bits [7:0] (rules R73, R106). -/
def leWord (b0 b1 b2 b3 : Byte) : Word := b3 ++ b2 ++ b1 ++ b0

/-- The word at offset `off` of a byte window whose byte k is `window k` (rule R73). -/
def windowWord (window : Nat → Byte) (off : Nat) : Word :=
  leWord (window off) (window (off + 1)) (window (off + 2)) (window (off + 3))

/-- The four bytes of a word in the order of rule R73. -/
def wordBytes (w : Word) : List Byte :=
  [w.extractLsb' 0 8, w.extractLsb' 8 8, w.extractLsb' 16 8, w.extractLsb' 24 8]

/-- The data words of a record: DATA packed as in rule R73, bytes past LEN being 0 (rule R106). -/
def Record.dataWords (r : Record) : List Word :=
  (List.range ((r.data.length + 3) / 4)).map fun m => windowWord (fun k => r.data.getD k 0) (4 * m)

/-- The words of a record on the packet output port (rule R106). -/
def Record.words (r : Record) : List Word := r.header :: r.dataWords

/-! ### Commands: completion and errors -/

/-- RESULT <- w (rule R25). -/
def State.setResult (w : Word) (s : State) : State := { s with result := w }

/-- The completion of a command (rule R90): BUSY <- 0 and IRQ_STATUS.CMD_DONE <- 1. -/
def State.complete (s : State) : State := { s.setIrq .cmdDone with busy := false }

/-- An error is recorded (rules R90, R252, R253): ERR.CODE <- code, ERR.STICKY <- 1 and IRQ_STATUS.ERR <- 1. -/
def State.raiseError (code : ErrCode) (s : State) : State :=
  { s.setIrq .err with err := { s.err with code := code, sticky := true } }

/-- `raise CmdError(code)` (rule R252): the error is recorded and the command completes; nothing else changes. -/
def State.commandError (code : ErrCode) (s : State) : State := (s.raiseError code).complete

/-- A command that succeeds with a result (rules R25, R90). -/
def State.succeed (w : Word) (s : State) : State := (s.setResult w).complete

/-- The host's return from an error, on the ERR side (rules R24, R258): CODE and STICKY are cleared, FATAL_CODE stays. -/
def State.clearError (s : State) : State := { s with err := { s.err with code := .none, sticky := false } }

/-- The host's return from an error, on the IRQ_STATUS side (rules R29, R258): every bit written as 1 is cleared. -/
def State.clearIrq (bits : BitVec 5) (s : State) : State := { s with irqStatus := s.irqStatus &&& ~~~bits }

/-- `raise Fatal(code)` (rule R256): FATAL_CODE, PIPE_STATE = FAULT and IRQ_STATUS.FATAL; what the worker had done before
is kept. -/
def State.raiseFatal (code : FatalCode) (s : State) : State :=
  { s.setIrq .fatal with err := { s.err with fatalCode := code }, pipe := .fault }

/-- The reset input (rule R280): every state element at the reset value of rule R281. The configuration and the schedule
are not the block's, and the draws of rule R282 are new ones. -/
def State.resetInput (s : State) : State :=
  { State.resetWith s.params with schedule := s.schedule, draws := s.draws, epoch := s.epoch + 1 }

/-! ### Tables -/

/-- LUT[i][q] (rules R44, R142). -/
def State.lut (s : State) (i q : Byte) : Phase := lutEntry s.params.pw s.phase.builtFor i q

/-- A generator slot by its number (rule R43). -/
def State.gen (s : State) (slot : Fin Config.ngen) : GenSlot := s.gens[slot.val]

/-- The slots with one of them replaced. -/
def State.setGen (slot : Fin Config.ngen) (g : GenSlot) (s : State) : State := { s with gens := s.gens.set slot g }

/-- GEN[s][k] as the window shows it (rule R74): 0 from LEN on. -/
def GenSlot.coeff (g : GenSlot) (k : Nat) : Byte := g.coeffs.getD k 0

end Sys2Proof.Machine
end

