-- ==== Sys2Proof/Machine/Operands.lean ====
section
/-! DEFINITION. The operand forms (rules R26, R27, R92, R96, R97): the descriptors ARG_A, ARG_B and ARG_D, the XRAM range
check, the byte sequences a command reads, and the slot and variant selectors of the command word. -/

namespace Sys2Proof.Machine

/-- A descriptor's ADDR, bits [15:0] (rule R26). -/
def descAddr (d : Word) : Nat := (d.extractLsb' 0 16).toNat

/-- A descriptor's LEN, bits [31:16] (rule R26). -/
def descLen (d : Word) : Nat := (d.extractLsb' 16 16).toNat

/-- ARG_D.ADDR (rule R27). -/
def State.destAddr (s : State) : Nat := s.argD.toNat

/-- A range (addr, n) is in bounds when addr + n ≤ XRAM_BYTES, on unbounded naturals (rule R97). -/
def State.inBounds (s : State) (addr n : Nat) : Bool := decide (addr + n ≤ s.params.xramBytes)

/-- The byte sequence a source descriptor names (rule R96). -/
def State.source (s : State) (d : Word) : List Byte := s.xramRange (descAddr d) (descLen d)

/-- The source descriptor's range is in bounds (rule R97). -/
def State.sourceInBounds (s : State) (d : Word) : Bool := s.inBounds (descAddr d) (descLen d)

/-- SLOT as a slot number (rule R92). -/
def slotIndex (slot : BitVec 2) : Fin Config.ngen := slot.toFin

/-- VARIANT (rule R92): none for the reserved value 3. -/
def variantOf : BitVec 2 → Option Variant
  | 0 => some .short
  | 1 => some .long
  | 2 => some .uplink
  | _ => none

end Sys2Proof.Machine
end

