-- ==== Sys2Proof/Machine/Bus.lean ====
section
/-! DEFINITION. The host register bus (`20_memory.md`, rules R22 to R41, R70 to R78, R253): the address map, what a read
returns and what a write does. -/

namespace Sys2Proof.Machine

/-- The registers of the address map (rule R72), in address order. -/
inductive Reg where
  | id | version | param0 | param1 | param2 | param3 | param4 | param5
  | cmd | status | err | result | argA | argB | argD | ctrl
  | irqStatus | irqEn | poly | center | devMin | devMax | syncALo | syncAHi
  | syncULo | syncUHi | biasEst | framer0 | genInfo0 | genInfo1 | genInfo2 | genInfo3
  | cntBufIn | cntSamples | cntValidBits | maxRun | cntSyncA | cntSyncU | cntQdrop | cntNomem
  | cntShortOk | cntShortFail | cntLongOk | cntLongFail | cntUpOk | cntUpFail | cntTrunc | cntRaw
  | runLen
  deriving DecidableEq, Repr

/-- The registers at 0x00000, 0x00004, and so on: rule R72 lists 49 consecutive words from 0x00000 to 0x000C0. -/
def registerMap : List Reg :=
  [.id, .version, .param0, .param1, .param2, .param3, .param4, .param5,
    .cmd, .status, .err, .result, .argA, .argB, .argD, .ctrl,
    .irqStatus, .irqEn, .poly, .center, .devMin, .devMax, .syncALo, .syncAHi,
    .syncULo, .syncUHi, .biasEst, .framer0, .genInfo0, .genInfo1, .genInfo2, .genInfo3] ++
  [.cntBufIn, .cntSamples, .cntValidBits, .maxRun, .cntSyncA, .cntSyncU, .cntQdrop, .cntNomem,
    .cntShortOk, .cntShortFail, .cntLongOk, .cntLongFail, .cntUpOk, .cntUpFail, .cntTrunc, .cntRaw,
    .runLen]

/-- The register at a word address (rule R72). -/
def registerAt (a : Nat) : Option Reg := registerMap[a / 4]?

/-- What a bus address reaches (rule R72). The offset of a byte window is that of the word's first byte. -/
inductive Target where
  | reg (r : Reg)
  | powerWindow (off : Nat)
  | logWindow (off : Nat)
  | genWindow (slot : Fin Config.ngen) (off : Nat)
  | xramWindow (off : Nat)
  | lutWindow (i q : Byte)
  | unmapped
  deriving DecidableEq, Repr

/-- The word an address reaches: bits [1:0] are ignored (rule R70). -/
def wordAddress (addr : BusAddr) : Nat := addr.toNat / 4 * 4

/-- The address map (rules R71, R72) on a word address. -/
def targetAt (p : Config.Params) (a : Nat) : Target :=
  match registerAt a with
  | some r => .reg r
  | none =>
    if 0x01000 ≤ a ∧ a < 0x01100 then .powerWindow (a - 0x01000)
    else if 0x01100 ≤ a ∧ a < 0x01200 then .logWindow (a - 0x01100)
    else if 0x01400 ≤ a ∧ a < 0x01800 then .genWindow (Fin.ofNat Config.ngen ((a - 0x01400) / 256)) ((a - 0x01400) % 256)
    else if 0x02000 ≤ a ∧ a < 0x02000 + p.xramBytes then .xramWindow (a - 0x02000)
    else if 0x40000 ≤ a ∧ a < 0x80000 then
      .lutWindow (BitVec.ofNat 8 ((a - 0x40000) / 4 / 256)) (BitVec.ofNat 8 ((a - 0x40000) / 4))
    else .unmapped

/-- The address map on a bus address. -/
def State.target (s : State) (addr : BusAddr) : Target := targetAt s.params (wordAddress addr)

/-! ### Reads -/

/-- The word a register reads; RESULT is read here as it stands (rule R25's reads while BUSY are in `targetWord`). -/
def State.regWord (s : State) : Reg → Word
  | .id => 0x52554154
  | .version => 0x00010000
  | .param0 => param0Word s.params
  | .param1 => BitVec.ofNat 32 s.params.accCap
  | .param2 => BitVec.ofNat 32 s.params.slotBytes
  | .param3 => BitVec.ofNat 32 s.params.xramBytes
  | .param4 => BitVec.ofNat 32 s.params.biasN
  | .param5 => BitVec.ofNat 32 s.params.biasK
  | .cmd => s.cmd
  | .status => s.statusWord
  | .err => s.err.word
  | .result => s.result
  | .argA => s.argA
  | .argB => s.argB
  | .argD => s.argD.setWidth 32
  | .ctrl => s.settings.ctrlWord
  | .irqStatus => s.irqStatus.setWidth 32
  | .irqEn => s.irqEn.setWidth 32
  | .poly => if s.field.valid then s.field.poly.setWidth 32 else 0
  | .center => s.settings.center.setWidth 32
  | .devMin => s.settings.devMin
  | .devMax => s.settings.devMax
  | .syncALo => s.settings.syncA.setWidth 32
  | .syncAHi => (s.settings.syncA.extractLsb' 32 4).setWidth 32
  | .syncULo => s.settings.syncU.setWidth 32
  | .syncUHi => (s.settings.syncU.extractLsb' 32 4).setWidth 32
  | .biasEst => s.bias.est.setWidth 32
  | .framer0 => s.framer.word
  | .genInfo0 => (s.gen 0).infoWord
  | .genInfo1 => (s.gen 1).infoWord
  | .genInfo2 => (s.gen 2).infoWord
  | .genInfo3 => (s.gen 3).infoWord
  | .cntBufIn => s.counters.bufIn
  | .cntSamples => s.counters.samples
  | .cntValidBits => s.counters.validBits
  | .maxRun => s.counters.maxRun
  | .cntSyncA => s.counters.syncA
  | .cntSyncU => s.counters.syncU
  | .cntQdrop => s.counters.qdrop
  | .cntNomem => s.counters.nomem
  | .cntShortOk => s.counters.shortOk
  | .cntShortFail => s.counters.shortFail
  | .cntLongOk => s.counters.longOk
  | .cntLongFail => s.counters.longFail
  | .cntUpOk => s.counters.upOk
  | .cntUpFail => s.counters.upFail
  | .cntTrunc => s.counters.trunc
  | .cntRaw => s.counters.raw
  | .runLen => s.framer.runLen

/-- The word a target holds, with the gating of rule R78; none where a read returns any value because BUSY = 1 (rules R25,
R76). -/
def State.targetWord (s : State) : Target → Option Word
  | .reg r => if r = .result ∧ s.busy then none else some (s.regWord r)
  | .powerWindow off => some (if s.field.valid then windowWord s.field.tables.powerAt off else 0)
  | .logWindow off =>
    some (if s.field.valid then windowWord (fun k => s.field.tables.log.getD k 0) off else 0)
  | .genWindow slot off => some (if (s.gen slot).valid then windowWord (s.gen slot).coeff off else 0)
  | .xramWindow off => if s.busy then none else some (windowWord s.xramByte off)
  | .lutWindow i q => some (if s.phase.valid then BitVec.ofInt 32 (s.lut i q) else 0)
  | .unmapped => some 0

/-- `MemRead(addr, 4)` (rule R70): the word is returned on the bus and nothing else of the block changes; a read that
returns any value takes a fresh draw. -/
def State.busRead (addr : BusAddr) (s : State) : State :=
  match s.targetWord (s.target addr) with
  | some w => { s with busData := w }
  | none => { s with busData := Config.busyRead s.draws, draws := s.draws + 1 }

/-! ### Writes -/

/-- A write of a command word (rule R90). -/
def State.issueCommand (w : Word) (s : State) : State :=
  if s.busy then s.raiseError .busy else { s with cmd := w, busy := true }

/-- A write that is ignored with an error while BUSY = 1 (rule R253, first case). -/
def State.unlessBusy (s performed : State) : State :=
  if s.busy then s.raiseError .writeWhileBusy else performed

/-- A write to a configuration register (rule R253, second case). -/
def State.unlessLocked (c : Settings) (s : State) : State :=
  if s.busy then s.raiseError .writeWhileBusy
  else if s.pipe ≠ .idle then s.raiseError .locked
  else { s with settings := c }

/-- Bits [PW−1:0] of a word (rules R33, R34). -/
def lowBits (pw : Nat) (v : Word) : Word := BitVec.ofNat 32 (v.toNat % 2 ^ pw)

/-- A pattern with bits [31:0] replaced (rule R35). -/
def setPatternLo (v : Word) (p : SyncPattern) : SyncPattern := p.extractLsb' 32 4 ++ v

/-- A pattern with bits [35:32] replaced (rule R35). -/
def setPatternHi (v : Word) (p : SyncPattern) : SyncPattern := v.extractLsb' 0 4 ++ p.extractLsb' 0 32

/-- A write to a register (rules R22 to R41, R253); a write to a read-only one is ignored (rule R77). -/
def State.writeReg (s : State) (v : Word) : Reg → State
  | .cmd => s.issueCommand v
  | .err => if v.getLsbD 8 then s.clearError else s
  | .argA => s.unlessBusy { s with argA := v }
  | .argB => s.unlessBusy { s with argB := v }
  | .argD => s.unlessBusy { s with argD := v.setWidth 16 }
  | .ctrl => s.unlessLocked { s.settings with rawMode := v.getLsbD 0, reportFail := v.getLsbD 1 }
  | .irqStatus => s.clearIrq (v.setWidth 5)
  | .irqEn => { s with irqEn := v.setWidth 5 }
  | .center => s.unlessLocked { s.settings with center := v.setWidth 8 }
  | .devMin => s.unlessLocked { s.settings with devMin := lowBits s.params.pw v }
  | .devMax => s.unlessLocked { s.settings with devMax := lowBits s.params.pw v }
  | .syncALo => s.unlessLocked { s.settings with syncA := setPatternLo v s.settings.syncA }
  | .syncAHi => s.unlessLocked { s.settings with syncA := setPatternHi v s.settings.syncA }
  | .syncULo => s.unlessLocked { s.settings with syncU := setPatternLo v s.settings.syncU }
  | .syncUHi => s.unlessLocked { s.settings with syncU := setPatternHi v s.settings.syncU }
  | .id | .version | .param0 | .param1 | .param2 | .param3 | .param4 | .param5 | .status | .result | .poly
  | .biasEst | .framer0 | .genInfo0 | .genInfo1 | .genInfo2 | .genInfo3
  | .cntBufIn | .cntSamples | .cntValidBits | .maxRun | .cntSyncA | .cntSyncU | .cntQdrop | .cntNomem
  | .cntShortOk | .cntShortFail | .cntLongOk | .cntLongFail | .cntUpOk | .cntUpFail | .cntTrunc | .cntRaw
  | .runLen => s

/-- A write to a target (rules R71, R76, R77, R253). -/
def State.writeTarget (s : State) (v : Word) : Target → State
  | .reg r => s.writeReg v r
  | .xramWindow off => s.unlessBusy (s.writeXram off (wordBytes v))
  | .powerWindow _ | .logWindow _ | .genWindow _ _ | .lutWindow _ _ | .unmapped => s

/-- `MemWrite(addr, 4, v)` (rule R70). -/
def State.busWrite (addr : BusAddr) (v : Word) (s : State) : State := s.writeTarget v (s.target addr)

end Sys2Proof.Machine
end

