-- ==== Sys2Proof/Syntax.lean ====
section
/-! DEFINITION. The thirteen host commands of `spec/opcode_table.json` (rules R4, R92, R93). An operand's type carries the
width of its field (rule R92), so a value that does not fit its field cannot be written. -/

namespace Sys2Proof

/-- A host command, one constructor per row of the opcode table, in the order of rule R93. -/
inductive Instr where
  /-- NOP (0x00, rule R232). -/
  | nop
  /-- FIELD_BUILD poly (0x01, rule R120). -/
  | fieldBuild (poly : BitVec 16)
  /-- GEN_BUILD slot, start, end (0x02, rule R124). -/
  | genBuild (slot : BitVec 2) (start stop : Byte)
  /-- GF_ADD a, b (0x03, rule R121). -/
  | gfAdd (a b : Byte)
  /-- GF_MUL a, b (0x04, rule R122). -/
  | gfMul (a b : Byte)
  /-- POLY_MUL (0x05, rule R123). -/
  | polyMul
  /-- REMAINDER slot (0x06, rule R125). -/
  | remainder (slot : BitVec 2)
  /-- DEMOD_INIT (0x08, rule R144). -/
  | demodInit
  /-- DEINTERLEAVE (0x0A, rule R208). -/
  | deinterleave
  /-- VALIDATE variant (0x0B, rule R209). -/
  | validate (variant : BitVec 2)
  /-- RUN (0x10, rule R229). -/
  | run
  /-- SHUTDOWN (0x11, rule R230). -/
  | shutdown
  /-- CLEAR_STATS (0x12, rule R231). -/
  | clearStats
  deriving DecidableEq, Repr

end Sys2Proof
end

