-- ==== Sys2Proof/WellFormed.lean ====
section
/-! DEFINITION. Well-formed commands: those the assembler of rules R98 and R99 can write. The widths of POLY, START, END, A,
B and SLOT are carried by the operand types of `Instr`; what is left to check is that VALIDATE names one of the three
variants SHORT, LONG and UPLINK (VARIANT = 3 is the reserved encoding of rules R92 and R209, which the block still decodes
and answers with BAD_VARIANT). -/

namespace Sys2Proof

/-- The command is one the assembler of rule R98 can write. -/
def Instr.WellFormed : Instr → Bool
  | .nop => true
  | .fieldBuild _ => true
  | .genBuild _ _ _ => true
  | .gfAdd _ _ => true
  | .gfMul _ _ => true
  | .polyMul => true
  | .remainder _ => true
  | .demodInit => true
  | .deinterleave => true
  | .validate variant => variant != 3
  | .run => true
  | .shutdown => true
  | .clearStats => true

end Sys2Proof
end

