-- ==== Sys2Proof/Decode.lean ====
section
/-! DEFINITION. The command word (rules R91 to R95): the decoder, total on every 32-bit word and rejecting by name, and the
encoder. The decoder selects the row by bits [31:24] alone, then checks the format's reserved-zero bits; an illegal opcode
is reported before a nonzero reserved bit (rule R251). -/

namespace Sys2Proof

/-- The operand formats of rule R92. -/
inductive Format where
  | none
  | poly
  | generator
  | bytes
  | slot
  | variant
  deriving DecidableEq, Repr

/-- The reserved-zero mask of a format (rule R92, last column). -/
def Format.reservedMask : Format → Word
  | .none => 0x00FFFFFF
  | .poly => 0x00FF0000
  | .generator => 0x000000FC
  | .bytes => 0x00FF0000
  | .slot => 0x00FFFFFC
  | .variant => 0x00FFFFFC

/-- Why a command word is no command. -/
inductive DecodeError where
  /-- OPC is not one of the 13 values of the opcode map (rule R95). -/
  | illegalOpcode
  /-- A reserved bit of the opcode's format is 1 (rule R94). -/
  | reservedNonzero
  deriving DecidableEq, Repr

/-- The opcode OPC, bits [31:24] (rule R91). -/
def opcodeField (w : Word) : Byte := w.extractLsb' 24 8

/-- START of format G, bits [23:16] (rule R92). -/
def startField (w : Word) : Byte := w.extractLsb' 16 8

/-- END of format G and A of format B, bits [15:8] (rule R92). -/
def middleField (w : Word) : Byte := w.extractLsb' 8 8

/-- B of format B, bits [7:0] (rule R92). -/
def lowField (w : Word) : Byte := w.extractLsb' 0 8

/-- POLY of format P, bits [15:0] (rule R92). -/
def polyField (w : Word) : BitVec 16 := w.extractLsb' 0 16

/-- SLOT of formats G and S and VARIANT of format V, bits [1:0] (rule R92). -/
def selectField (w : Word) : BitVec 2 := w.extractLsb' 0 2

/-- The row of the opcode map (rule R93) that the opcode selects, with the operand fields read from the word; none where
the opcode is not in the map (rule R95). -/
def opcodeRow (w : Word) : Option (Format × Instr) :=
  match opcodeField w with
  | 0x00 => some (.none, .nop)
  | 0x01 => some (.poly, .fieldBuild (polyField w))
  | 0x02 => some (.generator, .genBuild (selectField w) (startField w) (middleField w))
  | 0x03 => some (.bytes, .gfAdd (middleField w) (lowField w))
  | 0x04 => some (.bytes, .gfMul (middleField w) (lowField w))
  | 0x05 => some (.none, .polyMul)
  | 0x06 => some (.slot, .remainder (selectField w))
  | 0x08 => some (.none, .demodInit)
  | 0x0A => some (.none, .deinterleave)
  | 0x0B => some (.variant, .validate (selectField w))
  | 0x10 => some (.none, .run)
  | 0x11 => some (.none, .shutdown)
  | 0x12 => some (.none, .clearStats)
  | _ => none

/-- The decoder (rules R91 to R95, check order of rule R251). -/
def decode (w : Word) : Except DecodeError Instr :=
  match opcodeRow w with
  | none => .error .illegalOpcode
  | some (format, i) => if w &&& format.reservedMask = 0 then .ok i else .error .reservedNonzero

/-- The decoder on an instruction whose bits are `w`, numbered as `spec/opcode_table.json` numbers them. Every command is
one 32-bit word (rule R91), so the word's bits are `w`'s and every bit above `nbits` is 0. -/
def decodeTableWord (nbits w : Nat) : Option Instr :=
  (decode (BitVec.ofNat 32 (w % 2 ^ nbits))).toOption

/-- A command word from its opcode and its operand bits: the form `OPC << 24 | operands` of the command rules. -/
def commandWord (opc : Nat) (operands : Word) : Word := BitVec.ofNat 32 opc <<< 24 ||| operands

/-- The operand bits of format G: `start << 16 | end << 8 | slot` (rule R124). -/
def generatorOperands (slot : BitVec 2) (start stop : Byte) : Word :=
  start.setWidth 32 <<< 16 ||| stop.setWidth 32 <<< 8 ||| slot.setWidth 32

/-- The operand bits of format B: `a << 8 | b` (rules R121, R122). -/
def bytesOperands (a b : Byte) : Word := a.setWidth 32 <<< 8 ||| b.setWidth 32

/-- The encoder (rules R92, R93 and the words of the command rules). -/
def encode : Instr → Word
  | .nop => commandWord 0x00 0
  | .fieldBuild poly => commandWord 0x01 (poly.setWidth 32)
  | .genBuild slot start stop => commandWord 0x02 (generatorOperands slot start stop)
  | .gfAdd a b => commandWord 0x03 (bytesOperands a b)
  | .gfMul a b => commandWord 0x04 (bytesOperands a b)
  | .polyMul => commandWord 0x05 0
  | .remainder slot => commandWord 0x06 (slot.setWidth 32)
  | .demodInit => commandWord 0x08 0
  | .deinterleave => commandWord 0x0A 0
  | .validate variant => commandWord 0x0B (variant.setWidth 32)
  | .run => commandWord 0x10 0
  | .shutdown => commandWord 0x11 0
  | .clearStats => commandWord 0x12 0

end Sys2Proof
end

