-- ==== Sys2Proof/Machine/DemodCommands.lean ====
section
/-! DEFINITION. The command of the Phase Demodulator (rule R144). -/

namespace Sys2Proof.Machine

/-- The commit of DEMOD_INIT (rule R144): LUT becomes the table of rule R142 for the centre in CENTER. -/
def State.commitLut (s : State) : State := { s with phase := { valid := true, builtFor := s.settings.center } }

/-- DEMOD_INIT (rule R144). -/
def execDemodInit (s : State) : Host.Outcome State Fault Refusal :=
  if s.pipe ≠ .idle then .next (s.commandError .locked) else .next s.commitLut.complete

end Sys2Proof.Machine
end

