-- ==== Sys2Proof/Machine/FieldCommands.lean ====
section
/-! DEFINITION. The six commands of the Field Engine (rules R120 to R125). Each meaning is the command's pseudocode, its
checks in order, and ends with the completion of rule R90. -/

namespace Sys2Proof.Machine

/-- The commit of FIELD_BUILD (rule R120): the tables, POLY and FIELD_VALID; every generator slot is invalidated. -/
def State.commitField (poly : BitVec 16) (s : State) : State :=
  { s with
    field := { valid := true, poly := poly, tables := buildTables poly }
    gens := Vector.replicate Config.ngen GenSlot.empty }

/-- FIELD_BUILD (rule R120). -/
def execFieldBuild (poly : BitVec 16) (s : State) : Host.Outcome State Fault Refusal :=
  if s.pipe ≠ .idle then .next (s.commandError .locked)
  else if poly.getLsbD 8 = false then .next (s.commandError .invalidPolyDegree)
  else if isPermutation (buildPower poly) = false then .next (s.commandError .notPrimitive)
  else .next (s.commitField poly).complete

/-- The slot GEN_BUILD builds (rules R118, R124). -/
def builtSlot (t : FieldTables) (start stop : Byte) : GenSlot where
  valid := true
  start := start
  stop := stop
  coeffs := genPoly t start.toNat stop.toNat

/-- GEN_BUILD (rule R124): LEN = end − start + 2 is the result. -/
def execGenBuild (slot : BitVec 2) (start stop : Byte) (s : State) : Host.Outcome State Fault Refusal :=
  if s.pipe ≠ .idle then .next (s.commandError .locked)
  else if s.field.valid = false then .next (s.commandError .noField)
  else if 255 ≤ start.toNat ∨ stop.toNat < start.toNat ∨ 255 ≤ stop.toNat then
    .next (s.commandError .invalidPowerRange)
  else
    .next ((s.setGen (slotIndex slot) (builtSlot s.field.tables start stop)).succeed
      (BitVec.ofNat 32 (stop.toNat - start.toNat + 2)))

/-- GF_ADD (rule R121). -/
def execGfAdd (a b : Byte) (s : State) : Host.Outcome State Fault Refusal :=
  .next (s.succeed ((gfAdd a b).setWidth 32))

/-- GF_MUL (rule R122). -/
def execGfMul (a b : Byte) (s : State) : Host.Outcome State Fault Refusal :=
  if s.field.valid = false then .next (s.commandError .noField)
  else .next (s.succeed ((gfMul s.field.tables a b).setWidth 32))

/-- POLY_MUL (rule R123): all sources are read before the destination is written (rule R96). -/
def execPolyMul (s : State) : Host.Outcome State Fault Refusal :=
  let n := descLen s.argA + descLen s.argB - 1
  if s.field.valid = false then .next (s.commandError .noField)
  else if descLen s.argA = 0 ∨ descLen s.argB = 0 then .next (s.commandError .badLength)
  else if !s.sourceInBounds s.argA || !s.sourceInBounds s.argB || !s.inBounds s.destAddr n then
    .next (s.commandError .xramRange)
  else
    .next ((s.writeXram s.destAddr (polyMul s.field.tables (s.source s.argA) (s.source s.argB))).succeed
      (BitVec.ofNat 32 n))

/-- REMAINDER (rule R125). -/
def execRemainder (slot : BitVec 2) (s : State) : Host.Outcome State Fault Refusal :=
  let g := s.gen (slotIndex slot)
  let n := g.len - 1
  if s.field.valid = false then .next (s.commandError .noField)
  else if g.valid = false then .next (s.commandError .noGen)
  else if !s.sourceInBounds s.argA || !s.inBounds s.destAddr n then .next (s.commandError .xramRange)
  else
    .next ((s.writeXram s.destAddr (remainder s.field.tables (s.source s.argA) g.coeffs)).succeed
      (BitVec.ofNat 32 n))

end Sys2Proof.Machine
end

