-- ==== Sys2Proof/Machine/Packet.lean ====
section
/-! DEFINITION. Packets (rules R16, R183, R200 to R207): variant constants, byte assembly, de-interleaving, the FEC
validators and the dispatch. What the worker reads and what it may change are two records: the configuration and the
tables, which are constant during a session (rules R86, R286), and the framer, the counters and the output trace. -/

namespace Sys2Proof.Machine

/-! ### Variant constants (rule R16) -/

/-- N: bits after the sync. -/
def Variant.bits : Variant → Nat
  | .short => 240
  | .long => 384
  | .uplink => 4416

/-- B: total bytes. -/
def Variant.bytes (v : Variant) : Nat := v.bits / 8

/-- D: data bytes of one codeword; SHORT and LONG are one codeword, an UPLINK packet is six. -/
def Variant.codewordData : Variant → Nat
  | .short => 18
  | .long => 34
  | .uplink => 72

/-- PC: parity bytes per codeword. -/
def Variant.codewordParity : Variant → Nat
  | .short => 12
  | .long => 14
  | .uplink => 20

/-- The generator slot that serves the variant (rule R43). -/
def Variant.slot : Variant → Fin Config.ngen
  | .short => 0
  | .long => 1
  | .uplink => 2

/-- The slot is conformant for its variant (rule R129). -/
def GenSlot.conformant (g : GenSlot) (v : Variant) : Bool := g.valid && g.len == v.codewordParity + 1

/-! ### Byte assembly and de-interleaving -/

/-- `s[a .. a + n)` (rule R11). -/
def sliceOf {α : Type} (s : List α) (a n : Nat) : List α := (s.drop a).take n

/-- Bits as a number, the first bit most significant (rule R79). -/
def byteOfBits (bits : List Bool) : Byte := bits.foldl (fun e b => e <<< 1 ||| (if b then 1 else 0)) 0

/-- `pack(bits)` (rule R183): groups of 8 bits, most significant bit first. -/
def pack (bits : List Bool) : List Byte :=
  (List.range (bits.length / 8)).map fun k => byteOfBits (sliceOf bits (8 * k) 8)

/-- Codeword c of a 552-byte uplink packet (rule R202). -/
def codeword (packet : List Byte) (c : Nat) : List Byte := (List.range 92).map fun j => packet.getD (6 * j + c) 0

/-- `deinterleave(by)` (rule R202): the 6 codewords of 92 bytes. -/
def deinterleave (packet : List Byte) : List (List Byte) := (List.range 6).map (codeword packet)

/-! ### The FEC check -/

/-- A received codeword passes: the remainder of its `data` data bytes modulo the generator equals, byte for byte, the
`parity` parity bytes that follow them (rules R204, R205, R209). -/
def codewordOk (t : FieldTables) (g : List Byte) (data parity : Nat) (cw : List Byte) : Bool :=
  remainder t (cw.take data) g == sliceOf cw data parity

/-- How many codewords of a packet fail: 0 or 1 for SHORT and LONG (rule R204), 0 to 6 for UPLINK (rule R205). -/
def failingCodewords (t : FieldTables) (g : List Byte) (v : Variant) (packet : List Byte) : Nat :=
  match v with
  | .uplink => (deinterleave packet).countP fun cw => !codewordOk t g v.codewordData v.codewordParity cw
  | .short | .long => if codewordOk t g v.codewordData v.codewordParity packet then 0 else 1

/-- The data bytes a passing packet delivers: for UPLINK codeword-major (rules R204, R205). -/
def packetData (v : Variant) (packet : List Byte) : List Byte :=
  match v with
  | .uplink => (deinterleave packet).flatMap fun cw => cw.take v.codewordData
  | .short | .long => packet.take v.codewordData

/-! ### The worker's view -/

/-- What the worker reads and never writes. -/
structure WorkerEnv where
  params : Config.Params
  settings : Settings
  tables : FieldTables
  gens : Vector GenSlot Config.ngen
  deriving DecidableEq, Repr

/-- What the worker's processing of an entry may change. -/
structure WorkerState where
  framer : Framer
  counters : Counters
  outTrace : List Record
  deriving DecidableEq, Repr

/-- The worker inside one entry: it goes on, or a Fatal has ended the step at that point with what was done before kept
(rules R160, R227, R256). -/
inductive Progress where
  | going (w : WorkerState)
  | fatal (code : FatalCode) (w : WorkerState)
  deriving DecidableEq, Repr

/-- The next operation, unless a Fatal has ended the step. -/
def Progress.andThen (p : Progress) (f : WorkerState → Progress) : Progress :=
  match p with
  | .going w => f w
  | .fatal c w => .fatal c w

/-- GEN[s][0..PC(v) + 1) of the variant's slot (rules R204, R205). -/
def WorkerEnv.generator (env : WorkerEnv) (v : Variant) : List Byte :=
  (List.range (v.codewordParity + 1)).map env.gens[v.slot.val].coeff

/-- `emit(record)` (rule R207). -/
def WorkerState.emit (r : Record) (w : WorkerState) : WorkerState := { w with outTrace := w.outTrace ++ [r] }

/-- The counter of a passing packet (rules R204, R205). -/
def Counters.countOk (v : Variant) (c : Counters) : Counters :=
  match v with
  | .short => { c with shortOk := c.shortOk + 1 }
  | .long => { c with longOk := c.longOk + 1 }
  | .uplink => { c with upOk := c.upOk + 1 }

/-- The counter of a failing packet (rules R204, R205). -/
def Counters.countFail (v : Variant) (c : Counters) : Counters :=
  match v with
  | .short => { c with shortFail := c.shortFail + 1 }
  | .long => { c with longFail := c.longFail + 1 }
  | .uplink => { c with upFail := c.upFail + 1 }

/-- A record of rule R206: raw mode. -/
def rawRecord (v : Variant) (packet : List Byte) : Record :=
  { tag := v, raw := true, ok := false, fails := 0, data := packet }

/-- A record of rule R206: the packet passes. -/
def okRecord (v : Variant) (packet : List Byte) : Record :=
  { tag := v, raw := false, ok := true, fails := 0, data := packetData v packet }

/-- A record of rule R206: `fails` codewords fail. -/
def failRecord (v : Variant) (fails : Nat) : Record :=
  { tag := v, raw := false, ok := false, fails := fails, data := [] }

/-- `raw_emit(v, by)` (rule R203). -/
def rawEmit (v : Variant) (packet : List Byte) (w : WorkerState) : WorkerState :=
  { w with counters := { w.counters with raw := w.counters.raw + 1 } }.emit (rawRecord v packet)

/-- `validate_single` and `validate_uplink` (rules R204, R205): they differ only in the constants of the variant. -/
def validatePacket (env : WorkerEnv) (v : Variant) (packet : List Byte) (w : WorkerState) : WorkerState :=
  let fails := failingCodewords env.tables (env.generator v) v packet
  if fails = 0 then { w with counters := w.counters.countOk v }.emit (okRecord v packet)
  else
    let counted := { w with counters := w.counters.countFail v }
    if env.settings.reportFail then counted.emit (failRecord v fails) else counted

/-- `dispatch(v, bits)` (rule R200). -/
def dispatchPacket (env : WorkerEnv) (v : Variant) (bits : List Bool) (w : WorkerState) : WorkerState :=
  if env.settings.rawMode then rawEmit v (pack bits) w else validatePacket env v (pack bits) w

end Sys2Proof.Machine
end

