-- ==== Sys2Proof/Machine/PacketCommands.lean ====
section
/-! DEFINITION. The de-interleaver and validation commands (rules R208, R209). -/

namespace Sys2Proof.Machine

/-- The 552 bytes DEINTERLEAVE writes: codeword c at offset 92c (rule R208). -/
def codewordMajor (packet : List Byte) : List Byte := (deinterleave packet).flatten

/-- DEINTERLEAVE (rule R208). -/
def execDeinterleave (s : State) : Host.Outcome State Fault Refusal :=
  if descLen s.argA ≠ 552 then .next (s.commandError .badLength)
  else if !s.inBounds (descAddr s.argA) 552 || !s.inBounds s.destAddr 552 then .next (s.commandError .xramRange)
  else
    .next ((s.writeXram s.destAddr (codewordMajor (s.xramRange (descAddr s.argA) 552))).succeed
      (BitVec.ofNat 32 552))

/-- RESULT of VALIDATE for f failing codewords (rule R209): OK in bit 0, FAIL_COUNT in bits [10:8]. -/
def validateResult (f : Nat) : Word := placed f 8 ||| (if f = 0 then 1 else 0)

/-- VALIDATE of a variant that is not the reserved one (rule R209). -/
def validateVariant (v : Variant) (s : State) : State :=
  let g := s.gen v.slot
  if s.field.valid = false then s.commandError .noField
  else if g.valid = false then s.commandError .noGen
  else if g.len ≠ v.codewordParity + 1 then s.commandError .notReady
  else if descLen s.argA ≠ v.bytes then s.commandError .badLength
  else if !s.inBounds (descAddr s.argA) v.bytes then s.commandError .xramRange
  else s.succeed (validateResult (failingCodewords s.field.tables g.coeffs v (s.xramRange (descAddr s.argA) v.bytes)))

/-- VALIDATE (rule R209). -/
def execValidate (variant : BitVec 2) (s : State) : Host.Outcome State Fault Refusal :=
  match variantOf variant with
  | none => .next (s.commandError .badVariant)
  | some v => .next (validateVariant v s)

end Sys2Proof.Machine
end

