-- ==== Sys2Proof/Machine/Framer.lean ====
section
/-! DEFINITION. The bit slicer, the sync search and the framer (rules R160 to R183). -/

namespace Sys2Proof.Machine

/-- The spill kinds of rule R170. -/
inductive SpillKind where
  | seam
  | brk
  deriving DecidableEq, Repr

/-- The framer with its state field replaced. -/
def WorkerState.setFramerState (f : FramerState) (w : WorkerState) : WorkerState :=
  { w with framer := { w.framer with fstate := f } }

/-- ACC, CONT_KIND and FRAMER_STATE replaced together. -/
def WorkerState.setPending (acc : List Bool) (cont : ContKind) (f : FramerState) (w : WorkerState) : WorkerState :=
  { w with framer := { w.framer with acc := acc, cont := cont, fstate := f } }

/-- A packet is abandoned as truncated (rules R171, R176): CNT_TRUNC counts it, the accumulator and the continuation are
cleared. -/
def WorkerState.truncate (w : WorkerState) : WorkerState :=
  { w with counters := { w.counters with trunc := w.counters.trunc + 1 } }.setPending [] .none .searching

/-- bits36(S): the pattern in order of reception (rule R80). -/
def bits36 (p : SyncPattern) : List Bool := (List.range 36).map fun k => p.getLsbD (35 - k)

/-- A packet runs through DISPATCHING to SEARCHING (rules R171, R173, R179). -/
def dispatching (env : WorkerEnv) (v : Variant) (bits : List Bool) (w : WorkerState) : WorkerState :=
  (dispatchPacket env v bits (w.setFramerState .dispatching)).setFramerState .searching

/-- The variant of an Active packet from the bits after its sync (rule R172): SHORT when the first 5 are all 0, LONG
otherwise, and undetermined while there are fewer than 5. -/
def activeVariant (bits : List Bool) : Option Variant :=
  if bits.length < 5 then none
  else if bits.take 5 = [false, false, false, false, false] then some .short else some .long

/-- The kind of continuation a packet of a variant, or of one not yet determined, waits as. -/
def contOf : Option Variant → ContKind
  | none => .undet
  | some v => .pending v

/-- The bits a continuation is checked to fit (rule R176): UNDET waits for the longest Active packet. -/
def wantedBits : Option Variant → Nat
  | none => 384
  | some v => v.bits

/-- `shortfall(kind, q, v)` (rule R176), where `rest` is ACC[q .. L). -/
def shortfall (env : WorkerEnv) (kind : SpillKind) (rest : List Bool) (v : Option Variant) (w : WorkerState) : Progress :=
  match kind with
  | .seam =>
    if env.params.accCap < wantedBits v then .fatal .contTooLong w
    else .going (w.setPending rest (contOf v) .awaitingContinuation)
  | .brk => .going w.truncate

/-- Spill, step 3: the tail ACC[p .. L) (rule R178). -/
def spillTail (kind : SpillKind) (rest : List Bool) (w : WorkerState) : WorkerState :=
  match kind with
  | .seam => w.setPending rest w.framer.cont .searching
  | .brk => w.setPending [] w.framer.cont .searching

/-- An Active match is counted (rule R174). -/
def WorkerState.countSyncA (w : WorkerState) : WorkerState :=
  { w with counters := { w.counters with syncA := w.counters.syncA + 1 } }

/-- An Uplink match is counted (rule R175). -/
def WorkerState.countSyncU (w : WorkerState) : WorkerState :=
  { w with counters := { w.counters with syncU := w.counters.syncU + 1 } }

/-- Spill, step 2: the sync scan (rules R173 to R177, R182). `rest` is ACC[p .. L): advancing p drops bits from its front.
`fuel` bounds the number of scan positions; `rest.length + 1` is enough, since each pass drops at least one bit. -/
def scan (env : WorkerEnv) (kind : SpillKind) : Nat → List Bool → WorkerState → Progress
  | 0, rest, w => .going (spillTail kind rest w)
  | fuel + 1, rest, w =>
    if (rest.take 36).length < 36 then .going (spillTail kind rest w)
    else if rest.take 36 = bits36 env.settings.syncA then
      match activeVariant (rest.drop 36) with
      | none => shortfall env kind (rest.drop 36) none w.countSyncA
      | some v =>
        if v.bits ≤ (rest.drop 36).length then
          scan env kind fuel ((rest.drop 36).drop v.bits) (dispatching env v ((rest.drop 36).take v.bits) w.countSyncA)
        else shortfall env kind (rest.drop 36) (some v) w.countSyncA
    else if rest.take 36 = bits36 env.settings.syncU then
      if Variant.uplink.bits ≤ (rest.drop 36).length then
        scan env kind fuel ((rest.drop 36).drop Variant.uplink.bits)
          (dispatching env .uplink ((rest.drop 36).take Variant.uplink.bits) w.countSyncU)
      else shortfall env kind (rest.drop 36) (some .uplink) w.countSyncU
    else scan env kind fuel (rest.drop 1) w

/-- Step 2 from the bits ACC[p .. L). -/
def scanFrom (env : WorkerEnv) (kind : SpillKind) (rest : List Bool) (w : WorkerState) : Progress :=
  scan env kind (rest.length + 1) rest w

/-- CONT_KIND after the first test of spill step 1: UNDET is resolved once 5 bits are there (rules R171, R172). -/
def resolvedCont (f : Framer) : ContKind :=
  match f.cont with
  | .undet => match activeVariant f.acc with
    | none => .undet
    | some v => .pending v
  | c => c

/-- A pending packet that is not complete (rule R171): at a SEAM it waits, at a BREAK it is truncated. -/
def awaitOrTruncate (kind : SpillKind) (cont : ContKind) (w : WorkerState) : WorkerState :=
  match kind with
  | .seam => w.setPending w.framer.acc cont .awaitingContinuation
  | .brk => w.truncate

/-- `spill(kind)` (rules R170, R171, R173, R178). -/
def spill (env : WorkerEnv) (kind : SpillKind) (w : WorkerState) : Progress :=
  match resolvedCont w.framer with
  | .none => scanFrom env kind w.framer.acc w
  | .undet => .going (awaitOrTruncate kind .undet w)
  | .pending v =>
    if v.bits ≤ w.framer.acc.length then
      let done := dispatching env v (w.framer.acc.take v.bits) w
      scanFrom env kind (w.framer.acc.drop v.bits) { done with framer := { done.framer with cont := .none } }
    else .going (awaitOrTruncate kind (.pending v) w)

/-- RUN_LEN <- 0 (rule R167). -/
def WorkerState.clearRun (w : WorkerState) : WorkerState := { w with framer := { w.framer with runLen := 0 } }

/-- `break_run()` (rule R167). -/
def breakRun (env : WorkerEnv) (w : WorkerState) : Progress :=
  if 0 < w.framer.acc.length ∨ w.framer.cont ≠ .none then (spill env .brk w).andThen fun w' => .going w'.clearRun
  else .going w.clearRun

/-- The larger of two words. -/
def wordMax (a b : Word) : Word := if a.toNat ≤ b.toNat then b else a

/-- `append(b)` (rule R166). -/
def WorkerState.append (b : Bool) (w : WorkerState) : WorkerState where
  framer := { w.framer with acc := w.framer.acc ++ [b], runLen := w.framer.runLen + 1 }
  counters :=
    { w.counters with
      validBits := w.counters.validBits + 1
      maxRun := wordMax w.counters.maxRun (w.framer.runLen + 1) }
  outTrace := w.outTrace

/-- The delta lies in the valid-deviation window, both bounds inclusive (rule R163). -/
def validDelta (c : Settings) (d : Phase) : Bool := decide (c.devMin.toNat ≤ d.natAbs ∧ d.natAbs ≤ c.devMax.toNat)

/-- The bit decision of a valid delta (rule R164). -/
def bitOf (d : Phase) : Bool := decide (0 ≤ d)

/-- The append of rule R165, after the compaction: an accumulator that is still full is fatal (rule R181). -/
def appendOrOverflow (env : WorkerEnv) (b : Bool) (w : WorkerState) : Progress :=
  if w.framer.acc.length = env.params.accCap then .fatal .accOverflow w else .going (w.append b)

/-- `slice(d)` (rules R165, R180). -/
def slice (env : WorkerEnv) (d : Phase) (w : WorkerState) : Progress :=
  if validDelta env.settings d then
    if w.framer.acc.length = env.params.accCap then (spill env .seam w).andThen (appendOrOverflow env (bitOf d))
    else .going (w.append (bitOf d))
  else breakRun env w

/-- The delta of a pair (rule R163). -/
def deltaOf (p : Config.Params) (first second : Phase) : Phase := sextPW p.pw (second - first)

/-- CNT_SAMPLES counts a phase (rule R161). -/
def WorkerState.countSample (w : WorkerState) : WorkerState :=
  { w with counters := { w.counters with samples := w.counters.samples + 1 } }

/-- The end of `sample(φ)` (rule R161): PREV holds φ. -/
def WorkerState.setPrev (phase : Phase) (w : WorkerState) : WorkerState :=
  { w with framer := { w.framer with prev := phase, prevValid := true } }

/-- PAIR_PHASE <- not PAIR_PHASE (rule R161). -/
def WorkerState.togglePair (w : WorkerState) : WorkerState :=
  { w with framer := { w.framer with pairPhase := !w.framer.pairPhase } }

/-- `sample(φ)` (rule R161). -/
def sample (env : WorkerEnv) (phase : Phase) (w0 : WorkerState) : Progress :=
  let w := w0.countSample
  if env.params.pairStride = 1 then
    (if w.framer.prevValid then slice env (deltaOf env.params w.framer.prev phase) w else .going w).andThen
      fun w' => .going (w'.setPrev phase)
  else
    (if w.framer.pairPhase then slice env (deltaOf env.params w.framer.prev phase) w else .going w).andThen
      fun w' => .going (w'.togglePair.setPrev phase)

/-- The samples of an entry, in order (rule R160). -/
def samples (env : WorkerEnv) : List Phase → WorkerState → Progress
  | [], w => .going w
  | phase :: rest, w => (sample env phase w).andThen (samples env rest)

/-- PREV_VALID <- 0 and PAIR_PHASE <- 0 (rules R160, R168). -/
def WorkerState.forgetPrev (w : WorkerState) : WorkerState :=
  { w with framer := { w.framer with prevValid := false, pairPhase := false } }

/-- The start of an entry that follows a drop (rules R160, R168). -/
def discontinuity (env : WorkerEnv) (discont : Bool) (w : WorkerState) : Progress :=
  if discont then (breakRun env w).andThen fun w' => .going w'.forgetPrev else .going w

/-- `process_entry(phases, discont)` (rules R160, R169). -/
def processEntry (env : WorkerEnv) (e : FifoEntry) (w : WorkerState) : Progress :=
  ((discontinuity env e.discont w).andThen (samples env e.phases)).andThen (spill env .seam)

end Sys2Proof.Machine
end

