-- ==== Sys2Proof/Machine/Pipeline.lean ====
section
/-! DEFINITION. The capture pipeline (rules R145, R147, R220 to R228, R236): the FIFO, the producer's step, the worker's
step and the end of a session. -/

namespace Sys2Proof.Machine

/-! ### The FIFO -/

/-- `push(e)` (rule R221). -/
def Fifo.push (qcap : Nat) (e : FifoEntry) (f : Fifo) : Fifo :=
  { f with slots := f.slots.set f.tail e, tail := (f.tail + 1) % qcap, count := f.count + 1 }

/-- The entry at HEAD (rule R222). -/
def Fifo.front (f : Fifo) : FifoEntry := f.slots.getD f.head { phases := [], discont := false }

/-- `pop()` but for the entry it returns (rule R222). -/
def Fifo.pop (qcap : Nat) (f : Fifo) : Fifo := { f with head := (f.head + 1) % qcap, count := f.count - 1 }

/-! ### The producer -/

/-- `demodulate(b)` (rule R145): one phase per (I, Q) pair; an odd trailing byte is dropped. -/
def demodulate (s : State) : List Byte → List Phase
  | i :: q :: rest => s.lut i q :: demodulate s rest
  | _ => []

/-- The last `n` elements of a list. -/
def lastN {α : Type} (n : Nat) (xs : List α) : List α := xs.drop (xs.length - n)

/-- floor(sum / length) of a byte window (rule R147). -/
def meanOf (win : List Byte) : Byte := BitVec.ofNat 8 ((win.map BitVec.toNat).sum / win.length)

/-- The bias estimator's update (rule R147). -/
def BiasUnit.update (p : Config.Params) (b : List Byte) (u : BiasUnit) : BiasUnit :=
  let win := lastN p.biasN (u.win ++ b)
  let bufs := u.bufs + 1
  { est := if bufs.toNat % p.biasK = 0 ∧ 0 < win.length then meanOf win else u.est, win := win, bufs := bufs }

/-- CNT_BUF_IN counts the buffer and the estimator takes it, before any drop decision (rules R147, R223). -/
def State.receive (b : List Byte) (s : State) : State :=
  { s with
    counters := { s.counters with bufIn := s.counters.bufIn + 1 }
    bias := s.bias.update s.params b }

/-- A buffer is dropped (rule R223): DROP_PENDING <- 1 and IRQ_STATUS.DROP <- 1. -/
def State.markDrop (s : State) : State := { s.setIrq .drop with fifo := { s.fifo with dropPending := true } }

/-- A drop because the buffer exceeds SLOT_BYTES (rule R223). -/
def State.dropOversize (s : State) : State :=
  { s with counters := { s.counters with nomem := s.counters.nomem + 1 } }.markDrop

/-- A drop because the FIFO is full (rule R223). -/
def State.dropFull (s : State) : State :=
  { s with counters := { s.counters with qdrop := s.counters.qdrop + 1 } }.markDrop

/-- The buffer's phases are enqueued with DROP_PENDING, which is cleared (rule R223). -/
def State.enqueue (b : List Byte) (s : State) : State :=
  let entry : FifoEntry := { phases := demodulate s b, discont := s.fifo.dropPending }
  { s with fifo := { s.fifo.push s.params.qcap entry with dropPending := false } }

/-- `producer_step(b, n)` (rules R223, R225, R236). -/
def State.producerStep (b : List Byte) (s : State) : State :=
  if s.pipe ≠ .running then s
  else if s.params.slotBytes < b.length then (s.receive b).dropOversize
  else if s.fifo.count = s.params.qcap then (s.receive b).dropFull
  else (s.receive b).enqueue b

/-! ### The worker -/

/-- The worker has a step (rule R226). -/
def State.workerEnabled (s : State) : Bool :=
  (s.pipe == .running || s.pipe == .stopping) && (s.fifo.shutdownFlag || decide (0 < s.fifo.count))

/-- What the worker reads. -/
def State.workerEnv (s : State) : WorkerEnv where
  params := s.params
  settings := s.settings
  tables := s.field.tables
  gens := s.gens

/-- What the worker may change. -/
def State.workerState (s : State) : WorkerState where
  framer := s.framer
  counters := s.counters
  outTrace := s.outTrace

/-- The machine with what the worker changed put back. -/
def State.withWorker (w : WorkerState) (s : State) : State :=
  { s with framer := w.framer, counters := w.counters, outTrace := w.outTrace }

/-- The machine at the end of a worker step (rules R227, R256). -/
def State.afterWorker (p : Progress) (s : State) : State :=
  match p with
  | .going w => s.withWorker w
  | .fatal c w => (s.withWorker w).raiseFatal c

/-- Framer and pipeline state that both stop() and RUN clear (rules R228, R229); PREV keeps its value. -/
def Framer.cleared (f : Framer) : Framer := { Framer.initial with prev := f.prev }

/-- The FIFO that both stop() and RUN leave (rules R228, R229): empty, the slots' contents untouched. -/
def Fifo.cleared (f : Fifo) : Fifo :=
  { slots := f.slots, head := 0, tail := 0, count := 0, shutdownFlag := false, dropPending := false }

/-- A pending continuation is counted as truncated at the end of a session (rule R228). -/
def Counters.countPending (cont : ContKind) (c : Counters) : Counters :=
  if cont = .none then c else { c with trunc := c.trunc + 1 }

/-- `stop()` (rule R228). -/
def State.stop (s : State) : State :=
  { s.setIrq .stopped with
    counters := s.counters.countPending s.framer.cont
    framer := s.framer.cleared
    fifo := s.fifo.cleared
    pipe := .idle }

/-- The worker takes the oldest entry and processes it whole (rules R222, R226, R227). -/
def State.processFront (s : State) : State :=
  { s with fifo := s.fifo.pop s.params.qcap }.afterWorker (processEntry s.workerEnv s.fifo.front s.workerState)

/-- `worker_step()` (rule R226); without an enabled step the worker waits and nothing changes. -/
def State.workerStep (s : State) : State :=
  if s.workerEnabled then (if s.fifo.shutdownFlag then s.stop else s.processFront) else s

end Sys2Proof.Machine
end

