-- ==== Sys2Proof/Machine/PipelineCommands.lean ====
section
/-! DEFINITION. The pipeline commands and NOP (rules R229 to R232). -/

namespace Sys2Proof.Machine

/-- NOP (rule R232): nothing but the completion of rule R90. -/
def execNop (s : State) : Host.Outcome State Fault Refusal := .next s.complete

/-- RUN's readiness test (rules R129, R229). -/
def State.ready (s : State) : Bool :=
  s.field.valid && s.phase.valid &&
    [Variant.short, Variant.long, Variant.uplink].all fun v => (s.gen v.slot).conformant v

/-- The session RUN starts (rule R229). -/
def State.startSession (s : State) : State :=
  { s with
    framer := s.framer.cleared
    fifo := s.fifo.cleared
    bias := { s.bias with win := [], bufs := 0 }
    pipe := .running }

/-- RUN (rule R229). -/
def execRun (s : State) : Host.Outcome State Fault Refusal :=
  if s.pipe ≠ .idle then .next (s.commandError .badState)
  else if s.ready = false then .next (s.commandError .notReady)
  else .next s.startSession.complete

/-- SHUTDOWN's request (rule R230): SHUTDOWN_FLAG <- 1 and PIPE_STATE <- STOPPING. -/
def State.requestStop (s : State) : State :=
  { s with fifo := { s.fifo with shutdownFlag := true }, pipe := .stopping }

/-- SHUTDOWN (rule R230). -/
def execShutdown (s : State) : Host.Outcome State Fault Refusal :=
  if s.pipe ≠ .running then .next (s.commandError .badState) else .next s.requestStop.complete

/-- CLEAR_STATS (rule R231): the sixteen registers of rule R40. -/
def execClearStats (s : State) : Host.Outcome State Fault Refusal :=
  .next { s with counters := Counters.zero }.complete

end Sys2Proof.Machine
end

