-- ==== Sys2Proof/Machine/Dispatch.lean ====
section
/-! DEFINITION. The execution of a command (rule R90, `execute(w)` and the completion): one arm per command, each one call
of its meaning. -/

namespace Sys2Proof.Machine

def exec (i : Instr) (s : State) : Host.Outcome State Fault Refusal :=
  match i with
  | .nop => Sys2Proof.Machine.execNop s
  | .fieldBuild poly => Sys2Proof.Machine.execFieldBuild poly s
  | .genBuild slot start stop => Sys2Proof.Machine.execGenBuild slot start stop s
  | .gfAdd a b => Sys2Proof.Machine.execGfAdd a b s
  | .gfMul a b => Sys2Proof.Machine.execGfMul a b s
  | .polyMul => Sys2Proof.Machine.execPolyMul s
  | .remainder slot => Sys2Proof.Machine.execRemainder slot s
  | .demodInit => Sys2Proof.Machine.execDemodInit s
  | .deinterleave => Sys2Proof.Machine.execDeinterleave s
  | .validate variant => Sys2Proof.Machine.execValidate variant s
  | .run => Sys2Proof.Machine.execRun s
  | .shutdown => Sys2Proof.Machine.execShutdown s
  | .clearStats => Sys2Proof.Machine.execClearStats s

end Sys2Proof.Machine
end

