-- ==== Sys2Proof/Machine/Agents.lean ====
section
/-! DEFINITION. The agents' atomic steps and their interleaving (rules R14, R90, R226, R265, R294): what each event of a
schedule does, and which agent moves where the schedule is empty. -/

namespace Sys2Proof.Machine

/-- The command error a word that is no command raises (rules R94, R95). -/
def decodeErrCode : DecodeError → ErrCode
  | .illegalOpcode => .illegalOpcode
  | .reservedNonzero => .reservedNonzero

/-- The command unit's step (rule R90): the word in CMD is decoded and executed. It has a step exactly while BUSY = 1; at
any other time nothing changes. -/
def commandStep (s : State) : Host.Outcome State Fault Refusal :=
  if s.busy then
    match decode s.cmd with
    | .ok i => exec i s
    | .error e => .next (s.commandError (decodeErrCode e))
  else .next s

/-- One event of a schedule. -/
def eventStep (e : Event) (s : State) : Host.Outcome State Fault Refusal :=
  match e with
  | .busRead addr => .next (s.busRead addr)
  | .busWrite addr v => .next (s.busWrite addr v)
  | .command => commandStep s
  | .input b => .next (s.producerStep b)
  | .worker => .next s.workerStep
  | .reset => .next s.resetInput

/-- The event that comes next: the schedule's, or, once the environment is silent, that of the block's own agent with an
enabled step, the command unit before the worker (DESIGN CHOICE, log entry 1); none where no agent has a step. -/
def State.nextEvent (s : State) : Option Event :=
  match s.schedule with
  | e :: _ => some e
  | [] => if s.busy then some .command else if s.workerEnabled then some .worker else none

/-- The schedule with its next event taken. -/
def State.takeEvent (s : State) : State := { s with schedule := s.schedule.tail }

/-- One atomic step of the machine: where no agent has a step, the block is idle and nothing changes (rules R267, R296). -/
def machineStep (s : State) : Host.Outcome State Fault Refusal :=
  match s.nextEvent with
  | some e => eventStep e s.takeEvent
  | none => .next s

end Sys2Proof.Machine
end

