-- ==== Sys2Proof/Machine/Step.lean ====
section
/-! DEFINITION. The one step of the machine, and a command word placed where the next step takes it from. -/

namespace Sys2Proof.Machine

/-- One atomic step (rule R265). -/
def step (s : State) : Host.Outcome State Fault Refusal := machineStep s

/-- `s` with the command word `w` accepted (CMD holds it and BUSY = 1, rule R90) and the command unit next to move, so that
the next step decodes and executes exactly it. `nbits` is always 32 (rule R91); bits above it are 0. -/
def State.withFetchWord (s : State) (nbits w : Nat) : State :=
  { s with cmd := BitVec.ofNat 32 (w % 2 ^ nbits), busy := true, schedule := .command :: s.schedule }

end Sys2Proof.Machine
end

