-- ==== Sys2Proof/Safety.lean ====
section
/-! DEFINITION. What counts as a safe run, in the terms the claims use: the invariants the spec states or implies for every
state of a legal configuration (rules R12, R33, R47, R49, R86, R125, R141, R184, R257, R271), and the ends of a run (rules
R256, R296, R297). -/

namespace Sys2Proof.Machine

/-- No fatal fault has been recorded (rules R256, R257). -/
abbrev State.NoFatal (s : State) : Prop := s.pipe ≠ .fault ∧ s.err.fatalCode = .none

/-- The event is a bus access of the host or a buffer of the front end (rule R296). The command unit's and the worker's steps
are the block's own, and the reset input is neither. -/
def Event.isAccessOrBuffer : Event → Bool
  | .busRead _ | .busWrite _ _ | .input _ => true
  | .command | .worker | .reset => false

/-- The end of a run (rule R296): no command executes, the pipeline is IDLE or in FAULT, and the host has no further bus access
to issue and the front end no further buffer to send (DEDUCED, log entry 25: what else is scheduled keeps no run open). -/
abbrev State.RunEnded (s : State) : Prop :=
  s.busy = false ∧ (s.pipe = .idle ∨ s.pipe = .fault) ∧ ∀ e ∈ s.schedule, e.isAccessOrBuffer = false

/-- A normal end of a run (rule R296). -/
abbrev State.NormalEnd (s : State) : Prop := s.RunEnded ∧ s.pipe = .idle

/-- The end of a faulted run (rules R256, R296). -/
abbrev State.FaultedEnd (s : State) : Prop := s.RunEnded ∧ s.pipe = .fault

/-- The state after `n` steps, where every one of them answers a next state. -/
def State.after : Nat → State → Option State
  | 0, s => some s
  | n + 1, s =>
    match step s with
    | .next t => t.after n
    | .fault _ | .refused _ => none

/-- The run from `s` ends at `t`, `n` steps on: at the first state that ends it (rule R296). -/
abbrev State.RunEndsAt (s : State) (n : Nat) (t : State) : Prop :=
  s.after n = some t ∧ t.RunEnded ∧ ∀ m, m < n → ∀ u ∈ s.after m, ¬ u.RunEnded

/-- The observation of a run (rule R296): OUT_TRACE, the register file as the host reads it while BUSY = 0, ERR and the
counters. -/
structure Observation where
  outTrace : List Record
  registers : List Word
  err : ErrReg
  counters : Counters
  deriving DecidableEq, Repr

/-- What is observed of a run that ends at `s` (rule R296). -/
def State.observation (s : State) : Observation where
  outTrace := s.outTrace
  registers := registerMap.map s.regWord
  err := s.err
  counters := s.counters

/-- The launch premise `clean_launch` (rule R297): every state element of the block holds its reset value; the schedule is
whatever the environment brings, and the draws are arbitrary. -/
abbrev State.CleanLaunch (s : State) : Prop :=
  s = { State.resetWith s.params with schedule := s.schedule, busData := s.busData, draws := s.draws, epoch := s.epoch }

/-- XRAM is in canonical form and lists no byte beyond its size, a multiple of 4 (rules R9, R45, R76). -/
structure State.MemoryInv (s : State) : Prop where
  size : s.params.xramBytes % 4 = 0
  canonical : Memory.wf s.xram = true
  bounded : ∀ c ∈ s.xram, c.1 < s.params.xramBytes

/-- A valid field is the field of an accepted polynomial word, and a valid slot holds a generator built over the field that
is there (rules R42, R43, R118, R120, R124, R125). -/
structure State.TablesInv (s : State) : Prop where
  field_built : s.field.valid = true →
    s.field.poly.getLsbD 8 = true ∧ isPermutation (buildPower s.field.poly) = true ∧
      s.field.tables = buildTables s.field.poly
  slot_needs_field : ∀ k, (s.gen k).valid = true → s.field.valid = true
  slot_built : ∀ k, (s.gen k).valid = true →
    (s.gen k).start.toNat ≤ (s.gen k).stop.toNat ∧ (s.gen k).stop.toNat ≤ 254 ∧
      (s.gen k).coeffs = genPoly s.field.tables (s.gen k).start.toNat (s.gen k).stop.toNat

/-- The framer at the end of a worker step (rule R184). -/
structure FramerInv (p : Config.Params) (f : Framer) : Prop where
  acc_bounded : f.acc.length ≤ p.accCap
  searching : f.cont = .none → f.fstate = .searching ∧ f.acc.length ≤ 35
  undetermined : f.cont = .undet → f.fstate = .awaitingContinuation ∧ f.acc.length < 5
  awaiting : ∀ v, f.cont = .pending v → f.fstate = .awaitingContinuation ∧ f.acc.length < v.bits

/-- The FIFO is a ring of QCAP slots (rules R47, R220 to R222). -/
structure FifoInv (p : Config.Params) (f : Fifo) : Prop where
  slots : f.slots.length = p.qcap
  head : f.head < p.qcap
  count : f.count ≤ p.qcap
  tail : f.tail = (f.head + f.count) % p.qcap

/-- The pipeline of a legal configuration: the framer's invariants, the FIFO ring, the shutdown flag exactly while STOPPING,
nothing pending in IDLE, a session only over ready tables, and no fatal fault (rules R9, R184, R226 to R230, R257, R271). -/
structure State.PipelineInv (s : State) : Prop where
  legal : s.params.Legal
  framer : FramerInv s.params s.framer
  fifo : FifoInv s.params s.fifo
  flag : s.fifo.shutdownFlag = true ↔ s.pipe = .stopping
  idle : s.pipe = .idle → s.fifo.count = 0 ∧ s.framer.acc = [] ∧ s.framer.cont = .none
  ready : s.pipe ≠ .idle → s.ready = true
  noFatal : s.NoFatal

/-- A phase fits PW bits (rules R12, R141). -/
abbrev PhaseInRange (pw : Nat) (x : Int) : Prop := -2 ^ (pw - 1) ≤ x ∧ x < 2 ^ (pw - 1)

/-- The values that a parameter bounds keep their bounds (rules R33, R34, R47, R49, R141). -/
structure State.RangeInv (s : State) : Prop where
  width : 1 ≤ s.params.pw
  devMin : s.settings.devMin.toNat < 2 ^ s.params.pw
  devMax : s.settings.devMax.toNat < 2 ^ s.params.pw
  prev : PhaseInRange s.params.pw s.framer.prev
  phases : ∀ e ∈ s.fifo.slots, ∀ x ∈ e.phases, PhaseInRange s.params.pw x
  entries : ∀ e ∈ s.fifo.slots, e.phases.length ≤ s.params.slotBytes / 2
  window : s.bias.win.length ≤ s.params.biasN

end Sys2Proof.Machine
end

