-- ==== Sys2Proof/Certificates/Slice0/Obligations.lean ====
section
/-! DEFINITION. The statements for the provers. The first part names what the rules' own formulas say, written from the rules
and not from the model's functions; the second part is the statements, in the order of OBLIGATIONS.json. -/

namespace Sys2Proof.Claims

open Sys2Proof.Machine

/-! ### The rules' own formulas -/

/-- The completion of rule R90 on top of a command's effect: BUSY <- 0 and IRQ_STATUS.CMD_DONE <- 1. -/
def completed (s : State) : State := { s with busy := false, irqStatus := s.irqStatus ||| 0b00001 }

/-- Everything a command error does (rule R252), with the completion of rule R90. -/
def failedWith (c : ErrCode) (s : State) : State :=
  { s with
    busy := false
    irqStatus := s.irqStatus ||| 0b00011
    err := { code := c, sticky := true, fatalCode := s.err.fatalCode } }

/-- Everything a refused bus write does (rules R90, R253): ERR.CODE, ERR.STICKY and IRQ_STATUS.ERR. -/
def refusedWrite (c : ErrCode) (s : State) : State :=
  { s with irqStatus := s.irqStatus ||| 0b00010, err := { code := c, sticky := true, fatalCode := s.err.fatalCode } }

/-- The exclusive-or of a list of bytes. -/
def xorSum (l : List Byte) : Byte := l.foldr (· ^^^ ·) 0

/-- `gf_mul` as rule R115 writes it, over the tables POWER and LOG. -/
def product (t : FieldTables) (a b : Byte) : Byte :=
  if a = 0 ∨ b = 0 then 0
  else t.power.getD (((t.log.getD a.toNat 0).toNat - 1 + ((t.log.getD b.toNat 0).toNat - 1)) % 255 + 1) 0

/-- `poly_mul` by rule R117's coefficient formula: c[k] is the sum of gf_mul(a[i], b[j]) over all i + j = k. -/
def convolve (t : FieldTables) (a b : List Byte) : List Byte :=
  (List.range (a.length + b.length - 1)).map fun k =>
    xorSum ((List.range a.length).map fun i =>
      if i ≤ k ∧ k - i < b.length then product t (a.getD i 0) (b.getD (k - i) 0) else 0)

/-- The product of the `n` factors (X + α^i), i = start .. start + n − 1, taken in ascending order (rule R118). -/
def generator (t : FieldTables) (start : Nat) : Nat → List Byte
  | 0 => [0x01]
  | n + 1 => convolve t (generator t start n) [0x01, t.power.getD ((start + n) % 255 + 1) 0]

/-- One pass of the outer loop of rule R119, at index `i` of the running remainder. -/
def divisionPass (t : FieldTables) (g r : List Byte) (i : Nat) : List Byte :=
  if r.getD i 0 = 0 then r
  else r.mapIdx fun p c =>
    if i < p ∧ p ≤ i + (g.length - 1) then c ^^^ product t (g.getD (p - i) 0) (r.getD i 0) else c

/-- `remainder(m, g)` as the two loops of rule R119. -/
def longDivision (t : FieldTables) (m g : List Byte) : List Byte :=
  ((List.range m.length).foldl (divisionPass t g) (m ++ List.replicate (g.length - 1) 0)).drop m.length

/-- `P` is the power table of rule R111 for the polynomial word. -/
def IsPowerTable (poly : BitVec 16) (P : List Byte) : Prop :=
  P.length = 256 ∧ P.getD 0 0 = 0 ∧ P.getD 1 0 = 1 ∧
    ∀ k, 2 ≤ k → k < 256 →
      P.getD k 0 = if (P.getD (k - 1) 0).getLsbD 7 then (P.getD (k - 1) 0 <<< 1) ^^^ poly.setWidth 8
        else P.getD (k - 1) 0 <<< 1

/-- Every byte value 0..255 appears exactly once (rule R112). -/
def EveryByteOnce (P : List Byte) : Prop := ∀ v : Byte, P.count v = 1

/-- `L` is the log table of rule R113: L[P[s]] = s. -/
def IsLogTable (P L : List Byte) : Prop := L.length = 256 ∧ ∀ k, k < 256 → L.getD (P.getD k 0).toNat 0 = BitVec.ofNat 8 k

/-- `t` is the pair of tables of an accepted polynomial word (rules R111 to R113, R120). -/
def BuiltField (poly : BitVec 16) (t : FieldTables) : Prop :=
  IsPowerTable poly t.power ∧ EveryByteOnce t.power ∧ IsLogTable t.power t.log

/-- The bytes XRAM[addr .. addr + n) (rule R96). -/
def bytesAt (s : State) (addr n : Nat) : List Byte := (List.range n).map fun k => s.xramByte (addr + k)

/-- Range `n` bytes from `addr` is in bounds (rule R97). -/
def InBounds (s : State) (addr n : Nat) : Prop := addr + n ≤ s.params.xramBytes

/-- `x` is what XRAM holds once `bytes` are written from `dest` on: every other byte reads as in `s` (rules R96, R97). -/
def WritesExactly (s : State) (x : List Host.Cell) (dest : Nat) (bytes : List Byte) : Prop :=
  ∀ a, State.xramByte { s with xram := x } a =
    if dest ≤ a ∧ a < dest + bytes.length then bytes.getD (a - dest) 0 else s.xramByte a

/-- The variant code of rule R16, TAG of rule R103. -/
def variantNumber : Variant → Nat
  | .short => 0
  | .long => 1
  | .uplink => 2

/-- The generator slot that serves a variant (rule R43). -/
def variantSlot : Variant → Fin Config.ngen
  | .short => 0
  | .long => 1
  | .uplink => 2

/-- N(v), the bits after the sync (rule R16). -/
def packetBits : Variant → Nat
  | .short => 240
  | .long => 384
  | .uplink => 4416

/-- The error codes of rule R250. -/
def errNumber : ErrCode → Nat
  | .none => 0
  | .illegalOpcode => 1
  | .reservedNonzero => 2
  | .busy => 3
  | .invalidPolyDegree => 4
  | .notPrimitive => 5
  | .invalidPowerRange => 6
  | .noField => 7
  | .noGen => 8
  | .badLength => 9
  | .xramRange => 10
  | .locked => 11
  | .notReady => 12
  | .badVariant => 13
  | .badState => 14
  | .writeWhileBusy => 15

/-- The fatal codes of rule R257. -/
def fatalNumber : FatalCode → Nat
  | .none => 0
  | .contTooLong => 1
  | .accOverflow => 2

/-- The numbers of PIPE_STATE (rule R23). -/
def pipeNumber : PipeState → Nat
  | .idle => 0
  | .running => 1
  | .stopping => 2
  | .fault => 3

/-- The numbers of FRAMER_STATE (rule R23). -/
def framerNumber : FramerState → Nat
  | .searching => 0
  | .awaitingContinuation => 1
  | .dispatching => 2

/-- The numbers of CONT_KIND (rule R38). -/
def contNumber : ContKind → Nat
  | .none => 0
  | .undet => 1
  | .pending .short => 2
  | .pending .long => 3
  | .pending .uplink => 4

/-- B(v) of rule R16. -/
def totalBytes : Variant → Nat
  | .short => 30
  | .long => 48
  | .uplink => 552

/-- The data bytes of one codeword (rule R16). -/
def dataBytes : Variant → Nat
  | .short => 18
  | .long => 34
  | .uplink => 72

/-- PC(v), the parity bytes of one codeword (rule R16). -/
def parityBytes : Variant → Nat
  | .short => 12
  | .long => 14
  | .uplink => 20

/-- The failing codewords of a packet (rules R204, R205, R209). -/
def failures (t : FieldTables) (g : List Byte) (v : Variant) (packet : List Byte) : Nat :=
  match v with
  | .uplink =>
    ((List.range 6).filter fun c =>
      longDivision t ((List.range 72).map fun j => packet.getD (6 * j + c) 0) g ≠
        (List.range 20).map fun j => packet.getD (6 * (72 + j) + c) 0).length
  | v => if longDivision t (packet.take (dataBytes v)) g = (packet.drop (dataBytes v)).take (parityBytes v) then 0 else 1

/-- Slots 0, 1 and 2 are conformant (rule R129). -/
def Conformant (s : State) : Prop :=
  ((s.gen 0).valid = true ∧ (s.gen 0).coeffs.length = 13) ∧ ((s.gen 1).valid = true ∧ (s.gen 1).coeffs.length = 15) ∧
    ((s.gen 2).valid = true ∧ (s.gen 2).coeffs.length = 21)

/-- The entries of the FIFO, oldest first (rule R47). -/
def queue (qcap : Nat) (f : Fifo) : List FifoEntry :=
  (List.range f.count).map fun k => f.slots.getD ((f.head + k) % qcap) { phases := [], discont := false }

/-- The variant of an Active packet whose first 5 bits are known (rule R172). -/
def activeKind (bits : List Bool) : Variant := if bits.take 5 = List.replicate 5 false then .short else .long

/-- A packet abandoned as truncated (rules R171, R176). -/
def truncated (w : WorkerState) : WorkerState :=
  { w with
    framer := { w.framer with acc := [], cont := .none, fstate := .searching }
    counters := { w.counters with trunc := w.counters.trunc + 1 } }

/-- The framer with ACC, CONT_KIND and FRAMER_STATE replaced, all else of the worker's state as it was. -/
def framed (acc : List Bool) (cont : ContKind) (f : FramerState) (w : WorkerState) : WorkerState :=
  { w with framer := { w.framer with acc := acc, cont := cont, fstate := f } }

/-- `shortfall(kind, q, v)` (rule R176) where ACC[q .. L) is `rest`. -/
def shortfallOutcome (cap : Nat) (kind : SpillKind) (rest : List Bool) (cont : ContKind) (want : Nat) (w : WorkerState) :
    Progress :=
  match kind with
  | .seam => if cap < want then .fatal .contTooLong w else .going (framed rest cont .awaitingContinuation w)
  | .brk => .going (truncated w)

/-- The first 36 bits match the pattern (rule R80): the k-th received bit is S[35 - k]. -/
def Matches (S : SyncPattern) (bits : List Bool) : Prop := ∀ k, k < 36 → bits[k]? = some (S.getLsbD (35 - k))

/-- Bits appended one by one, each by rule R166, and a SEAM spill after the last (rule R169). -/
def feed (env : WorkerEnv) (bits : List Bool) (w : WorkerState) : Progress :=
  spill env .seam (bits.foldl (fun w b => w.append b) w)

/-- The deltas that a sequence of phases forms under rule R161, where PREV, PREV_VALID and PAIR_PHASE are as given. -/
def formedDeltas (p : Config.Params) : Phase → Bool → Bool → List Phase → List Phase
  | _, _, _, [] => []
  | prev, known, pair, φ :: rest =>
    (if (if p.pairStride = 1 then known else pair) then [Int.bmod (φ - prev) (2 ^ p.pw)] else []) ++
      formedDeltas p φ true (if p.pairStride = 1 then pair else !pair) rest

/-- The reserved-zero masks of rule R92 by the opcodes of rule R93. -/
def opcodeMasks : List (Byte × Word) :=
  [(0x00, 0x00FFFFFF), (0x01, 0x00FF0000), (0x02, 0x000000FC), (0x03, 0x00FF0000), (0x04, 0x00FF0000),
    (0x05, 0x00FFFFFF), (0x06, 0x00FFFFFC), (0x08, 0x00FFFFFF), (0x0A, 0x00FFFFFF), (0x0B, 0x00FFFFFC)] ++
  [(0x10, 0x00FFFFFF), (0x11, 0x00FFFFFF), (0x12, 0x00FFFFFF)]

/-- The seven counters of rule R212, in its order. -/
def dispatchCounters (c : Counters) : List Word :=
  [c.raw, c.shortOk, c.shortFail, c.longOk, c.longFail, c.upOk, c.upFail]

/-- The registers that are read whole, by bus address, with the word each holds (rules R21, R22, R26 to R37, R40, R41, R72). -/
def registerWords (s : State) : List (BusAddr × Word) :=
  [(0x00, 0x52554154), (0x04, 0x00010000), (0x0C, BitVec.ofNat 32 s.params.accCap),
    (0x10, BitVec.ofNat 32 s.params.slotBytes), (0x14, BitVec.ofNat 32 s.params.xramBytes),
    (0x18, BitVec.ofNat 32 s.params.biasN), (0x1C, BitVec.ofNat 32 s.params.biasK), (0x20, s.cmd),
    (0x30, s.argA), (0x34, s.argB), (0x38, s.argD.setWidth 32),
    (0x3C, (if s.settings.rawMode then 1 else 0) + (if s.settings.reportFail then 2 else 0)),
    (0x40, s.irqStatus.setWidth 32), (0x44, s.irqEn.setWidth 32),
    (0x48, if s.field.valid then s.field.poly.setWidth 32 else 0), (0x4C, s.settings.center.setWidth 32),
    (0x50, s.settings.devMin), (0x54, s.settings.devMax),
    (0x58, s.settings.syncA.extractLsb' 0 32), (0x5C, (s.settings.syncA.extractLsb' 32 4).setWidth 32),
    (0x60, s.settings.syncU.extractLsb' 0 32), (0x64, (s.settings.syncU.extractLsb' 32 4).setWidth 32),
    (0x68, s.bias.est.setWidth 32)] ++
  [(0x80, s.counters.bufIn), (0x84, s.counters.samples), (0x88, s.counters.validBits), (0x8C, s.counters.maxRun),
    (0x90, s.counters.syncA), (0x94, s.counters.syncU), (0x98, s.counters.qdrop), (0x9C, s.counters.nomem),
    (0xA0, s.counters.shortOk), (0xA4, s.counters.shortFail), (0xA8, s.counters.longOk), (0xAC, s.counters.longFail),
    (0xB0, s.counters.upOk), (0xB4, s.counters.upFail), (0xB8, s.counters.trunc), (0xBC, s.counters.raw),
    (0xC0, s.framer.runLen)]

/-- The registers of rule R281 with the words they read after reset in the reference configuration, by bus address. -/
def resetTable : List (BusAddr × Word) :=
  [(0x00, 0x52554154), (0x04, 0x00010000), (0x08, 0x00041028), (0x0C, 8192), (0x10, 262144), (0x14, 2048),
    (0x18, 4096), (0x1C, 16), (0x20, 0), (0x24, 0), (0x28, 0), (0x2C, 0), (0x30, 0), (0x34, 0), (0x38, 0), (0x3C, 0),
    (0x40, 0), (0x44, 0), (0x48, 0), (0x4C, 127), (0x50, 4719), (0x54, 15729), (0x58, 0xACDDA4E2), (0x5C, 0xE),
    (0x60, 0x53225B1D), (0x64, 0x1), (0x68, 0), (0x6C, 0)] ++
  [(0x70, 0), (0x74, 0), (0x78, 0), (0x7C, 0), (0x80, 0), (0x84, 0), (0x88, 0), (0x8C, 0), (0x90, 0), (0x94, 0),
    (0x98, 0), (0x9C, 0), (0xA0, 0), (0xA4, 0), (0xA8, 0), (0xAC, 0), (0xB0, 0), (0xB4, 0), (0xB8, 0), (0xBC, 0),
    (0xC0, 0)]

end Sys2Proof.Claims

open Sys2Proof Sys2Proof.Machine Sys2Proof.Claims

/-! ### Command words (`30_encoding.md`) -/

/-- Decoding the word the encoder writes for a command gives the command back, with every operand value the formats of rule
R92 admit (the reserved VARIANT = 3 included). -/
def Obligations.DecodeEncodeRoundTrip : Prop := ∀ i : Instr, decode (encode i) = .ok i

/-- A word that decodes to a command is the word the encoder writes for it: no two words mean the same command. -/
def Obligations.EncodeDecodeRoundTrip : Prop := ∀ (w : Word) (i : Instr), decode w = .ok i → encode i = w

/-- Rules R94 and R95, in the order of rule R251: in the command unit's step, a word whose opcode is in none of the 13 rows
raises ILLEGAL_OPCODE, and a word of a listed opcode with a reserved bit set raises RESERVED_NONZERO; neither has another
effect than the command error of rule R252. -/
def Obligations.UndecodableWordRaisesItsError : Prop :=
  ∀ s : State, s.busy = true →
    ((∀ row ∈ opcodeMasks, s.cmd.extractLsb' 24 8 ≠ row.1) →
      eventStep .command s = .next (failedWith .illegalOpcode s)) ∧
    (∀ row ∈ opcodeMasks, s.cmd.extractLsb' 24 8 = row.1 → s.cmd &&& row.2 ≠ 0 →
      eventStep .command s = .next (failedWith .reservedNonzero s))

/-- Words the spec writes out (the examples of the command rules) decode to the commands they stand for. -/
def Obligations.SpecWordsDecodeToTheirCommands : Prop :=
  decode 0x01000187 = .ok (.fieldBuild 0x187) ∧ decode 0x02788501 = .ok (.genBuild 1 120 133) ∧
    decode 0x030053CA = .ok (.gfAdd 0x53 0xCA) ∧ decode 0x040053CA = .ok (.gfMul 0x53 0xCA) ∧
    decode 0x06000003 = .ok (.remainder 3) ∧ decode 0x0B000002 = .ok (.validate 2) ∧ decode 0x10000000 = .ok .run ∧
    decode 0x08000000 = .ok .demodInit

/-! ### The step -/

/-- A step whose next event is the command unit's, while BUSY = 1, executes the command the word in CMD decodes to, on the
state with that event taken from the schedule. The schedule is the model's own (log entry 1). -/
def Obligations.StepRunsDecodedCommand : Prop :=
  ∀ (s : State) (i : Instr), s.busy = true → (s.schedule = [] ∨ s.schedule.head? = some .command) → decode s.cmd = .ok i →
    step s = exec i { s with schedule := s.schedule.tail }

/-- Every step answers a next state, and the build parameters stay as they are. That no step stops is the model's deduction from
the rules that give every access, word and event an effect (log entry 12), and that the parameters are a field which no step
changes is the model's choice (log entry 9). -/
def Obligations.EveryStepAnswersAndKeepsParameters : Prop :=
  ∀ s : State, ∃ t, step s = .next t ∧ t.params = s.params

/-- Rule R90: a write of a command word while BUSY = 1 is discarded with ERR = BUSY and changes nothing else; while BUSY = 0 it
is accepted; the command unit's step, on a command or on a word that is none, ends with BUSY = 0 and CMD_DONE set. -/
def Obligations.CommandIssueAndCompletion : Prop :=
  (∀ (s : State) (w : Word), s.busy = true → eventStep (.busWrite 0x20 w) s = .next (refusedWrite .busy s)) ∧
  (∀ (s : State) (w : Word), s.busy = false → eventStep (.busWrite 0x20 w) s = .next { s with cmd := w, busy := true }) ∧
  (∀ (i : Instr) (s : State), ∃ t, exec i s = .next t ∧ t.busy = false ∧ t.irqStatus.getLsbD 0 = true ∧ t.cmd = s.cmd) ∧
  (∀ s : State, s.busy = true →
    ∃ t, eventStep .command s = .next t ∧ t.busy = false ∧ t.irqStatus.getLsbD 0 = true ∧ t.cmd = s.cmd)

/-! ### The thirteen commands -/

/-- NOP (rule R232) completes in every state and changes BUSY and CMD_DONE only. -/
def Obligations.NopOnlyCompletes : Prop :=
  decode 0x00000000 = .ok .nop ∧ ∀ s : State, exec .nop s = .next (completed s)

/-- FIELD_BUILD (rules R111 to R113, R120): in IDLE, with bit 8 set and a power table in which every byte value stands exactly
once, the tables are committed, POLY takes the word, FIELD_VALID becomes 1 and every generator slot is invalid (its contents
are then unobservable, log entry 7); otherwise the error of the first failing check, and nothing else. -/
def Obligations.FieldBuildCommitsOrRefuses : Prop :=
  ∀ (poly : BitVec 16) (s : State),
    decode (0x01000000 ||| poly.setWidth 32) = .ok (.fieldBuild poly) ∧
    (s.pipe ≠ .idle → exec (.fieldBuild poly) s = .next (failedWith .locked s)) ∧
    (s.pipe = .idle → poly.getLsbD 8 = false → exec (.fieldBuild poly) s = .next (failedWith .invalidPolyDegree s)) ∧
    (∀ P, s.pipe = .idle → poly.getLsbD 8 = true → IsPowerTable poly P → ¬ EveryByteOnce P →
      exec (.fieldBuild poly) s = .next (failedWith .notPrimitive s)) ∧
    (∀ P L, s.pipe = .idle → poly.getLsbD 8 = true → IsPowerTable poly P → EveryByteOnce P → IsLogTable P L →
      ∃ gens, (∀ k, (gens.get k).valid = false ∧ (gens.get k).infoWord = 0) ∧
        exec (.fieldBuild poly) s =
          .next (completed
            { s with field := { valid := true, poly := poly, tables := { power := P, log := L } }, gens := gens }))

/-- GF_ADD (rules R114, R121): RESULT is the exclusive-or, in every state. -/
def Obligations.GfAddWritesXor : Prop :=
  ∀ (a b : Byte) (s : State),
    decode (0x03000000 ||| a.setWidth 32 <<< 8 ||| b.setWidth 32) = .ok (.gfAdd a b) ∧
    exec (.gfAdd a b) s = .next (completed { s with result := (a ^^^ b).setWidth 32 })

/-- GF_MUL (rules R115, R122): RESULT is the product by the log and power tables; NO_FIELD without a field. -/
def Obligations.GfMulWritesProduct : Prop :=
  ∀ (a b : Byte) (s : State),
    decode (0x04000000 ||| a.setWidth 32 <<< 8 ||| b.setWidth 32) = .ok (.gfMul a b) ∧
    (s.field.valid = false → exec (.gfMul a b) s = .next (failedWith .noField s)) ∧
    (s.field.valid = true →
      exec (.gfMul a b) s = .next (completed { s with result := (product s.field.tables a b).setWidth 32 }))

/-- POLY_MUL (rules R117, R123): the product of the two polynomials is written at ARG_D, its length to RESULT, and every other
byte of XRAM reads as before, sources and destination overlapping or not; the errors in check order. -/
def Obligations.PolyMulWritesConvolution : Prop :=
  ∀ s : State, Memory.wf s.xram = true →
    decode 0x05000000 = .ok .polyMul ∧
    (s.field.valid = false → exec .polyMul s = .next (failedWith .noField s)) ∧
    (s.field.valid = true → (descLen s.argA = 0 ∨ descLen s.argB = 0) → exec .polyMul s = .next (failedWith .badLength s)) ∧
    (s.field.valid = true → 0 < descLen s.argA → 0 < descLen s.argB →
      ¬ (InBounds s (descAddr s.argA) (descLen s.argA) ∧ InBounds s (descAddr s.argB) (descLen s.argB) ∧
        InBounds s s.destAddr (descLen s.argA + descLen s.argB - 1)) →
      exec .polyMul s = .next (failedWith .xramRange s)) ∧
    (s.field.valid = true → 0 < descLen s.argA → 0 < descLen s.argB →
      InBounds s (descAddr s.argA) (descLen s.argA) → InBounds s (descAddr s.argB) (descLen s.argB) →
      InBounds s s.destAddr (descLen s.argA + descLen s.argB - 1) →
      ∃ x, exec .polyMul s =
          .next (completed { s with xram := x, result := BitVec.ofNat 32 (descLen s.argA + descLen s.argB - 1) }) ∧
        WritesExactly s x s.destAddr
          (convolve s.field.tables (bytesAt s (descAddr s.argA) (descLen s.argA))
            (bytesAt s (descAddr s.argB) (descLen s.argB))))

/-- GEN_BUILD (rules R118, R124): in IDLE over a valid field, with a legal power range, the slot takes the generator and its
range, RESULT its length, and the other slots stay; the errors in check order. -/
def Obligations.GenBuildWritesGenerator : Prop :=
  ∀ (slot : BitVec 2) (start stop : Byte) (s : State),
    decode (0x02000000 ||| start.setWidth 32 <<< 16 ||| stop.setWidth 32 <<< 8 ||| slot.setWidth 32) =
      .ok (.genBuild slot start stop) ∧
    (s.pipe ≠ .idle → exec (.genBuild slot start stop) s = .next (failedWith .locked s)) ∧
    (s.pipe = .idle → s.field.valid = false → exec (.genBuild slot start stop) s = .next (failedWith .noField s)) ∧
    (s.pipe = .idle → s.field.valid = true → (start = 255 ∨ stop < start ∨ stop = 255) →
      exec (.genBuild slot start stop) s = .next (failedWith .invalidPowerRange s)) ∧
    (s.pipe = .idle → s.field.valid = true → start ≤ stop → stop < 255 →
      ∃ gens, (∀ k, gens.get k = if k.val = slot.toNat then
          { valid := true, start := start, stop := stop,
            coeffs := generator s.field.tables start.toNat (stop.toNat - start.toNat + 1) }
          else s.gen k) ∧
        exec (.genBuild slot start stop) s =
          .next (completed { s with gens := gens, result := BitVec.ofNat 32 (stop.toNat - start.toNat + 2) }))

/-- REMAINDER (rules R119, R125): the remainder of the message at ARG_A is written at ARG_D, its length to RESULT, and every
other byte of XRAM reads as before; the errors in check order. -/
def Obligations.RemainderWritesSyndrome : Prop :=
  ∀ (slot : BitVec 2) (s : State), Memory.wf s.xram = true →
    decode (0x06000000 ||| slot.setWidth 32) = .ok (.remainder slot) ∧ (slotIndex slot).val = slot.toNat ∧
    (s.field.valid = false → exec (.remainder slot) s = .next (failedWith .noField s)) ∧
    (s.field.valid = true → (s.gen (slotIndex slot)).valid = false →
      exec (.remainder slot) s = .next (failedWith .noGen s)) ∧
    (s.field.valid = true → (s.gen (slotIndex slot)).valid = true →
      ¬ (InBounds s (descAddr s.argA) (descLen s.argA) ∧
        InBounds s s.destAddr ((s.gen (slotIndex slot)).coeffs.length - 1)) →
      exec (.remainder slot) s = .next (failedWith .xramRange s)) ∧
    (s.field.valid = true → (s.gen (slotIndex slot)).valid = true →
      InBounds s (descAddr s.argA) (descLen s.argA) → InBounds s s.destAddr ((s.gen (slotIndex slot)).coeffs.length - 1) →
      ∃ x, exec (.remainder slot) s =
          .next (completed
            { s with xram := x, result := BitVec.ofNat 32 ((s.gen (slotIndex slot)).coeffs.length - 1) }) ∧
        WritesExactly s x s.destAddr
          (longDivision s.field.tables (bytesAt s (descAddr s.argA) (descLen s.argA)) (s.gen (slotIndex slot)).coeffs))

/-- DEMOD_INIT (rule R144): in IDLE the table becomes the one for CENTER and LUT_VALID becomes 1; outside IDLE, LOCKED. A write
to CENTER leaves the table as it is. -/
def Obligations.DemodInitBuildsTable : Prop :=
  ∀ s : State,
    decode 0x08000000 = .ok .demodInit ∧
    (s.pipe ≠ .idle → exec .demodInit s = .next (failedWith .locked s)) ∧
    (s.pipe = .idle →
      exec .demodInit s = .next (completed { s with phase := { valid := true, builtFor := s.settings.center } }) ∧
      ∀ (t : State) (i q : Byte), exec .demodInit s = .next t → t.lut i q = lutEntry s.params.pw s.settings.center i q) ∧
    (∀ (v : Word) (t : State) (i q : Byte), eventStep (.busWrite 0x4C v) s = .next t → t.lut i q = s.lut i q)

/-- DEINTERLEAVE (rules R202, R208): byte 92c + j of the destination takes byte 6j + c of the source as it was, RESULT is 552, and
every other byte of XRAM reads as before; the errors in check order. -/
def Obligations.DeinterleaveMovesBytes : Prop :=
  ∀ s : State, Memory.wf s.xram = true →
    decode 0x0A000000 = .ok .deinterleave ∧
    (descLen s.argA ≠ 552 → exec .deinterleave s = .next (failedWith .badLength s)) ∧
    (descLen s.argA = 552 → ¬ (InBounds s (descAddr s.argA) 552 ∧ InBounds s s.destAddr 552) →
      exec .deinterleave s = .next (failedWith .xramRange s)) ∧
    (descLen s.argA = 552 → InBounds s (descAddr s.argA) 552 → InBounds s s.destAddr 552 →
      ∃ x, exec .deinterleave s = .next (completed { s with xram := x, result := 552 }) ∧
        (∀ c j, c < 6 → j < 92 →
          State.xramByte { s with xram := x } (s.destAddr + 92 * c + j) = s.xramByte (descAddr s.argA + (6 * j + c))) ∧
        (∀ a, (a < s.destAddr ∨ s.destAddr + 552 ≤ a) → State.xramByte { s with xram := x } a = s.xramByte a))

/-- VALIDATE (rule R209): RESULT holds OK in bit 0 and the count of failing codewords in bits [10:8]; nothing else is written;
the errors in check order. -/
def Obligations.ValidateCountsFailingCodewords : Prop :=
  ∀ s : State,
    (∀ variant : BitVec 2, decode (0x0B000000 ||| variant.setWidth 32) = .ok (.validate variant)) ∧
    exec (.validate 3) s = .next (failedWith .badVariant s) ∧
    ∀ v : Variant,
      (s.field.valid = false → exec (.validate (BitVec.ofNat 2 (variantNumber v))) s = .next (failedWith .noField s)) ∧
      (s.field.valid = true → (s.gen (variantSlot v)).valid = false →
        exec (.validate (BitVec.ofNat 2 (variantNumber v))) s = .next (failedWith .noGen s)) ∧
      (s.field.valid = true → (s.gen (variantSlot v)).valid = true →
        (s.gen (variantSlot v)).coeffs.length ≠ parityBytes v + 1 →
        exec (.validate (BitVec.ofNat 2 (variantNumber v))) s = .next (failedWith .notReady s)) ∧
      (s.field.valid = true → (s.gen (variantSlot v)).valid = true →
        (s.gen (variantSlot v)).coeffs.length = parityBytes v + 1 →
        descLen s.argA ≠ totalBytes v →
        exec (.validate (BitVec.ofNat 2 (variantNumber v))) s = .next (failedWith .badLength s)) ∧
      (s.field.valid = true → (s.gen (variantSlot v)).valid = true →
        (s.gen (variantSlot v)).coeffs.length = parityBytes v + 1 →
        descLen s.argA = totalBytes v → ¬ InBounds s (descAddr s.argA) (totalBytes v) →
        exec (.validate (BitVec.ofNat 2 (variantNumber v))) s = .next (failedWith .xramRange s)) ∧
      (s.field.valid = true → (s.gen (variantSlot v)).valid = true →
        (s.gen (variantSlot v)).coeffs.length = parityBytes v + 1 →
        descLen s.argA = totalBytes v → InBounds s (descAddr s.argA) (totalBytes v) →
        ∃ f, f = failures s.field.tables (s.gen (variantSlot v)).coeffs v (bytesAt s (descAddr s.argA) (totalBytes v)) ∧
          f ≤ 6 ∧
          exec (.validate (BitVec.ofNat 2 (variantNumber v))) s =
            .next (completed { s with result := BitVec.ofNat 32 (256 * f + if f = 0 then 1 else 0) }))

/-- RUN (rules R129, R229): from IDLE, with the field, the table and slots 0 to 2 ready, the session starts with an empty
framer, FIFO and estimator window; the counters, RESULT and BIAS_EST stay; the errors in check order. -/
def Obligations.RunStartsSession : Prop :=
  ∀ s : State,
    decode 0x10000000 = .ok .run ∧
    (s.pipe ≠ .idle → exec .run s = .next (failedWith .badState s)) ∧
    (s.pipe = .idle → ¬ (s.field.valid = true ∧ s.phase.valid = true ∧ Conformant s) →
      exec .run s = .next (failedWith .notReady s)) ∧
    (s.pipe = .idle → s.field.valid = true → s.phase.valid = true → Conformant s →
      exec .run s = .next (completed
        { s with
          framer := { acc := [], cont := .none, fstate := .searching, runLen := 0, prev := s.framer.prev,
                      prevValid := false, pairPhase := false }
          fifo := { slots := s.fifo.slots, head := 0, tail := 0, count := 0, shutdownFlag := false, dropPending := false }
          bias := { est := s.bias.est, win := [], bufs := 0 }
          pipe := .running }))

/-- SHUTDOWN (rule R230): from RUNNING, SHUTDOWN_FLAG is set and PIPE_STATE becomes STOPPING, from then on the producer discards
input, and the worker's next step ends the session with IRQ_STATUS.STOPPED; otherwise BAD_STATE. -/
def Obligations.ShutdownRequestsStop : Prop :=
  ∀ s : State,
    decode 0x11000000 = .ok .shutdown ∧
    (s.pipe ≠ .running → exec .shutdown s = .next (failedWith .badState s)) ∧
    (s.pipe = .running →
      exec .shutdown s = .next (completed { s with fifo := { s.fifo with shutdownFlag := true }, pipe := .stopping })) ∧
    (s.pipe = .running → ∀ t, exec .shutdown s = .next t →
      (∀ b, eventStep (.input b) t = .next t) ∧
      ∃ u, eventStep .worker t = .next u ∧ u.pipe = .idle ∧ u.irqStatus.getLsbD 3 = true)

/-- CLEAR_STATS (rule R231): the sixteen counters become 0 in every state, and nothing else changes. -/
def Obligations.ClearStatsZeroesCounters : Prop :=
  ∀ s : State,
    decode 0x12000000 = .ok .clearStats ∧
    exec .clearStats s = .next (completed
      { s with
        counters := { bufIn := 0, samples := 0, validBits := 0, maxRun := 0, syncA := 0, syncU := 0, qdrop := 0, nomem := 0,
                      shortOk := 0, shortFail := 0, longOk := 0, longFail := 0, upOk := 0, upFail := 0, trunc := 0,
                      raw := 0 } })

/-! ### The Field Engine's functions (`40_field_engine.md`) -/

/-- Rule R113 for the tables of every accepted polynomial word, with the consequences that the spec marks as its own inference
("Consequences [derived: from rules R111 and R112]"): the log table inverts the power table, and is a bijection of the 255
nonzero elements onto 1..255. -/
def Obligations.LogTableInvertsPowerTable : Prop :=
  ∀ poly : BitVec 16, isPermutation (buildPower poly) = true →
    BuiltField poly (buildTables poly) ∧
    (buildTables poly).logAt 0 = 0 ∧ (buildTables poly).logAt 1 = 1 ∧
    (∀ e : Byte, e ≠ 0 → 1 ≤ (buildTables poly).logAt e ∧ (buildTables poly).logAt e ≤ 255 ∧
      (buildTables poly).powerAt ((buildTables poly).logAt e) = e) ∧
    (∀ k, 1 ≤ k → k ≤ 255 → (buildTables poly).logAt ((buildTables poly).powerAt k) = k)

/-- The field laws of rule R126, for every field FIELD_BUILD can build. The last two, associativity and the inverse, are the
ones the spec takes "from general knowledge, not in source". -/
def Obligations.FieldLawsHold : Prop :=
  ∀ (poly : BitVec 16) (t : FieldTables), BuiltField poly t →
    (∀ a b, gfMul t a b = gfMul t b a) ∧
    (∀ a b c, gfMul t a (gfAdd b c) = gfAdd (gfMul t a b) (gfMul t a c)) ∧
    (∀ a, gfMul t 0x01 a = a ∧ gfMul t a 0x01 = a) ∧
    (∀ a, gfMul t a 0 = 0) ∧
    (∀ a b c, gfMul t (gfMul t a b) c = gfMul t a (gfMul t b c)) ∧
    (∀ a, a ≠ 0 → ∀ b, gfMul t a b = 1 ↔ b = t.powerAt ((255 - (t.logAt a - 1)) % 255 + 1))

/-- Rule R117: the model's recursion on the first polynomial is the full convolution, and its length is LA + LB − 1. -/
def Obligations.PolyMulIsConvolution : Prop :=
  ∀ (t : FieldTables) (a b : List Byte), a ≠ [] → b ≠ [] →
    polyMul t a b = convolve t a b ∧ (polyMul t a b).length = a.length + b.length - 1

/-- Rule R118: the generator has length end − start + 2, and, as the spec infers ("Facts [derived: from rules R117 and R115]"),
has leading coefficient 1 and does not depend on the order of its factors. -/
def Obligations.GeneratorIsOrderFreeAndMonic : Prop :=
  ∀ (poly : BitVec 16) (t : FieldTables) (start stop : Nat), BuiltField poly t → start ≤ stop → stop ≤ 254 →
    (genPoly t start stop).length = stop - start + 2 ∧ (genPoly t start stop).head? = some 0x01 ∧
    ∀ order : List Nat, order.Perm (List.range' start (stop - start + 1)) →
      order.foldl (fun g i => polyMul t g [0x01, alphaPow t i]) [0x01] = genPoly t start stop

/-- Rule R119: the remainder is the one the rule's two loops compute, and it is the remainder of the division. For every
nonempty message m and every generator g with leading coefficient 1 there is a quotient q with
m · X^n = q · g + remainder(m, g). -/
def Obligations.RemainderIsRemainderOfDivision : Prop :=
  (∀ (t : FieldTables) (m g : List Byte), 2 ≤ g.length → remainder t m g = longDivision t m g) ∧
  ∀ (poly : BitVec 16) (t : FieldTables) (m g : List Byte), BuiltField poly t → m ≠ [] → 2 ≤ g.length →
    g.head? = some 0x01 →
    (remainder t m g).length = g.length - 1 ∧
    ∃ q : List Byte, q.length = m.length ∧
      m ++ List.replicate (g.length - 1) 0 =
        List.zipWith (· ^^^ ·) (convolve t q g) (List.replicate m.length 0 ++ remainder t m g)

/-- The remainder laws, for every generator gen_poly can produce. They are the spec's own inference ("Remainder laws, for every
generator g produced by rule R118 [derived: from rule R119 and R118 …]", `40_field_engine.md` section 3). -/
def Obligations.RemainderLawsHold : Prop :=
  ∀ (poly : BitVec 16) (t : FieldTables) (start stop : Nat), BuiltField poly t → start ≤ stop → stop ≤ 254 →
    (∀ m, (remainder t m (genPoly t start stop)).length = (genPoly t start stop).length - 1) ∧
    (∀ m₁ m₂, m₁.length = m₂.length →
      remainder t (List.zipWith (· ^^^ ·) m₁ m₂) (genPoly t start stop) =
        List.zipWith (· ^^^ ·) (remainder t m₁ (genPoly t start stop)) (remainder t m₂ (genPoly t start stop))) ∧
    (∀ m, remainder t (0 :: m) (genPoly t start stop) = remainder t m (genPoly t start stop)) ∧
    (∀ m, remainder t (m ++ remainder t m (genPoly t start stop)) (genPoly t start stop) =
      List.replicate ((genPoly t start stop).length - 1) 0)

/-! ### The Phase Demodulator (`41_phase_demodulator.md`) -/

/-- Rule R142, over the reals: a table entry is the nearest integer to atan2(q − C, i − C) · 2^(PW−1) / π, reduced to PW bits as
two's complement, and no entry is a tie (log entry 5). `Complex.arg` is the angle in (−π, π], 0 for the zero vector. -/
def Obligations.LutEntryIsNearestAngle : Prop :=
  ∀ (pw : Nat) (c i q : Byte), 3 ≤ pw →
    ∃ k : ℤ, |Complex.arg ⟨(i.toNat : ℝ) - (c.toNat : ℝ), (q.toNat : ℝ) - (c.toNat : ℝ)⟩ * 2 ^ (pw - 1) / Real.pi - k| < 1 / 2 ∧
      lutEntry pw c i q = Int.bmod k (2 ^ pw)

/-- The table values for every centre and width, and those listed for PW = 16 and C = 127. They are the spec's own inference
("LUT values that follow from rule R142 for every C and PW, with d ≥ 1 [derived: from rule R142]"). -/
def Obligations.LutKnownValues : Prop :=
  (∀ (pw : Nat) (c : Byte), 3 ≤ pw →
    lutEntry pw c c c = 0 ∧
    (∀ d, 1 ≤ d → c.toNat + d ≤ 255 →
      lutEntry pw c (BitVec.ofNat 8 (c.toNat + d)) c = 0 ∧
      lutEntry pw c c (BitVec.ofNat 8 (c.toNat + d)) = 2 ^ (pw - 2) ∧
      lutEntry pw c (BitVec.ofNat 8 (c.toNat + d)) (BitVec.ofNat 8 (c.toNat + d)) = 2 ^ (pw - 3)) ∧
    (∀ d, 1 ≤ d → d ≤ c.toNat →
      lutEntry pw c (BitVec.ofNat 8 (c.toNat - d)) c = -2 ^ (pw - 1) ∧
      lutEntry pw c c (BitVec.ofNat 8 (c.toNat - d)) = -2 ^ (pw - 2) ∧
      lutEntry pw c (BitVec.ofNat 8 (c.toNat - d)) (BitVec.ofNat 8 (c.toNat - d)) = -(3 * 2 ^ (pw - 3))) ∧
    (∀ (i : Byte) (d : Nat), 1 ≤ d → c.toNat + d ≤ 255 → d ≤ c.toNat →
      lutEntry pw c i (BitVec.ofNat 8 (c.toNat + d)) ≠ -2 ^ (pw - 1) →
      lutEntry pw c i (BitVec.ofNat 8 (c.toNat + d)) = -lutEntry pw c i (BitVec.ofNat 8 (c.toNat - d)))) ∧
  (lutEntry 16 127 227 127 = 0 ∧ lutEntry 16 127 186 208 = 9818 ∧ lutEntry 16 127 186 46 = -9818 ∧
    lutEntry 16 127 27 127 = -32768 ∧ lutEntry 16 127 127 227 = 16384 ∧ lutEntry 16 127 128 128 = 8192 ∧
    lutEntry 16 127 0 0 = -24576 ∧ lutEntry 16 127 255 255 = 8192 ∧ lutEntry 16 127 0 255 = 24535 ∧
    lutEntry 16 127 255 0 = -8151 ∧ lutEntry 16 127 200 100 = -3695 ∧ lutEntry 16 127 10 250 = 24315)

/-- Rule R145: one phase per (I, Q) pair, in order, an odd trailing byte dropped. -/
def Obligations.DemodulateLooksUpPairs : Prop :=
  ∀ (s : State) (b : List Byte),
    (demodulate s b).length = b.length / 2 ∧
    ∀ k, k < b.length / 2 → (demodulate s b)[k]? = some (s.lut (b.getD (2 * k) 0) (b.getD (2 * k + 1) 0))

/-- The bias estimator of rule R147. -/
def Obligations.BiasEstimatorAverages : Prop :=
  ∀ (p : Config.Params) (b : List Byte) (u : BiasUnit),
    (∃ dropped, u.win ++ b = dropped ++ (u.update p b).win) ∧
    (u.update p b).win.length = min p.biasN (u.win.length + b.length) ∧
    (u.update p b).bufs = u.bufs + 1 ∧
    ((u.bufs + 1).toNat % p.biasK = 0 → (u.update p b).win ≠ [] →
      (u.update p b).est.toNat = ((u.update p b).win.map BitVec.toNat).sum / (u.update p b).win.length) ∧
    (¬ ((u.bufs + 1).toNat % p.biasK = 0 ∧ (u.update p b).win ≠ []) → (u.update p b).est = u.est)

/-! ### Packets and the dispatch (`43_deinterleave_dispatch.md`) -/

/-- Byte i of the packet is byte i div 6 of codeword i mod 6 (rule R202), and the mapping is a bijection between the packets of
552 bytes and the six codewords of 92, as the spec infers ("deinterleave is a bijection on the 552 byte positions [derived:
from this rule]"). -/
def Obligations.DeinterleaveIsBijection : Prop :=
  (∀ by' : List Byte, by'.length = 552 →
    (deinterleave by').length = 6 ∧ (∀ cw ∈ deinterleave by', cw.length = 92) ∧
    ∀ i, i < 552 → ((deinterleave by').getD (i % 6) []).getD (i / 6) 0 = by'.getD i 0) ∧
  (∀ a b : List Byte, a.length = 552 → b.length = 552 → deinterleave a = deinterleave b → a = b) ∧
  (∀ cws : List (List Byte), cws.length = 6 → (∀ cw ∈ cws, cw.length = 92) →
    ∃ by' : List Byte, by'.length = 552 ∧ deinterleave by' = cws)

/-- Byte assembly (rules R79, R183): 8m bits make m bytes, and bit 8k + j is bit 7 − j of byte k. -/
def Obligations.PackIsMostSignificantFirst : Prop :=
  ∀ (bits : List Bool) (m : Nat), bits.length = 8 * m →
    (pack bits).length = m ∧
    ∀ k j, k < m → j < 8 → ((pack bits).getD k 0).getLsbD (7 - j) = bits.getD (8 * k + j) false

/-- The record format (rules R103, R106): the header's fields, the number of words, and the bytes of the data words in
little-endian order with 0 past the end. -/
def Obligations.RecordWordsCarryTheRecord : Prop :=
  ∀ r : Record, r.data.length ≤ 552 → r.fails ≤ 6 →
    r.words.length = 1 + (r.data.length + 3) / 4 ∧
    (∃ h, r.words.head? = some h ∧ (h.extractLsb' 0 2).toNat = variantNumber r.tag ∧ h.getLsbD 2 = false ∧
      h.getLsbD 3 = r.raw ∧ h.getLsbD 4 = r.ok ∧ (h.extractLsb' 5 3).toNat = r.fails ∧ h.extractLsb' 8 8 = 0 ∧
      (h.extractLsb' 16 10).toNat = r.data.length ∧ h.extractLsb' 26 6 = 0) ∧
    ∀ m j, m < (r.data.length + 3) / 4 → j < 4 →
      (r.words.getD (m + 1) 0).extractLsb' (8 * j) 8 = r.data.getD (4 * m + j) 0

/-- What a dispatch does (rules R200, R203 to R207): in raw mode the packet's bytes leave as received; otherwise the packet
leaves decoded when no codeword fails, and is counted, and reported if REPORT_FAIL = 1, when some do. -/
def Obligations.DispatchValidatesAndReports : Prop :=
  ∀ (env : WorkerEnv) (v : Variant) (bits : List Bool) (w : WorkerState),
    (env.settings.rawMode = true →
      dispatchPacket env v bits w =
        { w with
          counters := { w.counters with raw := w.counters.raw + 1 }
          outTrace := w.outTrace ++ [{ tag := v, raw := true, ok := false, fails := 0, data := pack bits }] }) ∧
    (env.settings.rawMode = false → bits.length = packetBits v →
      ∀ f, f = failures env.tables ((List.range (parityBytes v + 1)).map env.gens[(variantSlot v).val].coeff) v (pack bits) →
        (f = 0 →
          (dispatchPacket env v bits w).outTrace = w.outTrace ++
            [{ tag := v, raw := false, ok := true, fails := 0,
               data := match v with
                 | .uplink => (List.range 432).map fun k => (pack bits).getD (6 * (k % 72) + k / 72) 0
                 | v => (pack bits).take (dataBytes v) }] ∧
          (dispatchPacket env v bits w).counters = match v with
            | .short => { w.counters with shortOk := w.counters.shortOk + 1 }
            | .long => { w.counters with longOk := w.counters.longOk + 1 }
            | .uplink => { w.counters with upOk := w.counters.upOk + 1 }) ∧
        (f ≠ 0 →
          (dispatchPacket env v bits w).outTrace = w.outTrace ++
            (if env.settings.reportFail then [{ tag := v, raw := false, ok := false, fails := f, data := [] }] else []) ∧
          (dispatchPacket env v bits w).counters = match v with
            | .short => { w.counters with shortFail := w.counters.shortFail + 1 }
            | .long => { w.counters with longFail := w.counters.longFail + 1 }
            | .uplink => { w.counters with upFail := w.counters.upFail + 1 }) ∧
        (dispatchPacket env v bits w).framer = w.framer)

/-! ### The framer (`42_bit_slicer_framer.md`) -/

/-- One entry and one sample (rules R160, R161). An entry after a drop first breaks the run and forgets PREV; its phases are then
sampled in order, and spill(SEAM) ends it; a Fatal anywhere inside ends the processing at that point, and the whole of it is
one atomic worker step, which without a Fatal changes the FIFO's front, the framer, the counters and OUT_TRACE only: no ERR
code, no IRQ bit and no PIPE_STATE, whatever the packets (rules R211, R227). Every phase is counted and becomes PREV; with
PAIR_STRIDE = 1 a delta is formed with every known previous phase, with PAIR_STRIDE = 2 with every second phase. -/
def Obligations.EntryIsBrokenSampledAndSpilled : Prop :=
  (∀ (c : FatalCode) (u : WorkerState) (f : WorkerState → Progress),
    (Progress.fatal c u).andThen f = .fatal c u ∧ (Progress.going u).andThen f = f u) ∧
  (∀ (env : WorkerEnv) (e : FifoEntry) (w : WorkerState),
    processEntry env e w =
      ((if e.discont then
          (if w.framer.acc = [] ∧ w.framer.cont = .none then Progress.going w else spill env .brk w).andThen fun u =>
            .going { u with framer := { u.framer with runLen := 0, prevValid := false, pairPhase := false } }
        else .going w).andThen fun u =>
          e.phases.foldl (fun p φ => p.andThen (sample env φ)) (.going u)).andThen (spill env .seam)) ∧
  (∀ s : State, s.workerEnabled = true → s.fifo.shutdownFlag = false →
    (∀ w, processEntry s.workerEnv s.fifo.front s.workerState = .going w →
      eventStep .worker s = .next
        { s with
          fifo := { s.fifo with head := (s.fifo.head + 1) % s.params.qcap, count := s.fifo.count - 1 }
          framer := w.framer
          counters := w.counters
          outTrace := w.outTrace }) ∧
    (∀ c w, processEntry s.workerEnv s.fifo.front s.workerState = .fatal c w →
      eventStep .worker s = .next
        { s with
          fifo := { s.fifo with head := (s.fifo.head + 1) % s.params.qcap, count := s.fifo.count - 1 }
          framer := w.framer
          counters := w.counters
          outTrace := w.outTrace
          err := { s.err with fatalCode := c }
          pipe := .fault
          irqStatus := s.irqStatus ||| 0b00100 })) ∧
  ∀ (env : WorkerEnv) (φ : Phase) (w : WorkerState) (counted : WorkerState),
    counted = { w with counters := { w.counters with samples := w.counters.samples + 1 } } →
    (env.params.pairStride = 1 → w.framer.prevValid = false →
      sample env φ w = .going { counted with framer := { w.framer with prev := φ, prevValid := true } }) ∧
    (env.params.pairStride = 1 → w.framer.prevValid = true →
      sample env φ w = (slice env (Int.bmod (φ - w.framer.prev) (2 ^ env.params.pw)) counted).andThen fun u =>
        .going { u with framer := { u.framer with prev := φ, prevValid := true } }) ∧
    (env.params.pairStride = 2 → w.framer.pairPhase = false →
      sample env φ w =
        .going { counted with framer := { w.framer with prev := φ, prevValid := true, pairPhase := true } }) ∧
    (env.params.pairStride = 2 → w.framer.pairPhase = true →
      sample env φ w = (slice env (Int.bmod (φ - w.framer.prev) (2 ^ env.params.pw)) counted).andThen fun u =>
        .going { u with framer := { u.framer with prev := φ, prevValid := true, pairPhase := !u.framer.pairPhase } })

/-- The slicer step (rules R163 to R167, R180, R181): a delta outside the window ends the run; a valid one appends the bit that
says whether it is not negative, after a SEAM spill where the accumulator is full, and a still full accumulator is fatal. -/
def Obligations.SliceAppendsOrBreaks : Prop :=
  ∀ (env : WorkerEnv) (d : Phase) (w : WorkerState) (append : WorkerState → Progress),
    (append = fun u => .going
      { u with
        framer := { u.framer with acc := u.framer.acc ++ [decide (0 ≤ d)], runLen := u.framer.runLen + 1 }
        counters := { u.counters with
          validBits := u.counters.validBits + 1
          maxRun := if u.counters.maxRun < u.framer.runLen + 1 then u.framer.runLen + 1 else u.counters.maxRun } }) →
    ((d.natAbs < env.settings.devMin.toNat ∨ env.settings.devMax.toNat < d.natAbs) →
      slice env d w =
        (if w.framer.acc = [] ∧ w.framer.cont = .none then Progress.going w else spill env .brk w).andThen fun u =>
          .going { u with framer := { u.framer with runLen := 0 } }) ∧
    (env.settings.devMin.toNat ≤ d.natAbs → d.natAbs ≤ env.settings.devMax.toNat →
      w.framer.acc.length ≠ env.params.accCap → slice env d w = append w) ∧
    (env.settings.devMin.toNat ≤ d.natAbs → d.natAbs ≤ env.settings.devMax.toNat →
      w.framer.acc.length = env.params.accCap →
      slice env d w = (spill env .seam w).andThen fun u =>
        if u.framer.acc.length = env.params.accCap then .fatal .accOverflow u else append u)

/-- Spill, step 1 (rules R171, R172), for a framer with a pending continuation: an undetermined one is resolved once 5 bits are
there; a complete packet is dispatched and the scan goes on behind it; an incomplete one waits at a SEAM and is truncated at a
BREAK. -/
def Obligations.SpillServesPendingContinuation : Prop :=
  ∀ (env : WorkerEnv) (kind : SpillKind) (w : WorkerState),
    (w.framer.cont = .undet → 5 ≤ w.framer.acc.length →
      spill env kind w =
        spill env kind { w with framer := { w.framer with cont := .pending (activeKind w.framer.acc) } }) ∧
    (w.framer.cont = .undet → w.framer.acc.length < 5 →
      spill env kind w = .going (match kind with
        | .seam => { w with framer := { w.framer with fstate := .awaitingContinuation } }
        | .brk => truncated w)) ∧
    (∀ v, w.framer.cont = .pending v → w.framer.acc.length < packetBits v →
      spill env kind w = .going (match kind with
        | .seam => { w with framer := { w.framer with fstate := .awaitingContinuation } }
        | .brk => truncated w)) ∧
    (∀ v, w.framer.cont = .pending v → packetBits v ≤ w.framer.acc.length →
      spill env kind w = scanFrom env kind (w.framer.acc.drop (packetBits v))
        { dispatchPacket env v (w.framer.acc.take (packetBits v)) w with
          framer := { w.framer with cont := .none, fstate := .searching } }) ∧
    (w.framer.cont = .none → spill env kind w = scanFrom env kind w.framer.acc w)

/-- Spill, steps 2 and 3 (rules R172 to R178, R182), at a scan position with `rest` = ACC[p .. L): fewer than 36 bits are the
tail; an Active match takes precedence over an Uplink one; a complete packet is dispatched and the scan resumes behind it; a
shortfall waits at a SEAM and is truncated at a BREAK; no match advances by one bit. -/
def Obligations.ScanFindsSyncs : Prop :=
  ∀ (env : WorkerEnv) (kind : SpillKind) (rest : List Bool) (w counted : WorkerState), w.framer.cont = .none →
    (rest.length < 36 →
      scanFrom env kind rest w =
        .going (framed (match kind with | .seam => rest | .brk => []) .none .searching w)) ∧
    (36 ≤ rest.length → Matches env.settings.syncA rest →
      counted = { w with counters := { w.counters with syncA := w.counters.syncA + 1 } } →
      (rest.length < 41 →
        scanFrom env kind rest w = shortfallOutcome env.params.accCap kind (rest.drop 36) .undet 384 counted) ∧
      (∀ v, 41 ≤ rest.length → v = activeKind (rest.drop 36) → rest.length < 36 + packetBits v →
        scanFrom env kind rest w =
          shortfallOutcome env.params.accCap kind (rest.drop 36) (.pending v) (packetBits v) counted) ∧
      (∀ v, 41 ≤ rest.length → v = activeKind (rest.drop 36) → 36 + packetBits v ≤ rest.length →
        scanFrom env kind rest w = scanFrom env kind (rest.drop (36 + packetBits v))
          { dispatchPacket env v ((rest.drop 36).take (packetBits v)) counted with
            framer := { w.framer with fstate := .searching } })) ∧
    (36 ≤ rest.length → ¬ Matches env.settings.syncA rest → Matches env.settings.syncU rest →
      counted = { w with counters := { w.counters with syncU := w.counters.syncU + 1 } } →
      (rest.length < 36 + 4416 →
        scanFrom env kind rest w = shortfallOutcome env.params.accCap kind (rest.drop 36) (.pending .uplink) 4416 counted) ∧
      (36 + 4416 ≤ rest.length →
        scanFrom env kind rest w = scanFrom env kind (rest.drop (36 + 4416))
          { dispatchPacket env .uplink ((rest.drop 36).take 4416) counted with
            framer := { w.framer with fstate := .searching } })) ∧
    (36 ≤ rest.length → ¬ Matches env.settings.syncA rest → ¬ Matches env.settings.syncU rest →
      scanFrom env kind rest w = scanFrom env kind (rest.drop 1) w)

/-- Boundary independence, the spec's own inference ("give exactly one SHORT dispatch, at every one of the 277 ways of
splitting it into two entries … [derived: checked exhaustively]", `42_bit_slicer_framer.md` section 6): the stream of an
Active sync, five 0 bits and 235 further bits makes exactly one SHORT dispatch, of its last 240 bits, nothing is truncated
and nothing stays pending. The first clause splits the accumulator's bits at any of the 277 boundaries. The second is about two
entries without a discontinuity whose phases, under either pair stride, form valid deltas only, and the stream as their
bits; they may be split anywhere, inside a pair too. -/
def Obligations.ShortPacketSurvivesEverySplit : Prop :=
  (∀ (env : WorkerEnv) (body : List Bool) (w : WorkerState) (k : Nat) (stream : List Bool),
    4416 ≤ env.params.accCap → body.length = 235 → w.framer.acc = [] → w.framer.cont = .none → k ≤ 276 →
    Matches env.settings.syncA stream → stream.drop 36 = List.replicate 5 false ++ body →
    ∃ u, (feed env (stream.take k) w).andThen (feed env (stream.drop k)) = .going u ∧
      u.framer.acc = [] ∧ u.framer.cont = .none ∧ u.framer.fstate = .searching ∧
      u.outTrace = (dispatchPacket env .short (List.replicate 5 false ++ body) w).outTrace ∧
      dispatchCounters u.counters =
        dispatchCounters (dispatchPacket env .short (List.replicate 5 false ++ body) w).counters ∧
      u.counters.syncA = w.counters.syncA + 1 ∧ u.counters.syncU = w.counters.syncU ∧
      u.counters.trunc = w.counters.trunc ∧ u.counters.validBits = w.counters.validBits + 276) ∧
  (∀ (env : WorkerEnv) (body : List Bool) (w : WorkerState) (first second deltas : List Phase) (stream : List Bool),
    4416 ≤ env.params.accCap → body.length = 235 → w.framer.acc = [] → w.framer.cont = .none →
    deltas = formedDeltas env.params w.framer.prev w.framer.prevValid w.framer.pairPhase (first ++ second) →
    (∀ d ∈ deltas, env.settings.devMin.toNat ≤ d.natAbs ∧ d.natAbs ≤ env.settings.devMax.toNat) →
    stream = deltas.map (fun d => decide (0 ≤ d)) →
    Matches env.settings.syncA stream → stream.drop 36 = List.replicate 5 false ++ body →
    ∃ u, (processEntry env { phases := first, discont := false } w).andThen
        (processEntry env { phases := second, discont := false }) = .going u ∧
      u.framer.acc = [] ∧ u.framer.cont = .none ∧ u.framer.fstate = .searching ∧
      u.outTrace = (dispatchPacket env .short (List.replicate 5 false ++ body) w).outTrace ∧
      dispatchCounters u.counters =
        dispatchCounters (dispatchPacket env .short (List.replicate 5 false ++ body) w).counters ∧
      u.counters.syncA = w.counters.syncA + 1 ∧ u.counters.syncU = w.counters.syncU ∧
      u.counters.trunc = w.counters.trunc ∧ u.counters.validBits = w.counters.validBits + 276 ∧
      u.counters.samples = w.counters.samples + BitVec.ofNat 32 (first.length + second.length))

/-! ### The host bus (`20_memory.md`, `60_exceptions.md`) -/

/-- Rule R70: a read changes nothing of the block (the record of the word read and the count of draws are the model's own, log
entries 3 and 8) and takes a draw only while BUSY = 1; a read and a write reach the same word at the four addresses of a
word. -/
def Obligations.BusAccessIgnoresLowAddressBits : Prop :=
  ∀ (s : State) (addr : BusAddr),
    (∃ w n, eventStep (.busRead addr) s = .next { s with busData := w, draws := n } ∧ (s.busy = false → n = s.draws)) ∧
    eventStep (.busRead addr) s = eventStep (.busRead (addr &&& 0xFFFFC)) s ∧
    ∀ v, eventStep (.busWrite addr v) s = eventStep (.busWrite (addr &&& 0xFFFFC) v) s

/-- The windows (rules R73 to R76, R78). POWER and LOG read 0 while FIELD_VALID = 0 and their bytes, little-endian, otherwise; a
GEN window reads 0 while its slot is not valid, and otherwise the coefficients, 0 from LEN on; the LUT window reads 0 while
LUT_VALID = 0 and otherwise the entry, sign-extended. While BUSY = 0 an XRAM word reads its four bytes; a word written to XRAM
is read back, and every other word of the window reads as before. -/
def Obligations.WindowsReadTheirContents : Prop :=
  (∀ (s : State) (m : Nat), m < 64 →
    (s.field.valid = false →
      (s.busRead (BitVec.ofNat 20 (0x01000 + 4 * m))).busData = 0 ∧
      (s.busRead (BitVec.ofNat 20 (0x01100 + 4 * m))).busData = 0) ∧
    (s.field.valid = true → ∀ j, j < 4 →
      (s.busRead (BitVec.ofNat 20 (0x01000 + 4 * m))).busData.extractLsb' (8 * j) 8 =
        s.field.tables.power.getD (4 * m + j) 0 ∧
      (s.busRead (BitVec.ofNat 20 (0x01100 + 4 * m))).busData.extractLsb' (8 * j) 8 =
        s.field.tables.log.getD (4 * m + j) 0) ∧
    ∀ k : Fin Config.ngen,
      ((s.gen k).valid = false → (s.busRead (BitVec.ofNat 20 (0x01400 + 0x100 * k.val + 4 * m))).busData = 0) ∧
      ((s.gen k).valid = true → ∀ j, j < 4 →
        (s.busRead (BitVec.ofNat 20 (0x01400 + 0x100 * k.val + 4 * m))).busData.extractLsb' (8 * j) 8 =
          if 4 * m + j < (s.gen k).coeffs.length then (s.gen k).coeffs.getD (4 * m + j) 0 else 0)) ∧
  (∀ (s : State) (i q : Byte),
    (s.phase.valid = false → s.params.Legal →
      (s.busRead (BitVec.ofNat 20 (0x40000 + 4 * (256 * i.toNat + q.toNat)))).busData = 0) ∧
    (s.phase.valid = true → s.params.Legal →
      (s.busRead (BitVec.ofNat 20 (0x40000 + 4 * (256 * i.toNat + q.toNat)))).busData.toInt = s.lut i q)) ∧
  (∀ (s : State) (k : Nat), s.params.Legal → s.busy = false → 4 * k < s.params.xramBytes → ∀ j, j < 4 →
    (s.busRead (BitVec.ofNat 20 (0x02000 + 4 * k))).busData.extractLsb' (8 * j) 8 = s.xramByte (4 * k + j)) ∧
  ∀ (s : State) (k : Nat) (v : Word), s.MemoryInv → s.params.Legal → s.busy = false → 4 * k < s.params.xramBytes →
    ∃ t, eventStep (.busWrite (BitVec.ofNat 20 (0x02000 + 4 * k)) v) s = .next t ∧
      t = { s with xram := t.xram } ∧
      (t.busRead (BitVec.ofNat 20 (0x02000 + 4 * k))).busData = v ∧
      (∀ j, j < 4 → t.xramByte (4 * k + j) = v.extractLsb' (8 * j) 8) ∧
      (∀ m, m ≠ k → 4 * m < s.params.xramBytes →
        (t.busRead (BitVec.ofNat 20 (0x02000 + 4 * m))).busData = (s.busRead (BitVec.ofNat 20 (0x02000 + 4 * m))).busData)

/-- Rule R253: a write to a descriptor or to XRAM while BUSY = 1, and a write to a configuration register while BUSY = 1 or outside
IDLE, is ignored with its error code and nothing else changes; otherwise it is performed. -/
def Obligations.RegisterWritesAreLocked : Prop :=
  ∀ (s : State) (v : Word),
    (∀ a ∈ ([0x30, 0x34, 0x38] : List BusAddr), s.busy = true →
      eventStep (.busWrite a v) s = .next (refusedWrite .writeWhileBusy s)) ∧
    (∀ k, s.params.Legal → 4 * k < s.params.xramBytes → s.busy = true →
      eventStep (.busWrite (BitVec.ofNat 20 (0x02000 + 4 * k)) v) s = .next (refusedWrite .writeWhileBusy s)) ∧
    (∀ a ∈ ([0x3C, 0x4C, 0x50, 0x54, 0x58, 0x5C, 0x60, 0x64] : List BusAddr),
      (s.busy = true → eventStep (.busWrite a v) s = .next (refusedWrite .writeWhileBusy s)) ∧
      (s.busy = false → s.pipe ≠ .idle → eventStep (.busWrite a v) s = .next (refusedWrite .locked s))) ∧
    (s.busy = false →
      eventStep (.busWrite 0x30 v) s = .next { s with argA := v } ∧
      eventStep (.busWrite 0x34 v) s = .next { s with argB := v } ∧
      eventStep (.busWrite 0x38 v) s = .next { s with argD := v.extractLsb' 0 16 }) ∧
    (s.busy = false → s.pipe = .idle →
      eventStep (.busWrite 0x3C v) s =
        .next { s with settings := { s.settings with rawMode := v.getLsbD 0, reportFail := v.getLsbD 1 } } ∧
      eventStep (.busWrite 0x4C v) s = .next { s with settings := { s.settings with center := v.extractLsb' 0 8 } } ∧
      eventStep (.busWrite 0x50 v) s =
        .next { s with settings := { s.settings with devMin := BitVec.ofNat 32 (v.toNat % 2 ^ s.params.pw) } } ∧
      eventStep (.busWrite 0x54 v) s =
        .next { s with settings := { s.settings with devMax := BitVec.ofNat 32 (v.toNat % 2 ^ s.params.pw) } } ∧
      eventStep (.busWrite 0x58 v) s =
        .next { s with settings := { s.settings with syncA := (s.settings.syncA.extractLsb' 32 4 ++ v : BitVec 36) } } ∧
      eventStep (.busWrite 0x5C v) s =
        .next { s with settings :=
          { s.settings with syncA := (v.extractLsb' 0 4 ++ s.settings.syncA.extractLsb' 0 32 : BitVec 36) } } ∧
      eventStep (.busWrite 0x60 v) s =
        .next { s with settings := { s.settings with syncU := (s.settings.syncU.extractLsb' 32 4 ++ v : BitVec 36) } } ∧
      eventStep (.busWrite 0x64 v) s =
        .next { s with settings :=
          { s.settings with syncU := (v.extractLsb' 0 4 ++ s.settings.syncU.extractLsb' 0 32 : BitVec 36) } })

/-- Rules R71, R72 and R77: a write anywhere but to the writable registers of the address map and to XRAM is ignored without
error, and a read of an unmapped address gives 0. -/
def Obligations.OtherAddressesIgnoreWrites : Prop :=
  ∀ (s : State) (addr : BusAddr) (v : Word) (a : Nat), s.params.Legal → a = addr.toNat / 4 * 4 →
    (a ∉ [0x20, 0x28, 0x30, 0x34, 0x38, 0x3C, 0x40, 0x44, 0x4C, 0x50, 0x54, 0x58, 0x5C, 0x60, 0x64] →
      ¬ (0x2000 ≤ a ∧ a < 0x2000 + s.params.xramBytes) → eventStep (.busWrite addr v) s = .next s) ∧
    ((0xC4 ≤ a ∧ a < 0x1000 ∨ 0x1200 ≤ a ∧ a < 0x1400 ∨ 0x1800 ≤ a ∧ a < 0x2000 ∨
      0x2000 + s.params.xramBytes ≤ a ∧ a < 0x40000 ∨ 0x80000 ≤ a) → (s.busRead addr).busData = 0)

/-- What every register reads, in every state, but ERR (the next statement). STATUS (rule R23) and FRAMER0 (rule R38) mirror
the state field by field and read 0 after reset; GEN_INFO (rule R39) holds LEN, START and END, and reads 0 while the slot is
not valid; PARAM0 (rule R21) holds the build parameters; RESULT reads as it stands while BUSY = 0; the registers that are
read whole are those of `registerWords`. The descriptors' fields are those of rules R26 and R27. -/
def Obligations.RegistersMirrorState : Prop :=
  (∀ s : State, s.fifo.count ≤ 10 → ∃ w, (s.busRead 0x24).busData = w ∧
    w.getLsbD 0 = s.busy ∧ w.getLsbD 1 = s.field.valid ∧ w.getLsbD 2 = s.phase.valid ∧ w.getLsbD 3 = false ∧
    (∀ k : Fin Config.ngen, w.getLsbD (4 + k.val) = (s.gen k).valid) ∧
    (w.extractLsb' 8 2).toNat = pipeNumber s.pipe ∧ (w.extractLsb' 10 2).toNat = framerNumber s.framer.fstate ∧
    (w.extractLsb' 12 4).toNat = s.fifo.count ∧ w.extractLsb' 16 16 = 0) ∧
  (∀ s : State, s.framer.acc.length < 65536 → ∃ w, (s.busRead 0x6C).busData = w ∧
    (w.extractLsb' 0 16).toNat = s.framer.acc.length ∧ (w.extractLsb' 16 3).toNat = contNumber s.framer.cont ∧
    w.getLsbD 19 = false ∧ (w.extractLsb' 20 2).toNat = framerNumber s.framer.fstate ∧
    w.getLsbD 22 = s.framer.prevValid ∧ w.getLsbD 23 = s.framer.pairPhase ∧ w.extractLsb' 24 8 = 0) ∧
  (∀ (s : State) (k : Fin Config.ngen), ∃ w, (s.busRead (BitVec.ofNat 20 (0x70 + 4 * k.val))).busData = w ∧
    ((s.gen k).valid = false → w = 0) ∧
    ((s.gen k).valid = true → (s.gen k).coeffs.length < 512 →
      (w.extractLsb' 0 9).toNat = (s.gen k).coeffs.length ∧ w.extractLsb' 9 7 = 0 ∧
      w.extractLsb' 16 8 = (s.gen k).start ∧ w.extractLsb' 24 8 = (s.gen k).stop)) ∧
  (∀ s : State, s.params.Legal → ∃ w, (s.busRead 0x08).busData = w ∧
    (w.extractLsb' 0 4).toNat = s.params.qcap ∧ (w.extractLsb' 4 2).toNat = s.params.pairStride ∧ w.extractLsb' 6 2 = 0 ∧
    (w.extractLsb' 8 5).toNat = s.params.pw ∧ w.extractLsb' 13 3 = 0 ∧ w.extractLsb' 16 4 = 4 ∧ w.extractLsb' 20 12 = 0) ∧
  (∀ s : State, s.busy = false → (s.busRead 0x2C).busData = s.result) ∧
  (∀ s : State, ∀ row ∈ registerWords s, (s.busRead row.1).busData = row.2) ∧
  (∀ s : State, descAddr s.argA = s.argA.toNat % 65536 ∧ descLen s.argA = s.argA.toNat / 65536 ∧
    descAddr s.argB = s.argB.toNat % 65536 ∧ descLen s.argB = s.argB.toNat / 65536 ∧ s.destAddr = s.argD.toNat) ∧
  (State.reset.busRead 0x24).busData = 0 ∧ (State.reset.busRead 0x6C).busData = 0

/-- ERR (rule R24): its three fields, with the numbers of rules R250 and R257, and the write of 1 to bit 8, which clears CODE and
STICKY and keeps FATAL_CODE, BUSY = 1 or not; any other write has no effect. -/
def Obligations.ErrReadsAndClears : Prop :=
  ∀ (s : State) (v : Word),
    (∃ w, (s.busRead 0x28).busData = w ∧ (w.extractLsb' 0 8).toNat = errNumber s.err.code ∧ w.getLsbD 8 = s.err.sticky ∧
      w.extractLsb' 9 7 = 0 ∧ (w.extractLsb' 16 8).toNat = fatalNumber s.err.fatalCode ∧ w.extractLsb' 24 8 = 0) ∧
    (v.getLsbD 8 = true →
      eventStep (.busWrite 0x28 v) s =
        .next { s with err := { code := .none, sticky := false, fatalCode := s.err.fatalCode } }) ∧
    (v.getLsbD 8 = false → eventStep (.busWrite 0x28 v) s = .next s)

/-- IRQ_STATUS and IRQ_EN (rules R29, R30, R102, R259): a written 1 clears its bit and a written 0 leaves it, the enables are
written in every state, and the line is 1 exactly when some enabled bit is set. -/
def Obligations.InterruptLineFollowsStatusAndEnable : Prop :=
  ∀ (s : State) (v : Word),
    (∃ b, eventStep (.busWrite 0x40 v) s = .next { s with irqStatus := b } ∧
      ∀ i, i < 5 → b.getLsbD i = (s.irqStatus.getLsbD i && !v.getLsbD i)) ∧
    (∃ b, eventStep (.busWrite 0x44 v) s = .next { s with irqEn := b } ∧ ∀ i, i < 5 → b.getLsbD i = v.getLsbD i) ∧
    (s.irqLine = true ↔ ∃ i, i < 5 ∧ s.irqStatus.getLsbD i = true ∧ s.irqEn.getLsbD i = true)

/-- The reset values of rule R281, as the host reads them in the reference configuration: every register with a reset value reads
it right after reset. The values of SYNC_A and SYNC_U are the spec's "general knowledge" (item G1), and the reference
configuration fixes PAIR_STRIDE, which the source leaves open (log entry 9). -/
def Obligations.ResetRegistersReadTheirValues : Prop :=
  resetTable.map (fun row => (State.reset.busRead row.1).busData) = resetTable.map Prod.snd

/-- Rule R280: whatever the block was doing, the reset input leaves the reset state of its configuration. What becomes of the
model's own fields is the model's choice and no rule's (log entry 14, DESIGN CHOICE): the schedule, which is the environment's
(log entry 1), goes on, the epoch is counted up, so that XRAM is drawn anew (log entry 2), the count of draws is left open
here, and busData becomes 0 (log entry 8). -/
def Obligations.ResetInputRestoresResetState : Prop :=
  ∀ s : State, ∃ t, eventStep .reset s = .next t ∧
    t = { State.resetWith s.params with schedule := s.schedule, draws := t.draws, epoch := s.epoch + 1 } ∧
    t.pipe = .idle ∧ t.busy = false ∧ t.fifo.count = 0 ∧ t.framer.cont = .none ∧ t.counters.trunc = 0 ∧
    t.err.fatalCode = .none ∧ t.outTrace = []

/-! ### The capture pipeline (`44_capture_pipeline.md`) -/

/-- The producer step (rules R223 to R225, R236): outside RUNNING the buffer is discarded; in RUNNING it is counted and taken by
the estimator, then dropped where it exceeds SLOT_BYTES or the FIFO is full, and otherwise pushed with DROP_PENDING. -/
def Obligations.ProducerStepCountsDropsOrPushes : Prop :=
  ∀ (s : State) (b : List Byte),
    (s.pipe ≠ .running → eventStep (.input b) s = .next s) ∧
    (s.pipe = .running → s.params.slotBytes < b.length →
      eventStep (.input b) s = .next
        { s with
          counters := { s.counters with bufIn := s.counters.bufIn + 1, nomem := s.counters.nomem + 1 }
          bias := s.bias.update s.params b
          fifo := { s.fifo with dropPending := true }
          irqStatus := s.irqStatus ||| 0b10000 }) ∧
    (s.pipe = .running → b.length ≤ s.params.slotBytes → s.fifo.count = s.params.qcap →
      eventStep (.input b) s = .next
        { s with
          counters := { s.counters with bufIn := s.counters.bufIn + 1, qdrop := s.counters.qdrop + 1 }
          bias := s.bias.update s.params b
          fifo := { s.fifo with dropPending := true }
          irqStatus := s.irqStatus ||| 0b10000 }) ∧
    (s.pipe = .running → b.length ≤ s.params.slotBytes → s.fifo.count ≠ s.params.qcap →
      eventStep (.input b) s = .next
        { s with
          counters := { s.counters with bufIn := s.counters.bufIn + 1 }
          bias := s.bias.update s.params b
          fifo := { s.fifo with
            slots := s.fifo.slots.set s.fifo.tail { phases := demodulate s b, discont := s.fifo.dropPending }
            tail := (s.fifo.tail + 1) % s.params.qcap
            count := s.fifo.count + 1
            dropPending := false } })

/-- FIFO order (rules R84, R221, R222, R228, R229, R234): seen as the queue of its entries, oldest first, the FIFO is lengthened
at its end by an accepted buffer, shortened at its front by the worker's pop, which hands over exactly the oldest entry, and
emptied by stop(), RUN and the reset input; every other event leaves the queue as it is, and every event keeps the ring. -/
def Obligations.FifoIsAQueue : Prop :=
  ∀ s : State, FifoInv s.params s.fifo →
    (∀ b, s.pipe = .running → b.length ≤ s.params.slotBytes → s.fifo.count < s.params.qcap →
      ∃ t, eventStep (.input b) s = .next t ∧ FifoInv t.params t.fifo ∧
        queue t.params.qcap t.fifo =
          queue s.params.qcap s.fifo ++ [{ phases := demodulate s b, discont := s.fifo.dropPending }]) ∧
    (∀ b, (s.pipe ≠ .running ∨ s.params.slotBytes < b.length ∨ s.fifo.count = s.params.qcap) →
      ∃ t, eventStep (.input b) s = .next t ∧ queue t.params.qcap t.fifo = queue s.params.qcap s.fifo) ∧
    (0 < s.fifo.count → s.workerEnabled = true → s.fifo.shutdownFlag = false →
      ∃ t e, eventStep .worker s = .next t ∧ FifoInv t.params t.fifo ∧
        queue s.params.qcap s.fifo = e :: queue t.params.qcap t.fifo ∧
        (∀ w, processEntry s.workerEnv e s.workerState = .going w →
          t = { s with fifo := t.fifo, framer := w.framer, counters := w.counters, outTrace := w.outTrace }) ∧
        (∀ c w, processEntry s.workerEnv e s.workerState = .fatal c w →
          t = { s with
            fifo := t.fifo
            framer := w.framer
            counters := w.counters
            outTrace := w.outTrace
            err := { s.err with fatalCode := c }
            pipe := .fault
            irqStatus := s.irqStatus ||| 0b00100 })) ∧
    (s.workerEnabled = true → s.fifo.shutdownFlag = true →
      ∃ t, eventStep .worker s = .next t ∧ queue t.params.qcap t.fifo = []) ∧
    ∀ (e : Event) (t : State), eventStep e s = .next t →
      FifoInv t.params t.fifo ∧
      (queue t.params.qcap t.fifo = queue s.params.qcap s.fifo ∨
        (∃ b, e = .input b ∧ s.pipe = .running ∧ b.length ≤ s.params.slotBytes ∧ s.fifo.count < s.params.qcap) ∨
        (e = .worker ∧ s.workerEnabled = true) ∨
        (queue t.params.qcap t.fifo = [] ∧
          (e = .reset ∨ e = .command ∧ s.busy = true ∧ s.cmd = 0x10000000 ∧ s.pipe = .idle)))

/-- The worker step (rules R226, R228): it is enabled exactly in RUNNING or STOPPING with SHUTDOWN_FLAG = 1 or an entry queued, does
nothing when not enabled, and with the flag set performs stop(). -/
def Obligations.WorkerStopsAtObservationPoint : Prop :=
  ∀ s : State,
    (s.workerEnabled = true ↔
      (s.pipe = .running ∨ s.pipe = .stopping) ∧ (s.fifo.shutdownFlag = true ∨ 0 < s.fifo.count)) ∧
    (s.workerEnabled = false → eventStep .worker s = .next s) ∧
    (s.workerEnabled = true → s.fifo.shutdownFlag = true →
      eventStep .worker s = .next
        { s with
          counters := if s.framer.cont = .none then s.counters
            else { s.counters with trunc := s.counters.trunc + 1 }
          framer := { acc := [], cont := .none, fstate := .searching, runLen := 0, prev := s.framer.prev,
                      prevValid := false, pairPhase := false }
          fifo := { slots := s.fifo.slots, head := 0, tail := 0, count := 0, shutdownFlag := false, dropPending := false }
          pipe := .idle
          irqStatus := s.irqStatus ||| 0b01000 })

/-- Rule R256: a Fatal raised inside an entry records its code, enters FAULT and sets IRQ_STATUS.FATAL, and what the worker did
before it is kept. -/
def Obligations.FatalEntersFault : Prop :=
  ∀ (s : State) (c : FatalCode) (w : WorkerState), s.workerEnabled = true → s.fifo.shutdownFlag = false →
    processEntry s.workerEnv s.fifo.front s.workerState = .fatal c w →
    eventStep .worker s = .next
      { s with
        fifo := { s.fifo with head := (s.fifo.head + 1) % s.params.qcap, count := s.fifo.count - 1 }
        framer := w.framer
        counters := w.counters
        outTrace := w.outTrace
        err := { s.err with fatalCode := c }
        pipe := .fault
        irqStatus := s.irqStatus ||| 0b00100 }

/-- Rules R237, R256 and R296: only the reset input leaves FAULT; every other step keeps it, the fatal code, the FIFO, the framer
and the output trace, and in FAULT the fatal code is never 0. At the end of a run (rule R296; log entry 25 on what the schedule
may still hold) no agent has a step: only the reset input changes anything, and the run stays ended. -/
def Obligations.OnlyResetLeavesFaultOrAnEndedRun : Prop :=
  (∀ s t : State, s.pipe = .fault → s.nextEvent ≠ some .reset → step s = .next t →
    t.pipe = .fault ∧ t.err.fatalCode = s.err.fatalCode ∧ t.fifo = s.fifo ∧ t.framer = s.framer ∧
      t.outTrace = s.outTrace) ∧
  (∀ s t : State, (s.pipe = .fault → s.err.fatalCode ≠ .none) → step s = .next t →
    t.pipe = .fault → t.err.fatalCode ≠ .none) ∧
  ∀ s : State, s.RunEnded → s.nextEvent ≠ some .reset →
    step s = .next { s with schedule := s.schedule.tail } ∧ State.RunEnded { s with schedule := s.schedule.tail }

/-- Rule R233: the five transitions of PIPE_STATE, and no other. The premise, that SHUTDOWN_FLAG is 1 exactly while PIPE_STATE =
STOPPING (rules R228 to R230), is itself an invariant of every step. -/
def Obligations.PipeStateTransitions : Prop :=
  ∀ s t : State, (s.fifo.shutdownFlag = true ↔ s.pipe = .stopping) → step s = .next t →
    (t.fifo.shutdownFlag = true ↔ t.pipe = .stopping) ∧
    (t.pipe ≠ s.pipe →
      (s.pipe = .idle ∧ t.pipe = .running ∧ s.nextEvent = some .command ∧ s.cmd = 0x10000000) ∨
      (s.pipe = .running ∧ t.pipe = .stopping ∧ s.nextEvent = some .command ∧ s.cmd = 0x11000000) ∨
      (s.pipe = .stopping ∧ t.pipe = .idle ∧ s.nextEvent = some .worker ∧ s.fifo.shutdownFlag = true) ∨
      ((s.pipe = .running ∨ s.pipe = .stopping) ∧ t.pipe = .fault ∧ s.nextEvent = some .worker ∧
        t.err.fatalCode ≠ .none) ∨
      (t.pipe = .idle ∧ s.nextEvent = some .reset))

/-- Rule R86 and the lock of rule R253: outside IDLE no step but the reset input changes the field tables, the generator slots, the
phase table or the configuration. -/
def Obligations.TablesAreConstantOutsideIdle : Prop :=
  ∀ s t : State, s.pipe ≠ .idle → s.nextEvent ≠ some .reset → step s = .next t →
    t.field = s.field ∧ t.gens = s.gens ∧ t.phase = s.phase ∧ t.settings = s.settings

/-! ### Invariants every step keeps -/

/-- XRAM stays in canonical form and inside its size (rules R45, R97). -/
def Obligations.StepKeepsMemoryInv : Prop := ∀ s t : State, s.MemoryInv → step s = .next t → t.MemoryInv

/-- The field and generator tables stay what FIELD_BUILD and GEN_BUILD built (rules R42, R43, R120, R124, R125). -/
def Obligations.StepKeepsTablesInv : Prop := ∀ s t : State, s.TablesInv → step s = .next t → t.TablesInv

/-- In a legal configuration the framer's invariants (rule R184), the FIFO ring and the session's readiness are kept, and no fatal
fault ever happens (rule R257). -/
def Obligations.StepKeepsPipelineInv : Prop := ∀ s t : State, s.PipelineInv → step s = .next t → t.PipelineInv

/-- The values bounded by a parameter keep their bounds (rules R33, R34, R47, R49, R141). -/
def Obligations.StepKeepsRangeInv : Prop := ∀ s t : State, s.RangeInv → step s = .next t → t.RangeInv

/-- The reset state of every legal configuration meets the four invariants, is a clean launch (rule R297) without a fatal fault,
and, with nothing scheduled, a normal end (rule R296); `State.reset` is that of the reference configuration, which is legal
(rule R9, log entry 9). DEV_MIN and DEV_MAX keep PW bits at reset in every configuration (log entry 6). -/
def Obligations.ResetMeetsTheInvariants : Prop :=
  (∀ p : Config.Params, p.Legal →
    (State.resetWith p).MemoryInv ∧ (State.resetWith p).TablesInv ∧ (State.resetWith p).PipelineInv ∧
      (State.resetWith p).RangeInv ∧ (State.resetWith p).CleanLaunch ∧ (State.resetWith p).NoFatal ∧
      (State.resetWith p).NormalEnd) ∧
  Config.Params.default.Legal ∧ State.reset = State.resetWith Config.Params.default
end

