-- ==== Sys2Proof/Laws/State.lean ====
section
/-! SUPPORT. One lemma per field per named update of the state, true by rfl, so that no later proof unfolds a record
update. -/

namespace Sys2Proof.Machine

/-! ### `State.setIrq` -/

@[simp] theorem State.setIrq_params (s : State) (i : Irq) : (s.setIrq i).params = s.params := rfl
@[simp] theorem State.setIrq_cmd (s : State) (i : Irq) : (s.setIrq i).cmd = s.cmd := rfl
@[simp] theorem State.setIrq_busy (s : State) (i : Irq) : (s.setIrq i).busy = s.busy := rfl
@[simp] theorem State.setIrq_err (s : State) (i : Irq) : (s.setIrq i).err = s.err := rfl
@[simp] theorem State.setIrq_result (s : State) (i : Irq) : (s.setIrq i).result = s.result := rfl
@[simp] theorem State.setIrq_argA (s : State) (i : Irq) : (s.setIrq i).argA = s.argA := rfl
@[simp] theorem State.setIrq_argB (s : State) (i : Irq) : (s.setIrq i).argB = s.argB := rfl
@[simp] theorem State.setIrq_argD (s : State) (i : Irq) : (s.setIrq i).argD = s.argD := rfl
@[simp] theorem State.setIrq_irqStatus (s : State) (i : Irq) : (s.setIrq i).irqStatus = s.irqStatus ||| i.mask := rfl
@[simp] theorem State.setIrq_irqEn (s : State) (i : Irq) : (s.setIrq i).irqEn = s.irqEn := rfl
@[simp] theorem State.setIrq_settings (s : State) (i : Irq) : (s.setIrq i).settings = s.settings := rfl
@[simp] theorem State.setIrq_field (s : State) (i : Irq) : (s.setIrq i).field = s.field := rfl
@[simp] theorem State.setIrq_gens (s : State) (i : Irq) : (s.setIrq i).gens = s.gens := rfl
@[simp] theorem State.setIrq_phase (s : State) (i : Irq) : (s.setIrq i).phase = s.phase := rfl
@[simp] theorem State.setIrq_bias (s : State) (i : Irq) : (s.setIrq i).bias = s.bias := rfl
@[simp] theorem State.setIrq_framer (s : State) (i : Irq) : (s.setIrq i).framer = s.framer := rfl
@[simp] theorem State.setIrq_fifo (s : State) (i : Irq) : (s.setIrq i).fifo = s.fifo := rfl
@[simp] theorem State.setIrq_counters (s : State) (i : Irq) : (s.setIrq i).counters = s.counters := rfl
@[simp] theorem State.setIrq_pipe (s : State) (i : Irq) : (s.setIrq i).pipe = s.pipe := rfl
@[simp] theorem State.setIrq_xram (s : State) (i : Irq) : (s.setIrq i).xram = s.xram := rfl
@[simp] theorem State.setIrq_outTrace (s : State) (i : Irq) : (s.setIrq i).outTrace = s.outTrace := rfl
@[simp] theorem State.setIrq_schedule (s : State) (i : Irq) : (s.setIrq i).schedule = s.schedule := rfl
@[simp] theorem State.setIrq_busData (s : State) (i : Irq) : (s.setIrq i).busData = s.busData := rfl
@[simp] theorem State.setIrq_draws (s : State) (i : Irq) : (s.setIrq i).draws = s.draws := rfl
@[simp] theorem State.setIrq_epoch (s : State) (i : Irq) : (s.setIrq i).epoch = s.epoch := rfl

/-! ### `State.setResult` -/

@[simp] theorem State.setResult_params (s : State) (w : Word) : (s.setResult w).params = s.params := rfl
@[simp] theorem State.setResult_cmd (s : State) (w : Word) : (s.setResult w).cmd = s.cmd := rfl
@[simp] theorem State.setResult_busy (s : State) (w : Word) : (s.setResult w).busy = s.busy := rfl
@[simp] theorem State.setResult_err (s : State) (w : Word) : (s.setResult w).err = s.err := rfl
@[simp] theorem State.setResult_result (s : State) (w : Word) : (s.setResult w).result = w := rfl
@[simp] theorem State.setResult_argA (s : State) (w : Word) : (s.setResult w).argA = s.argA := rfl
@[simp] theorem State.setResult_argB (s : State) (w : Word) : (s.setResult w).argB = s.argB := rfl
@[simp] theorem State.setResult_argD (s : State) (w : Word) : (s.setResult w).argD = s.argD := rfl
@[simp] theorem State.setResult_irqStatus (s : State) (w : Word) : (s.setResult w).irqStatus = s.irqStatus := rfl
@[simp] theorem State.setResult_irqEn (s : State) (w : Word) : (s.setResult w).irqEn = s.irqEn := rfl
@[simp] theorem State.setResult_settings (s : State) (w : Word) : (s.setResult w).settings = s.settings := rfl
@[simp] theorem State.setResult_field (s : State) (w : Word) : (s.setResult w).field = s.field := rfl
@[simp] theorem State.setResult_gens (s : State) (w : Word) : (s.setResult w).gens = s.gens := rfl
@[simp] theorem State.setResult_phase (s : State) (w : Word) : (s.setResult w).phase = s.phase := rfl
@[simp] theorem State.setResult_bias (s : State) (w : Word) : (s.setResult w).bias = s.bias := rfl
@[simp] theorem State.setResult_framer (s : State) (w : Word) : (s.setResult w).framer = s.framer := rfl
@[simp] theorem State.setResult_fifo (s : State) (w : Word) : (s.setResult w).fifo = s.fifo := rfl
@[simp] theorem State.setResult_counters (s : State) (w : Word) : (s.setResult w).counters = s.counters := rfl
@[simp] theorem State.setResult_pipe (s : State) (w : Word) : (s.setResult w).pipe = s.pipe := rfl
@[simp] theorem State.setResult_xram (s : State) (w : Word) : (s.setResult w).xram = s.xram := rfl
@[simp] theorem State.setResult_outTrace (s : State) (w : Word) : (s.setResult w).outTrace = s.outTrace := rfl
@[simp] theorem State.setResult_schedule (s : State) (w : Word) : (s.setResult w).schedule = s.schedule := rfl
@[simp] theorem State.setResult_busData (s : State) (w : Word) : (s.setResult w).busData = s.busData := rfl
@[simp] theorem State.setResult_draws (s : State) (w : Word) : (s.setResult w).draws = s.draws := rfl
@[simp] theorem State.setResult_epoch (s : State) (w : Word) : (s.setResult w).epoch = s.epoch := rfl

/-! ### `State.complete` -/

@[simp] theorem State.complete_params (s : State) : (s.complete).params = s.params := rfl
@[simp] theorem State.complete_cmd (s : State) : (s.complete).cmd = s.cmd := rfl
@[simp] theorem State.complete_busy (s : State) : (s.complete).busy = false := rfl
@[simp] theorem State.complete_err (s : State) : (s.complete).err = s.err := rfl
@[simp] theorem State.complete_result (s : State) : (s.complete).result = s.result := rfl
@[simp] theorem State.complete_argA (s : State) : (s.complete).argA = s.argA := rfl
@[simp] theorem State.complete_argB (s : State) : (s.complete).argB = s.argB := rfl
@[simp] theorem State.complete_argD (s : State) : (s.complete).argD = s.argD := rfl
@[simp] theorem State.complete_irqStatus (s : State) : (s.complete).irqStatus = s.irqStatus ||| Irq.cmdDone.mask := rfl
@[simp] theorem State.complete_irqEn (s : State) : (s.complete).irqEn = s.irqEn := rfl
@[simp] theorem State.complete_settings (s : State) : (s.complete).settings = s.settings := rfl
@[simp] theorem State.complete_field (s : State) : (s.complete).field = s.field := rfl
@[simp] theorem State.complete_gens (s : State) : (s.complete).gens = s.gens := rfl
@[simp] theorem State.complete_phase (s : State) : (s.complete).phase = s.phase := rfl
@[simp] theorem State.complete_bias (s : State) : (s.complete).bias = s.bias := rfl
@[simp] theorem State.complete_framer (s : State) : (s.complete).framer = s.framer := rfl
@[simp] theorem State.complete_fifo (s : State) : (s.complete).fifo = s.fifo := rfl
@[simp] theorem State.complete_counters (s : State) : (s.complete).counters = s.counters := rfl
@[simp] theorem State.complete_pipe (s : State) : (s.complete).pipe = s.pipe := rfl
@[simp] theorem State.complete_xram (s : State) : (s.complete).xram = s.xram := rfl
@[simp] theorem State.complete_outTrace (s : State) : (s.complete).outTrace = s.outTrace := rfl
@[simp] theorem State.complete_schedule (s : State) : (s.complete).schedule = s.schedule := rfl
@[simp] theorem State.complete_busData (s : State) : (s.complete).busData = s.busData := rfl
@[simp] theorem State.complete_draws (s : State) : (s.complete).draws = s.draws := rfl
@[simp] theorem State.complete_epoch (s : State) : (s.complete).epoch = s.epoch := rfl

/-! ### `State.raiseError` -/

@[simp] theorem State.raiseError_params (s : State) (c : ErrCode) : (s.raiseError c).params = s.params := rfl
@[simp] theorem State.raiseError_cmd (s : State) (c : ErrCode) : (s.raiseError c).cmd = s.cmd := rfl
@[simp] theorem State.raiseError_busy (s : State) (c : ErrCode) : (s.raiseError c).busy = s.busy := rfl
@[simp] theorem State.raiseError_err (s : State) (c : ErrCode) : (s.raiseError c).err = { s.err with code := c, sticky := true } := rfl
@[simp] theorem State.raiseError_result (s : State) (c : ErrCode) : (s.raiseError c).result = s.result := rfl
@[simp] theorem State.raiseError_argA (s : State) (c : ErrCode) : (s.raiseError c).argA = s.argA := rfl
@[simp] theorem State.raiseError_argB (s : State) (c : ErrCode) : (s.raiseError c).argB = s.argB := rfl
@[simp] theorem State.raiseError_argD (s : State) (c : ErrCode) : (s.raiseError c).argD = s.argD := rfl
@[simp] theorem State.raiseError_irqStatus (s : State) (c : ErrCode) : (s.raiseError c).irqStatus = s.irqStatus ||| Irq.err.mask := rfl
@[simp] theorem State.raiseError_irqEn (s : State) (c : ErrCode) : (s.raiseError c).irqEn = s.irqEn := rfl
@[simp] theorem State.raiseError_settings (s : State) (c : ErrCode) : (s.raiseError c).settings = s.settings := rfl
@[simp] theorem State.raiseError_field (s : State) (c : ErrCode) : (s.raiseError c).field = s.field := rfl
@[simp] theorem State.raiseError_gens (s : State) (c : ErrCode) : (s.raiseError c).gens = s.gens := rfl
@[simp] theorem State.raiseError_phase (s : State) (c : ErrCode) : (s.raiseError c).phase = s.phase := rfl
@[simp] theorem State.raiseError_bias (s : State) (c : ErrCode) : (s.raiseError c).bias = s.bias := rfl
@[simp] theorem State.raiseError_framer (s : State) (c : ErrCode) : (s.raiseError c).framer = s.framer := rfl
@[simp] theorem State.raiseError_fifo (s : State) (c : ErrCode) : (s.raiseError c).fifo = s.fifo := rfl
@[simp] theorem State.raiseError_counters (s : State) (c : ErrCode) : (s.raiseError c).counters = s.counters := rfl
@[simp] theorem State.raiseError_pipe (s : State) (c : ErrCode) : (s.raiseError c).pipe = s.pipe := rfl
@[simp] theorem State.raiseError_xram (s : State) (c : ErrCode) : (s.raiseError c).xram = s.xram := rfl
@[simp] theorem State.raiseError_outTrace (s : State) (c : ErrCode) : (s.raiseError c).outTrace = s.outTrace := rfl
@[simp] theorem State.raiseError_schedule (s : State) (c : ErrCode) : (s.raiseError c).schedule = s.schedule := rfl
@[simp] theorem State.raiseError_busData (s : State) (c : ErrCode) : (s.raiseError c).busData = s.busData := rfl
@[simp] theorem State.raiseError_draws (s : State) (c : ErrCode) : (s.raiseError c).draws = s.draws := rfl
@[simp] theorem State.raiseError_epoch (s : State) (c : ErrCode) : (s.raiseError c).epoch = s.epoch := rfl

/-! ### `State.commandError` -/

@[simp] theorem State.commandError_params (s : State) (c : ErrCode) : (s.commandError c).params = s.params := rfl
@[simp] theorem State.commandError_cmd (s : State) (c : ErrCode) : (s.commandError c).cmd = s.cmd := rfl
@[simp] theorem State.commandError_busy (s : State) (c : ErrCode) : (s.commandError c).busy = false := rfl
@[simp] theorem State.commandError_err (s : State) (c : ErrCode) : (s.commandError c).err = { s.err with code := c, sticky := true } := rfl
@[simp] theorem State.commandError_result (s : State) (c : ErrCode) : (s.commandError c).result = s.result := rfl
@[simp] theorem State.commandError_argA (s : State) (c : ErrCode) : (s.commandError c).argA = s.argA := rfl
@[simp] theorem State.commandError_argB (s : State) (c : ErrCode) : (s.commandError c).argB = s.argB := rfl
@[simp] theorem State.commandError_argD (s : State) (c : ErrCode) : (s.commandError c).argD = s.argD := rfl
@[simp] theorem State.commandError_irqStatus (s : State) (c : ErrCode) : (s.commandError c).irqStatus = s.irqStatus ||| Irq.err.mask ||| Irq.cmdDone.mask := rfl
@[simp] theorem State.commandError_irqEn (s : State) (c : ErrCode) : (s.commandError c).irqEn = s.irqEn := rfl
@[simp] theorem State.commandError_settings (s : State) (c : ErrCode) : (s.commandError c).settings = s.settings := rfl
@[simp] theorem State.commandError_field (s : State) (c : ErrCode) : (s.commandError c).field = s.field := rfl
@[simp] theorem State.commandError_gens (s : State) (c : ErrCode) : (s.commandError c).gens = s.gens := rfl
@[simp] theorem State.commandError_phase (s : State) (c : ErrCode) : (s.commandError c).phase = s.phase := rfl
@[simp] theorem State.commandError_bias (s : State) (c : ErrCode) : (s.commandError c).bias = s.bias := rfl
@[simp] theorem State.commandError_framer (s : State) (c : ErrCode) : (s.commandError c).framer = s.framer := rfl
@[simp] theorem State.commandError_fifo (s : State) (c : ErrCode) : (s.commandError c).fifo = s.fifo := rfl
@[simp] theorem State.commandError_counters (s : State) (c : ErrCode) : (s.commandError c).counters = s.counters := rfl
@[simp] theorem State.commandError_pipe (s : State) (c : ErrCode) : (s.commandError c).pipe = s.pipe := rfl
@[simp] theorem State.commandError_xram (s : State) (c : ErrCode) : (s.commandError c).xram = s.xram := rfl
@[simp] theorem State.commandError_outTrace (s : State) (c : ErrCode) : (s.commandError c).outTrace = s.outTrace := rfl
@[simp] theorem State.commandError_schedule (s : State) (c : ErrCode) : (s.commandError c).schedule = s.schedule := rfl
@[simp] theorem State.commandError_busData (s : State) (c : ErrCode) : (s.commandError c).busData = s.busData := rfl
@[simp] theorem State.commandError_draws (s : State) (c : ErrCode) : (s.commandError c).draws = s.draws := rfl
@[simp] theorem State.commandError_epoch (s : State) (c : ErrCode) : (s.commandError c).epoch = s.epoch := rfl

/-! ### `State.succeed` -/

@[simp] theorem State.succeed_params (s : State) (w : Word) : (s.succeed w).params = s.params := rfl
@[simp] theorem State.succeed_cmd (s : State) (w : Word) : (s.succeed w).cmd = s.cmd := rfl
@[simp] theorem State.succeed_busy (s : State) (w : Word) : (s.succeed w).busy = false := rfl
@[simp] theorem State.succeed_err (s : State) (w : Word) : (s.succeed w).err = s.err := rfl
@[simp] theorem State.succeed_result (s : State) (w : Word) : (s.succeed w).result = w := rfl
@[simp] theorem State.succeed_argA (s : State) (w : Word) : (s.succeed w).argA = s.argA := rfl
@[simp] theorem State.succeed_argB (s : State) (w : Word) : (s.succeed w).argB = s.argB := rfl
@[simp] theorem State.succeed_argD (s : State) (w : Word) : (s.succeed w).argD = s.argD := rfl
@[simp] theorem State.succeed_irqStatus (s : State) (w : Word) : (s.succeed w).irqStatus = s.irqStatus ||| Irq.cmdDone.mask := rfl
@[simp] theorem State.succeed_irqEn (s : State) (w : Word) : (s.succeed w).irqEn = s.irqEn := rfl
@[simp] theorem State.succeed_settings (s : State) (w : Word) : (s.succeed w).settings = s.settings := rfl
@[simp] theorem State.succeed_field (s : State) (w : Word) : (s.succeed w).field = s.field := rfl
@[simp] theorem State.succeed_gens (s : State) (w : Word) : (s.succeed w).gens = s.gens := rfl
@[simp] theorem State.succeed_phase (s : State) (w : Word) : (s.succeed w).phase = s.phase := rfl
@[simp] theorem State.succeed_bias (s : State) (w : Word) : (s.succeed w).bias = s.bias := rfl
@[simp] theorem State.succeed_framer (s : State) (w : Word) : (s.succeed w).framer = s.framer := rfl
@[simp] theorem State.succeed_fifo (s : State) (w : Word) : (s.succeed w).fifo = s.fifo := rfl
@[simp] theorem State.succeed_counters (s : State) (w : Word) : (s.succeed w).counters = s.counters := rfl
@[simp] theorem State.succeed_pipe (s : State) (w : Word) : (s.succeed w).pipe = s.pipe := rfl
@[simp] theorem State.succeed_xram (s : State) (w : Word) : (s.succeed w).xram = s.xram := rfl
@[simp] theorem State.succeed_outTrace (s : State) (w : Word) : (s.succeed w).outTrace = s.outTrace := rfl
@[simp] theorem State.succeed_schedule (s : State) (w : Word) : (s.succeed w).schedule = s.schedule := rfl
@[simp] theorem State.succeed_busData (s : State) (w : Word) : (s.succeed w).busData = s.busData := rfl
@[simp] theorem State.succeed_draws (s : State) (w : Word) : (s.succeed w).draws = s.draws := rfl
@[simp] theorem State.succeed_epoch (s : State) (w : Word) : (s.succeed w).epoch = s.epoch := rfl

/-! ### `State.clearError` -/

@[simp] theorem State.clearError_params (s : State) : (s.clearError).params = s.params := rfl
@[simp] theorem State.clearError_cmd (s : State) : (s.clearError).cmd = s.cmd := rfl
@[simp] theorem State.clearError_busy (s : State) : (s.clearError).busy = s.busy := rfl
@[simp] theorem State.clearError_err (s : State) : (s.clearError).err = { s.err with code := .none, sticky := false } := rfl
@[simp] theorem State.clearError_result (s : State) : (s.clearError).result = s.result := rfl
@[simp] theorem State.clearError_argA (s : State) : (s.clearError).argA = s.argA := rfl
@[simp] theorem State.clearError_argB (s : State) : (s.clearError).argB = s.argB := rfl
@[simp] theorem State.clearError_argD (s : State) : (s.clearError).argD = s.argD := rfl
@[simp] theorem State.clearError_irqStatus (s : State) : (s.clearError).irqStatus = s.irqStatus := rfl
@[simp] theorem State.clearError_irqEn (s : State) : (s.clearError).irqEn = s.irqEn := rfl
@[simp] theorem State.clearError_settings (s : State) : (s.clearError).settings = s.settings := rfl
@[simp] theorem State.clearError_field (s : State) : (s.clearError).field = s.field := rfl
@[simp] theorem State.clearError_gens (s : State) : (s.clearError).gens = s.gens := rfl
@[simp] theorem State.clearError_phase (s : State) : (s.clearError).phase = s.phase := rfl
@[simp] theorem State.clearError_bias (s : State) : (s.clearError).bias = s.bias := rfl
@[simp] theorem State.clearError_framer (s : State) : (s.clearError).framer = s.framer := rfl
@[simp] theorem State.clearError_fifo (s : State) : (s.clearError).fifo = s.fifo := rfl
@[simp] theorem State.clearError_counters (s : State) : (s.clearError).counters = s.counters := rfl
@[simp] theorem State.clearError_pipe (s : State) : (s.clearError).pipe = s.pipe := rfl
@[simp] theorem State.clearError_xram (s : State) : (s.clearError).xram = s.xram := rfl
@[simp] theorem State.clearError_outTrace (s : State) : (s.clearError).outTrace = s.outTrace := rfl
@[simp] theorem State.clearError_schedule (s : State) : (s.clearError).schedule = s.schedule := rfl
@[simp] theorem State.clearError_busData (s : State) : (s.clearError).busData = s.busData := rfl
@[simp] theorem State.clearError_draws (s : State) : (s.clearError).draws = s.draws := rfl
@[simp] theorem State.clearError_epoch (s : State) : (s.clearError).epoch = s.epoch := rfl

/-! ### `State.clearIrq` -/

@[simp] theorem State.clearIrq_params (s : State) (b : BitVec 5) : (s.clearIrq b).params = s.params := rfl
@[simp] theorem State.clearIrq_cmd (s : State) (b : BitVec 5) : (s.clearIrq b).cmd = s.cmd := rfl
@[simp] theorem State.clearIrq_busy (s : State) (b : BitVec 5) : (s.clearIrq b).busy = s.busy := rfl
@[simp] theorem State.clearIrq_err (s : State) (b : BitVec 5) : (s.clearIrq b).err = s.err := rfl
@[simp] theorem State.clearIrq_result (s : State) (b : BitVec 5) : (s.clearIrq b).result = s.result := rfl
@[simp] theorem State.clearIrq_argA (s : State) (b : BitVec 5) : (s.clearIrq b).argA = s.argA := rfl
@[simp] theorem State.clearIrq_argB (s : State) (b : BitVec 5) : (s.clearIrq b).argB = s.argB := rfl
@[simp] theorem State.clearIrq_argD (s : State) (b : BitVec 5) : (s.clearIrq b).argD = s.argD := rfl
@[simp] theorem State.clearIrq_irqStatus (s : State) (b : BitVec 5) : (s.clearIrq b).irqStatus = s.irqStatus &&& ~~~b := rfl
@[simp] theorem State.clearIrq_irqEn (s : State) (b : BitVec 5) : (s.clearIrq b).irqEn = s.irqEn := rfl
@[simp] theorem State.clearIrq_settings (s : State) (b : BitVec 5) : (s.clearIrq b).settings = s.settings := rfl
@[simp] theorem State.clearIrq_field (s : State) (b : BitVec 5) : (s.clearIrq b).field = s.field := rfl
@[simp] theorem State.clearIrq_gens (s : State) (b : BitVec 5) : (s.clearIrq b).gens = s.gens := rfl
@[simp] theorem State.clearIrq_phase (s : State) (b : BitVec 5) : (s.clearIrq b).phase = s.phase := rfl
@[simp] theorem State.clearIrq_bias (s : State) (b : BitVec 5) : (s.clearIrq b).bias = s.bias := rfl
@[simp] theorem State.clearIrq_framer (s : State) (b : BitVec 5) : (s.clearIrq b).framer = s.framer := rfl
@[simp] theorem State.clearIrq_fifo (s : State) (b : BitVec 5) : (s.clearIrq b).fifo = s.fifo := rfl
@[simp] theorem State.clearIrq_counters (s : State) (b : BitVec 5) : (s.clearIrq b).counters = s.counters := rfl
@[simp] theorem State.clearIrq_pipe (s : State) (b : BitVec 5) : (s.clearIrq b).pipe = s.pipe := rfl
@[simp] theorem State.clearIrq_xram (s : State) (b : BitVec 5) : (s.clearIrq b).xram = s.xram := rfl
@[simp] theorem State.clearIrq_outTrace (s : State) (b : BitVec 5) : (s.clearIrq b).outTrace = s.outTrace := rfl
@[simp] theorem State.clearIrq_schedule (s : State) (b : BitVec 5) : (s.clearIrq b).schedule = s.schedule := rfl
@[simp] theorem State.clearIrq_busData (s : State) (b : BitVec 5) : (s.clearIrq b).busData = s.busData := rfl
@[simp] theorem State.clearIrq_draws (s : State) (b : BitVec 5) : (s.clearIrq b).draws = s.draws := rfl
@[simp] theorem State.clearIrq_epoch (s : State) (b : BitVec 5) : (s.clearIrq b).epoch = s.epoch := rfl

/-! ### `State.raiseFatal` -/

@[simp] theorem State.raiseFatal_params (s : State) (c : FatalCode) : (s.raiseFatal c).params = s.params := rfl
@[simp] theorem State.raiseFatal_cmd (s : State) (c : FatalCode) : (s.raiseFatal c).cmd = s.cmd := rfl
@[simp] theorem State.raiseFatal_busy (s : State) (c : FatalCode) : (s.raiseFatal c).busy = s.busy := rfl
@[simp] theorem State.raiseFatal_err (s : State) (c : FatalCode) : (s.raiseFatal c).err = { s.err with fatalCode := c } := rfl
@[simp] theorem State.raiseFatal_result (s : State) (c : FatalCode) : (s.raiseFatal c).result = s.result := rfl
@[simp] theorem State.raiseFatal_argA (s : State) (c : FatalCode) : (s.raiseFatal c).argA = s.argA := rfl
@[simp] theorem State.raiseFatal_argB (s : State) (c : FatalCode) : (s.raiseFatal c).argB = s.argB := rfl
@[simp] theorem State.raiseFatal_argD (s : State) (c : FatalCode) : (s.raiseFatal c).argD = s.argD := rfl
@[simp] theorem State.raiseFatal_irqStatus (s : State) (c : FatalCode) : (s.raiseFatal c).irqStatus = s.irqStatus ||| Irq.fatal.mask := rfl
@[simp] theorem State.raiseFatal_irqEn (s : State) (c : FatalCode) : (s.raiseFatal c).irqEn = s.irqEn := rfl
@[simp] theorem State.raiseFatal_settings (s : State) (c : FatalCode) : (s.raiseFatal c).settings = s.settings := rfl
@[simp] theorem State.raiseFatal_field (s : State) (c : FatalCode) : (s.raiseFatal c).field = s.field := rfl
@[simp] theorem State.raiseFatal_gens (s : State) (c : FatalCode) : (s.raiseFatal c).gens = s.gens := rfl
@[simp] theorem State.raiseFatal_phase (s : State) (c : FatalCode) : (s.raiseFatal c).phase = s.phase := rfl
@[simp] theorem State.raiseFatal_bias (s : State) (c : FatalCode) : (s.raiseFatal c).bias = s.bias := rfl
@[simp] theorem State.raiseFatal_framer (s : State) (c : FatalCode) : (s.raiseFatal c).framer = s.framer := rfl
@[simp] theorem State.raiseFatal_fifo (s : State) (c : FatalCode) : (s.raiseFatal c).fifo = s.fifo := rfl
@[simp] theorem State.raiseFatal_counters (s : State) (c : FatalCode) : (s.raiseFatal c).counters = s.counters := rfl
@[simp] theorem State.raiseFatal_pipe (s : State) (c : FatalCode) : (s.raiseFatal c).pipe = .fault := rfl
@[simp] theorem State.raiseFatal_xram (s : State) (c : FatalCode) : (s.raiseFatal c).xram = s.xram := rfl
@[simp] theorem State.raiseFatal_outTrace (s : State) (c : FatalCode) : (s.raiseFatal c).outTrace = s.outTrace := rfl
@[simp] theorem State.raiseFatal_schedule (s : State) (c : FatalCode) : (s.raiseFatal c).schedule = s.schedule := rfl
@[simp] theorem State.raiseFatal_busData (s : State) (c : FatalCode) : (s.raiseFatal c).busData = s.busData := rfl
@[simp] theorem State.raiseFatal_draws (s : State) (c : FatalCode) : (s.raiseFatal c).draws = s.draws := rfl
@[simp] theorem State.raiseFatal_epoch (s : State) (c : FatalCode) : (s.raiseFatal c).epoch = s.epoch := rfl

/-! ### `State.writeXram` -/

@[simp] theorem State.writeXram_params (s : State) (a : Nat) (l : List Byte) : (s.writeXram a l).params = s.params := rfl
@[simp] theorem State.writeXram_cmd (s : State) (a : Nat) (l : List Byte) : (s.writeXram a l).cmd = s.cmd := rfl
@[simp] theorem State.writeXram_busy (s : State) (a : Nat) (l : List Byte) : (s.writeXram a l).busy = s.busy := rfl
@[simp] theorem State.writeXram_err (s : State) (a : Nat) (l : List Byte) : (s.writeXram a l).err = s.err := rfl
@[simp] theorem State.writeXram_result (s : State) (a : Nat) (l : List Byte) : (s.writeXram a l).result = s.result := rfl
@[simp] theorem State.writeXram_argA (s : State) (a : Nat) (l : List Byte) : (s.writeXram a l).argA = s.argA := rfl
@[simp] theorem State.writeXram_argB (s : State) (a : Nat) (l : List Byte) : (s.writeXram a l).argB = s.argB := rfl
@[simp] theorem State.writeXram_argD (s : State) (a : Nat) (l : List Byte) : (s.writeXram a l).argD = s.argD := rfl
@[simp] theorem State.writeXram_irqStatus (s : State) (a : Nat) (l : List Byte) : (s.writeXram a l).irqStatus = s.irqStatus := rfl
@[simp] theorem State.writeXram_irqEn (s : State) (a : Nat) (l : List Byte) : (s.writeXram a l).irqEn = s.irqEn := rfl
@[simp] theorem State.writeXram_settings (s : State) (a : Nat) (l : List Byte) : (s.writeXram a l).settings = s.settings := rfl
@[simp] theorem State.writeXram_field (s : State) (a : Nat) (l : List Byte) : (s.writeXram a l).field = s.field := rfl
@[simp] theorem State.writeXram_gens (s : State) (a : Nat) (l : List Byte) : (s.writeXram a l).gens = s.gens := rfl
@[simp] theorem State.writeXram_phase (s : State) (a : Nat) (l : List Byte) : (s.writeXram a l).phase = s.phase := rfl
@[simp] theorem State.writeXram_bias (s : State) (a : Nat) (l : List Byte) : (s.writeXram a l).bias = s.bias := rfl
@[simp] theorem State.writeXram_framer (s : State) (a : Nat) (l : List Byte) : (s.writeXram a l).framer = s.framer := rfl
@[simp] theorem State.writeXram_fifo (s : State) (a : Nat) (l : List Byte) : (s.writeXram a l).fifo = s.fifo := rfl
@[simp] theorem State.writeXram_counters (s : State) (a : Nat) (l : List Byte) : (s.writeXram a l).counters = s.counters := rfl
@[simp] theorem State.writeXram_pipe (s : State) (a : Nat) (l : List Byte) : (s.writeXram a l).pipe = s.pipe := rfl
@[simp] theorem State.writeXram_xram (s : State) (a : Nat) (l : List Byte) : (s.writeXram a l).xram = Memory.writeAll s.xram a l := rfl
@[simp] theorem State.writeXram_outTrace (s : State) (a : Nat) (l : List Byte) : (s.writeXram a l).outTrace = s.outTrace := rfl
@[simp] theorem State.writeXram_schedule (s : State) (a : Nat) (l : List Byte) : (s.writeXram a l).schedule = s.schedule := rfl
@[simp] theorem State.writeXram_busData (s : State) (a : Nat) (l : List Byte) : (s.writeXram a l).busData = s.busData := rfl
@[simp] theorem State.writeXram_draws (s : State) (a : Nat) (l : List Byte) : (s.writeXram a l).draws = s.draws := rfl
@[simp] theorem State.writeXram_epoch (s : State) (a : Nat) (l : List Byte) : (s.writeXram a l).epoch = s.epoch := rfl

/-! ### `State.setGen` -/

@[simp] theorem State.setGen_params (s : State) (k : Fin Config.ngen) (g : GenSlot) : (s.setGen k g).params = s.params := rfl
@[simp] theorem State.setGen_cmd (s : State) (k : Fin Config.ngen) (g : GenSlot) : (s.setGen k g).cmd = s.cmd := rfl
@[simp] theorem State.setGen_busy (s : State) (k : Fin Config.ngen) (g : GenSlot) : (s.setGen k g).busy = s.busy := rfl
@[simp] theorem State.setGen_err (s : State) (k : Fin Config.ngen) (g : GenSlot) : (s.setGen k g).err = s.err := rfl
@[simp] theorem State.setGen_result (s : State) (k : Fin Config.ngen) (g : GenSlot) : (s.setGen k g).result = s.result := rfl
@[simp] theorem State.setGen_argA (s : State) (k : Fin Config.ngen) (g : GenSlot) : (s.setGen k g).argA = s.argA := rfl
@[simp] theorem State.setGen_argB (s : State) (k : Fin Config.ngen) (g : GenSlot) : (s.setGen k g).argB = s.argB := rfl
@[simp] theorem State.setGen_argD (s : State) (k : Fin Config.ngen) (g : GenSlot) : (s.setGen k g).argD = s.argD := rfl
@[simp] theorem State.setGen_irqStatus (s : State) (k : Fin Config.ngen) (g : GenSlot) : (s.setGen k g).irqStatus = s.irqStatus := rfl
@[simp] theorem State.setGen_irqEn (s : State) (k : Fin Config.ngen) (g : GenSlot) : (s.setGen k g).irqEn = s.irqEn := rfl
@[simp] theorem State.setGen_settings (s : State) (k : Fin Config.ngen) (g : GenSlot) : (s.setGen k g).settings = s.settings := rfl
@[simp] theorem State.setGen_field (s : State) (k : Fin Config.ngen) (g : GenSlot) : (s.setGen k g).field = s.field := rfl
@[simp] theorem State.setGen_gens (s : State) (k : Fin Config.ngen) (g : GenSlot) : (s.setGen k g).gens = s.gens.set k g := rfl
@[simp] theorem State.setGen_phase (s : State) (k : Fin Config.ngen) (g : GenSlot) : (s.setGen k g).phase = s.phase := rfl
@[simp] theorem State.setGen_bias (s : State) (k : Fin Config.ngen) (g : GenSlot) : (s.setGen k g).bias = s.bias := rfl
@[simp] theorem State.setGen_framer (s : State) (k : Fin Config.ngen) (g : GenSlot) : (s.setGen k g).framer = s.framer := rfl
@[simp] theorem State.setGen_fifo (s : State) (k : Fin Config.ngen) (g : GenSlot) : (s.setGen k g).fifo = s.fifo := rfl
@[simp] theorem State.setGen_counters (s : State) (k : Fin Config.ngen) (g : GenSlot) : (s.setGen k g).counters = s.counters := rfl
@[simp] theorem State.setGen_pipe (s : State) (k : Fin Config.ngen) (g : GenSlot) : (s.setGen k g).pipe = s.pipe := rfl
@[simp] theorem State.setGen_xram (s : State) (k : Fin Config.ngen) (g : GenSlot) : (s.setGen k g).xram = s.xram := rfl
@[simp] theorem State.setGen_outTrace (s : State) (k : Fin Config.ngen) (g : GenSlot) : (s.setGen k g).outTrace = s.outTrace := rfl
@[simp] theorem State.setGen_schedule (s : State) (k : Fin Config.ngen) (g : GenSlot) : (s.setGen k g).schedule = s.schedule := rfl
@[simp] theorem State.setGen_busData (s : State) (k : Fin Config.ngen) (g : GenSlot) : (s.setGen k g).busData = s.busData := rfl
@[simp] theorem State.setGen_draws (s : State) (k : Fin Config.ngen) (g : GenSlot) : (s.setGen k g).draws = s.draws := rfl
@[simp] theorem State.setGen_epoch (s : State) (k : Fin Config.ngen) (g : GenSlot) : (s.setGen k g).epoch = s.epoch := rfl

/-! ### `State.commitField` -/

@[simp] theorem State.commitField_params (s : State) (p : BitVec 16) : (s.commitField p).params = s.params := rfl
@[simp] theorem State.commitField_cmd (s : State) (p : BitVec 16) : (s.commitField p).cmd = s.cmd := rfl
@[simp] theorem State.commitField_busy (s : State) (p : BitVec 16) : (s.commitField p).busy = s.busy := rfl
@[simp] theorem State.commitField_err (s : State) (p : BitVec 16) : (s.commitField p).err = s.err := rfl
@[simp] theorem State.commitField_result (s : State) (p : BitVec 16) : (s.commitField p).result = s.result := rfl
@[simp] theorem State.commitField_argA (s : State) (p : BitVec 16) : (s.commitField p).argA = s.argA := rfl
@[simp] theorem State.commitField_argB (s : State) (p : BitVec 16) : (s.commitField p).argB = s.argB := rfl
@[simp] theorem State.commitField_argD (s : State) (p : BitVec 16) : (s.commitField p).argD = s.argD := rfl
@[simp] theorem State.commitField_irqStatus (s : State) (p : BitVec 16) : (s.commitField p).irqStatus = s.irqStatus := rfl
@[simp] theorem State.commitField_irqEn (s : State) (p : BitVec 16) : (s.commitField p).irqEn = s.irqEn := rfl
@[simp] theorem State.commitField_settings (s : State) (p : BitVec 16) : (s.commitField p).settings = s.settings := rfl
@[simp] theorem State.commitField_field (s : State) (p : BitVec 16) : (s.commitField p).field = { valid := true, poly := p, tables := buildTables p } := rfl
@[simp] theorem State.commitField_gens (s : State) (p : BitVec 16) : (s.commitField p).gens = Vector.replicate Config.ngen GenSlot.empty := rfl
@[simp] theorem State.commitField_phase (s : State) (p : BitVec 16) : (s.commitField p).phase = s.phase := rfl
@[simp] theorem State.commitField_bias (s : State) (p : BitVec 16) : (s.commitField p).bias = s.bias := rfl
@[simp] theorem State.commitField_framer (s : State) (p : BitVec 16) : (s.commitField p).framer = s.framer := rfl
@[simp] theorem State.commitField_fifo (s : State) (p : BitVec 16) : (s.commitField p).fifo = s.fifo := rfl
@[simp] theorem State.commitField_counters (s : State) (p : BitVec 16) : (s.commitField p).counters = s.counters := rfl
@[simp] theorem State.commitField_pipe (s : State) (p : BitVec 16) : (s.commitField p).pipe = s.pipe := rfl
@[simp] theorem State.commitField_xram (s : State) (p : BitVec 16) : (s.commitField p).xram = s.xram := rfl
@[simp] theorem State.commitField_outTrace (s : State) (p : BitVec 16) : (s.commitField p).outTrace = s.outTrace := rfl
@[simp] theorem State.commitField_schedule (s : State) (p : BitVec 16) : (s.commitField p).schedule = s.schedule := rfl
@[simp] theorem State.commitField_busData (s : State) (p : BitVec 16) : (s.commitField p).busData = s.busData := rfl
@[simp] theorem State.commitField_draws (s : State) (p : BitVec 16) : (s.commitField p).draws = s.draws := rfl
@[simp] theorem State.commitField_epoch (s : State) (p : BitVec 16) : (s.commitField p).epoch = s.epoch := rfl

/-! ### `State.commitLut` -/

@[simp] theorem State.commitLut_params (s : State) : (s.commitLut).params = s.params := rfl
@[simp] theorem State.commitLut_cmd (s : State) : (s.commitLut).cmd = s.cmd := rfl
@[simp] theorem State.commitLut_busy (s : State) : (s.commitLut).busy = s.busy := rfl
@[simp] theorem State.commitLut_err (s : State) : (s.commitLut).err = s.err := rfl
@[simp] theorem State.commitLut_result (s : State) : (s.commitLut).result = s.result := rfl
@[simp] theorem State.commitLut_argA (s : State) : (s.commitLut).argA = s.argA := rfl
@[simp] theorem State.commitLut_argB (s : State) : (s.commitLut).argB = s.argB := rfl
@[simp] theorem State.commitLut_argD (s : State) : (s.commitLut).argD = s.argD := rfl
@[simp] theorem State.commitLut_irqStatus (s : State) : (s.commitLut).irqStatus = s.irqStatus := rfl
@[simp] theorem State.commitLut_irqEn (s : State) : (s.commitLut).irqEn = s.irqEn := rfl
@[simp] theorem State.commitLut_settings (s : State) : (s.commitLut).settings = s.settings := rfl
@[simp] theorem State.commitLut_field (s : State) : (s.commitLut).field = s.field := rfl
@[simp] theorem State.commitLut_gens (s : State) : (s.commitLut).gens = s.gens := rfl
@[simp] theorem State.commitLut_phase (s : State) : (s.commitLut).phase = { valid := true, builtFor := s.settings.center } := rfl
@[simp] theorem State.commitLut_bias (s : State) : (s.commitLut).bias = s.bias := rfl
@[simp] theorem State.commitLut_framer (s : State) : (s.commitLut).framer = s.framer := rfl
@[simp] theorem State.commitLut_fifo (s : State) : (s.commitLut).fifo = s.fifo := rfl
@[simp] theorem State.commitLut_counters (s : State) : (s.commitLut).counters = s.counters := rfl
@[simp] theorem State.commitLut_pipe (s : State) : (s.commitLut).pipe = s.pipe := rfl
@[simp] theorem State.commitLut_xram (s : State) : (s.commitLut).xram = s.xram := rfl
@[simp] theorem State.commitLut_outTrace (s : State) : (s.commitLut).outTrace = s.outTrace := rfl
@[simp] theorem State.commitLut_schedule (s : State) : (s.commitLut).schedule = s.schedule := rfl
@[simp] theorem State.commitLut_busData (s : State) : (s.commitLut).busData = s.busData := rfl
@[simp] theorem State.commitLut_draws (s : State) : (s.commitLut).draws = s.draws := rfl
@[simp] theorem State.commitLut_epoch (s : State) : (s.commitLut).epoch = s.epoch := rfl

/-! ### `State.startSession` -/

@[simp] theorem State.startSession_params (s : State) : (s.startSession).params = s.params := rfl
@[simp] theorem State.startSession_cmd (s : State) : (s.startSession).cmd = s.cmd := rfl
@[simp] theorem State.startSession_busy (s : State) : (s.startSession).busy = s.busy := rfl
@[simp] theorem State.startSession_err (s : State) : (s.startSession).err = s.err := rfl
@[simp] theorem State.startSession_result (s : State) : (s.startSession).result = s.result := rfl
@[simp] theorem State.startSession_argA (s : State) : (s.startSession).argA = s.argA := rfl
@[simp] theorem State.startSession_argB (s : State) : (s.startSession).argB = s.argB := rfl
@[simp] theorem State.startSession_argD (s : State) : (s.startSession).argD = s.argD := rfl
@[simp] theorem State.startSession_irqStatus (s : State) : (s.startSession).irqStatus = s.irqStatus := rfl
@[simp] theorem State.startSession_irqEn (s : State) : (s.startSession).irqEn = s.irqEn := rfl
@[simp] theorem State.startSession_settings (s : State) : (s.startSession).settings = s.settings := rfl
@[simp] theorem State.startSession_field (s : State) : (s.startSession).field = s.field := rfl
@[simp] theorem State.startSession_gens (s : State) : (s.startSession).gens = s.gens := rfl
@[simp] theorem State.startSession_phase (s : State) : (s.startSession).phase = s.phase := rfl
@[simp] theorem State.startSession_bias (s : State) : (s.startSession).bias = { s.bias with win := [], bufs := 0 } := rfl
@[simp] theorem State.startSession_framer (s : State) : (s.startSession).framer = s.framer.cleared := rfl
@[simp] theorem State.startSession_fifo (s : State) : (s.startSession).fifo = s.fifo.cleared := rfl
@[simp] theorem State.startSession_counters (s : State) : (s.startSession).counters = s.counters := rfl
@[simp] theorem State.startSession_pipe (s : State) : (s.startSession).pipe = .running := rfl
@[simp] theorem State.startSession_xram (s : State) : (s.startSession).xram = s.xram := rfl
@[simp] theorem State.startSession_outTrace (s : State) : (s.startSession).outTrace = s.outTrace := rfl
@[simp] theorem State.startSession_schedule (s : State) : (s.startSession).schedule = s.schedule := rfl
@[simp] theorem State.startSession_busData (s : State) : (s.startSession).busData = s.busData := rfl
@[simp] theorem State.startSession_draws (s : State) : (s.startSession).draws = s.draws := rfl
@[simp] theorem State.startSession_epoch (s : State) : (s.startSession).epoch = s.epoch := rfl

/-! ### `State.requestStop` -/

@[simp] theorem State.requestStop_params (s : State) : (s.requestStop).params = s.params := rfl
@[simp] theorem State.requestStop_cmd (s : State) : (s.requestStop).cmd = s.cmd := rfl
@[simp] theorem State.requestStop_busy (s : State) : (s.requestStop).busy = s.busy := rfl
@[simp] theorem State.requestStop_err (s : State) : (s.requestStop).err = s.err := rfl
@[simp] theorem State.requestStop_result (s : State) : (s.requestStop).result = s.result := rfl
@[simp] theorem State.requestStop_argA (s : State) : (s.requestStop).argA = s.argA := rfl
@[simp] theorem State.requestStop_argB (s : State) : (s.requestStop).argB = s.argB := rfl
@[simp] theorem State.requestStop_argD (s : State) : (s.requestStop).argD = s.argD := rfl
@[simp] theorem State.requestStop_irqStatus (s : State) : (s.requestStop).irqStatus = s.irqStatus := rfl
@[simp] theorem State.requestStop_irqEn (s : State) : (s.requestStop).irqEn = s.irqEn := rfl
@[simp] theorem State.requestStop_settings (s : State) : (s.requestStop).settings = s.settings := rfl
@[simp] theorem State.requestStop_field (s : State) : (s.requestStop).field = s.field := rfl
@[simp] theorem State.requestStop_gens (s : State) : (s.requestStop).gens = s.gens := rfl
@[simp] theorem State.requestStop_phase (s : State) : (s.requestStop).phase = s.phase := rfl
@[simp] theorem State.requestStop_bias (s : State) : (s.requestStop).bias = s.bias := rfl
@[simp] theorem State.requestStop_framer (s : State) : (s.requestStop).framer = s.framer := rfl
@[simp] theorem State.requestStop_fifo (s : State) : (s.requestStop).fifo = { s.fifo with shutdownFlag := true } := rfl
@[simp] theorem State.requestStop_counters (s : State) : (s.requestStop).counters = s.counters := rfl
@[simp] theorem State.requestStop_pipe (s : State) : (s.requestStop).pipe = .stopping := rfl
@[simp] theorem State.requestStop_xram (s : State) : (s.requestStop).xram = s.xram := rfl
@[simp] theorem State.requestStop_outTrace (s : State) : (s.requestStop).outTrace = s.outTrace := rfl
@[simp] theorem State.requestStop_schedule (s : State) : (s.requestStop).schedule = s.schedule := rfl
@[simp] theorem State.requestStop_busData (s : State) : (s.requestStop).busData = s.busData := rfl
@[simp] theorem State.requestStop_draws (s : State) : (s.requestStop).draws = s.draws := rfl
@[simp] theorem State.requestStop_epoch (s : State) : (s.requestStop).epoch = s.epoch := rfl

/-! ### `State.stop` -/

@[simp] theorem State.stop_params (s : State) : (s.stop).params = s.params := rfl
@[simp] theorem State.stop_cmd (s : State) : (s.stop).cmd = s.cmd := rfl
@[simp] theorem State.stop_busy (s : State) : (s.stop).busy = s.busy := rfl
@[simp] theorem State.stop_err (s : State) : (s.stop).err = s.err := rfl
@[simp] theorem State.stop_result (s : State) : (s.stop).result = s.result := rfl
@[simp] theorem State.stop_argA (s : State) : (s.stop).argA = s.argA := rfl
@[simp] theorem State.stop_argB (s : State) : (s.stop).argB = s.argB := rfl
@[simp] theorem State.stop_argD (s : State) : (s.stop).argD = s.argD := rfl
@[simp] theorem State.stop_irqStatus (s : State) : (s.stop).irqStatus = s.irqStatus ||| Irq.stopped.mask := rfl
@[simp] theorem State.stop_irqEn (s : State) : (s.stop).irqEn = s.irqEn := rfl
@[simp] theorem State.stop_settings (s : State) : (s.stop).settings = s.settings := rfl
@[simp] theorem State.stop_field (s : State) : (s.stop).field = s.field := rfl
@[simp] theorem State.stop_gens (s : State) : (s.stop).gens = s.gens := rfl
@[simp] theorem State.stop_phase (s : State) : (s.stop).phase = s.phase := rfl
@[simp] theorem State.stop_bias (s : State) : (s.stop).bias = s.bias := rfl
@[simp] theorem State.stop_framer (s : State) : (s.stop).framer = s.framer.cleared := rfl
@[simp] theorem State.stop_fifo (s : State) : (s.stop).fifo = s.fifo.cleared := rfl
@[simp] theorem State.stop_counters (s : State) : (s.stop).counters = s.counters.countPending s.framer.cont := rfl
@[simp] theorem State.stop_pipe (s : State) : (s.stop).pipe = .idle := rfl
@[simp] theorem State.stop_xram (s : State) : (s.stop).xram = s.xram := rfl
@[simp] theorem State.stop_outTrace (s : State) : (s.stop).outTrace = s.outTrace := rfl
@[simp] theorem State.stop_schedule (s : State) : (s.stop).schedule = s.schedule := rfl
@[simp] theorem State.stop_busData (s : State) : (s.stop).busData = s.busData := rfl
@[simp] theorem State.stop_draws (s : State) : (s.stop).draws = s.draws := rfl
@[simp] theorem State.stop_epoch (s : State) : (s.stop).epoch = s.epoch := rfl

/-! ### `State.receive` -/

@[simp] theorem State.receive_params (s : State) (b : List Byte) : (s.receive b).params = s.params := rfl
@[simp] theorem State.receive_cmd (s : State) (b : List Byte) : (s.receive b).cmd = s.cmd := rfl
@[simp] theorem State.receive_busy (s : State) (b : List Byte) : (s.receive b).busy = s.busy := rfl
@[simp] theorem State.receive_err (s : State) (b : List Byte) : (s.receive b).err = s.err := rfl
@[simp] theorem State.receive_result (s : State) (b : List Byte) : (s.receive b).result = s.result := rfl
@[simp] theorem State.receive_argA (s : State) (b : List Byte) : (s.receive b).argA = s.argA := rfl
@[simp] theorem State.receive_argB (s : State) (b : List Byte) : (s.receive b).argB = s.argB := rfl
@[simp] theorem State.receive_argD (s : State) (b : List Byte) : (s.receive b).argD = s.argD := rfl
@[simp] theorem State.receive_irqStatus (s : State) (b : List Byte) : (s.receive b).irqStatus = s.irqStatus := rfl
@[simp] theorem State.receive_irqEn (s : State) (b : List Byte) : (s.receive b).irqEn = s.irqEn := rfl
@[simp] theorem State.receive_settings (s : State) (b : List Byte) : (s.receive b).settings = s.settings := rfl
@[simp] theorem State.receive_field (s : State) (b : List Byte) : (s.receive b).field = s.field := rfl
@[simp] theorem State.receive_gens (s : State) (b : List Byte) : (s.receive b).gens = s.gens := rfl
@[simp] theorem State.receive_phase (s : State) (b : List Byte) : (s.receive b).phase = s.phase := rfl
@[simp] theorem State.receive_bias (s : State) (b : List Byte) : (s.receive b).bias = s.bias.update s.params b := rfl
@[simp] theorem State.receive_framer (s : State) (b : List Byte) : (s.receive b).framer = s.framer := rfl
@[simp] theorem State.receive_fifo (s : State) (b : List Byte) : (s.receive b).fifo = s.fifo := rfl
@[simp] theorem State.receive_counters (s : State) (b : List Byte) : (s.receive b).counters = { s.counters with bufIn := s.counters.bufIn + 1 } := rfl
@[simp] theorem State.receive_pipe (s : State) (b : List Byte) : (s.receive b).pipe = s.pipe := rfl
@[simp] theorem State.receive_xram (s : State) (b : List Byte) : (s.receive b).xram = s.xram := rfl
@[simp] theorem State.receive_outTrace (s : State) (b : List Byte) : (s.receive b).outTrace = s.outTrace := rfl
@[simp] theorem State.receive_schedule (s : State) (b : List Byte) : (s.receive b).schedule = s.schedule := rfl
@[simp] theorem State.receive_busData (s : State) (b : List Byte) : (s.receive b).busData = s.busData := rfl
@[simp] theorem State.receive_draws (s : State) (b : List Byte) : (s.receive b).draws = s.draws := rfl
@[simp] theorem State.receive_epoch (s : State) (b : List Byte) : (s.receive b).epoch = s.epoch := rfl

/-! ### `State.markDrop` -/

@[simp] theorem State.markDrop_params (s : State) : (s.markDrop).params = s.params := rfl
@[simp] theorem State.markDrop_cmd (s : State) : (s.markDrop).cmd = s.cmd := rfl
@[simp] theorem State.markDrop_busy (s : State) : (s.markDrop).busy = s.busy := rfl
@[simp] theorem State.markDrop_err (s : State) : (s.markDrop).err = s.err := rfl
@[simp] theorem State.markDrop_result (s : State) : (s.markDrop).result = s.result := rfl
@[simp] theorem State.markDrop_argA (s : State) : (s.markDrop).argA = s.argA := rfl
@[simp] theorem State.markDrop_argB (s : State) : (s.markDrop).argB = s.argB := rfl
@[simp] theorem State.markDrop_argD (s : State) : (s.markDrop).argD = s.argD := rfl
@[simp] theorem State.markDrop_irqStatus (s : State) : (s.markDrop).irqStatus = s.irqStatus ||| Irq.drop.mask := rfl
@[simp] theorem State.markDrop_irqEn (s : State) : (s.markDrop).irqEn = s.irqEn := rfl
@[simp] theorem State.markDrop_settings (s : State) : (s.markDrop).settings = s.settings := rfl
@[simp] theorem State.markDrop_field (s : State) : (s.markDrop).field = s.field := rfl
@[simp] theorem State.markDrop_gens (s : State) : (s.markDrop).gens = s.gens := rfl
@[simp] theorem State.markDrop_phase (s : State) : (s.markDrop).phase = s.phase := rfl
@[simp] theorem State.markDrop_bias (s : State) : (s.markDrop).bias = s.bias := rfl
@[simp] theorem State.markDrop_framer (s : State) : (s.markDrop).framer = s.framer := rfl
@[simp] theorem State.markDrop_fifo (s : State) : (s.markDrop).fifo = { s.fifo with dropPending := true } := rfl
@[simp] theorem State.markDrop_counters (s : State) : (s.markDrop).counters = s.counters := rfl
@[simp] theorem State.markDrop_pipe (s : State) : (s.markDrop).pipe = s.pipe := rfl
@[simp] theorem State.markDrop_xram (s : State) : (s.markDrop).xram = s.xram := rfl
@[simp] theorem State.markDrop_outTrace (s : State) : (s.markDrop).outTrace = s.outTrace := rfl
@[simp] theorem State.markDrop_schedule (s : State) : (s.markDrop).schedule = s.schedule := rfl
@[simp] theorem State.markDrop_busData (s : State) : (s.markDrop).busData = s.busData := rfl
@[simp] theorem State.markDrop_draws (s : State) : (s.markDrop).draws = s.draws := rfl
@[simp] theorem State.markDrop_epoch (s : State) : (s.markDrop).epoch = s.epoch := rfl

/-! ### `State.dropOversize` -/

@[simp] theorem State.dropOversize_params (s : State) : (s.dropOversize).params = s.params := rfl
@[simp] theorem State.dropOversize_cmd (s : State) : (s.dropOversize).cmd = s.cmd := rfl
@[simp] theorem State.dropOversize_busy (s : State) : (s.dropOversize).busy = s.busy := rfl
@[simp] theorem State.dropOversize_err (s : State) : (s.dropOversize).err = s.err := rfl
@[simp] theorem State.dropOversize_result (s : State) : (s.dropOversize).result = s.result := rfl
@[simp] theorem State.dropOversize_argA (s : State) : (s.dropOversize).argA = s.argA := rfl
@[simp] theorem State.dropOversize_argB (s : State) : (s.dropOversize).argB = s.argB := rfl
@[simp] theorem State.dropOversize_argD (s : State) : (s.dropOversize).argD = s.argD := rfl
@[simp] theorem State.dropOversize_irqStatus (s : State) : (s.dropOversize).irqStatus = s.irqStatus ||| Irq.drop.mask := rfl
@[simp] theorem State.dropOversize_irqEn (s : State) : (s.dropOversize).irqEn = s.irqEn := rfl
@[simp] theorem State.dropOversize_settings (s : State) : (s.dropOversize).settings = s.settings := rfl
@[simp] theorem State.dropOversize_field (s : State) : (s.dropOversize).field = s.field := rfl
@[simp] theorem State.dropOversize_gens (s : State) : (s.dropOversize).gens = s.gens := rfl
@[simp] theorem State.dropOversize_phase (s : State) : (s.dropOversize).phase = s.phase := rfl
@[simp] theorem State.dropOversize_bias (s : State) : (s.dropOversize).bias = s.bias := rfl
@[simp] theorem State.dropOversize_framer (s : State) : (s.dropOversize).framer = s.framer := rfl
@[simp] theorem State.dropOversize_fifo (s : State) : (s.dropOversize).fifo = { s.fifo with dropPending := true } := rfl
@[simp] theorem State.dropOversize_counters (s : State) : (s.dropOversize).counters = { s.counters with nomem := s.counters.nomem + 1 } := rfl
@[simp] theorem State.dropOversize_pipe (s : State) : (s.dropOversize).pipe = s.pipe := rfl
@[simp] theorem State.dropOversize_xram (s : State) : (s.dropOversize).xram = s.xram := rfl
@[simp] theorem State.dropOversize_outTrace (s : State) : (s.dropOversize).outTrace = s.outTrace := rfl
@[simp] theorem State.dropOversize_schedule (s : State) : (s.dropOversize).schedule = s.schedule := rfl
@[simp] theorem State.dropOversize_busData (s : State) : (s.dropOversize).busData = s.busData := rfl
@[simp] theorem State.dropOversize_draws (s : State) : (s.dropOversize).draws = s.draws := rfl
@[simp] theorem State.dropOversize_epoch (s : State) : (s.dropOversize).epoch = s.epoch := rfl

/-! ### `State.dropFull` -/

@[simp] theorem State.dropFull_params (s : State) : (s.dropFull).params = s.params := rfl
@[simp] theorem State.dropFull_cmd (s : State) : (s.dropFull).cmd = s.cmd := rfl
@[simp] theorem State.dropFull_busy (s : State) : (s.dropFull).busy = s.busy := rfl
@[simp] theorem State.dropFull_err (s : State) : (s.dropFull).err = s.err := rfl
@[simp] theorem State.dropFull_result (s : State) : (s.dropFull).result = s.result := rfl
@[simp] theorem State.dropFull_argA (s : State) : (s.dropFull).argA = s.argA := rfl
@[simp] theorem State.dropFull_argB (s : State) : (s.dropFull).argB = s.argB := rfl
@[simp] theorem State.dropFull_argD (s : State) : (s.dropFull).argD = s.argD := rfl
@[simp] theorem State.dropFull_irqStatus (s : State) : (s.dropFull).irqStatus = s.irqStatus ||| Irq.drop.mask := rfl
@[simp] theorem State.dropFull_irqEn (s : State) : (s.dropFull).irqEn = s.irqEn := rfl
@[simp] theorem State.dropFull_settings (s : State) : (s.dropFull).settings = s.settings := rfl
@[simp] theorem State.dropFull_field (s : State) : (s.dropFull).field = s.field := rfl
@[simp] theorem State.dropFull_gens (s : State) : (s.dropFull).gens = s.gens := rfl
@[simp] theorem State.dropFull_phase (s : State) : (s.dropFull).phase = s.phase := rfl
@[simp] theorem State.dropFull_bias (s : State) : (s.dropFull).bias = s.bias := rfl
@[simp] theorem State.dropFull_framer (s : State) : (s.dropFull).framer = s.framer := rfl
@[simp] theorem State.dropFull_fifo (s : State) : (s.dropFull).fifo = { s.fifo with dropPending := true } := rfl
@[simp] theorem State.dropFull_counters (s : State) : (s.dropFull).counters = { s.counters with qdrop := s.counters.qdrop + 1 } := rfl
@[simp] theorem State.dropFull_pipe (s : State) : (s.dropFull).pipe = s.pipe := rfl
@[simp] theorem State.dropFull_xram (s : State) : (s.dropFull).xram = s.xram := rfl
@[simp] theorem State.dropFull_outTrace (s : State) : (s.dropFull).outTrace = s.outTrace := rfl
@[simp] theorem State.dropFull_schedule (s : State) : (s.dropFull).schedule = s.schedule := rfl
@[simp] theorem State.dropFull_busData (s : State) : (s.dropFull).busData = s.busData := rfl
@[simp] theorem State.dropFull_draws (s : State) : (s.dropFull).draws = s.draws := rfl
@[simp] theorem State.dropFull_epoch (s : State) : (s.dropFull).epoch = s.epoch := rfl

/-! ### `State.enqueue` -/

@[simp] theorem State.enqueue_params (s : State) (b : List Byte) : (s.enqueue b).params = s.params := rfl
@[simp] theorem State.enqueue_cmd (s : State) (b : List Byte) : (s.enqueue b).cmd = s.cmd := rfl
@[simp] theorem State.enqueue_busy (s : State) (b : List Byte) : (s.enqueue b).busy = s.busy := rfl
@[simp] theorem State.enqueue_err (s : State) (b : List Byte) : (s.enqueue b).err = s.err := rfl
@[simp] theorem State.enqueue_result (s : State) (b : List Byte) : (s.enqueue b).result = s.result := rfl
@[simp] theorem State.enqueue_argA (s : State) (b : List Byte) : (s.enqueue b).argA = s.argA := rfl
@[simp] theorem State.enqueue_argB (s : State) (b : List Byte) : (s.enqueue b).argB = s.argB := rfl
@[simp] theorem State.enqueue_argD (s : State) (b : List Byte) : (s.enqueue b).argD = s.argD := rfl
@[simp] theorem State.enqueue_irqStatus (s : State) (b : List Byte) : (s.enqueue b).irqStatus = s.irqStatus := rfl
@[simp] theorem State.enqueue_irqEn (s : State) (b : List Byte) : (s.enqueue b).irqEn = s.irqEn := rfl
@[simp] theorem State.enqueue_settings (s : State) (b : List Byte) : (s.enqueue b).settings = s.settings := rfl
@[simp] theorem State.enqueue_field (s : State) (b : List Byte) : (s.enqueue b).field = s.field := rfl
@[simp] theorem State.enqueue_gens (s : State) (b : List Byte) : (s.enqueue b).gens = s.gens := rfl
@[simp] theorem State.enqueue_phase (s : State) (b : List Byte) : (s.enqueue b).phase = s.phase := rfl
@[simp] theorem State.enqueue_bias (s : State) (b : List Byte) : (s.enqueue b).bias = s.bias := rfl
@[simp] theorem State.enqueue_framer (s : State) (b : List Byte) : (s.enqueue b).framer = s.framer := rfl
@[simp] theorem State.enqueue_fifo (s : State) (b : List Byte) : (s.enqueue b).fifo = { s.fifo.push s.params.qcap { phases := demodulate s b, discont := s.fifo.dropPending } with dropPending := false } := rfl
@[simp] theorem State.enqueue_counters (s : State) (b : List Byte) : (s.enqueue b).counters = s.counters := rfl
@[simp] theorem State.enqueue_pipe (s : State) (b : List Byte) : (s.enqueue b).pipe = s.pipe := rfl
@[simp] theorem State.enqueue_xram (s : State) (b : List Byte) : (s.enqueue b).xram = s.xram := rfl
@[simp] theorem State.enqueue_outTrace (s : State) (b : List Byte) : (s.enqueue b).outTrace = s.outTrace := rfl
@[simp] theorem State.enqueue_schedule (s : State) (b : List Byte) : (s.enqueue b).schedule = s.schedule := rfl
@[simp] theorem State.enqueue_busData (s : State) (b : List Byte) : (s.enqueue b).busData = s.busData := rfl
@[simp] theorem State.enqueue_draws (s : State) (b : List Byte) : (s.enqueue b).draws = s.draws := rfl
@[simp] theorem State.enqueue_epoch (s : State) (b : List Byte) : (s.enqueue b).epoch = s.epoch := rfl

/-! ### `State.withWorker` -/

@[simp] theorem State.withWorker_params (s : State) (w : WorkerState) : (s.withWorker w).params = s.params := rfl
@[simp] theorem State.withWorker_cmd (s : State) (w : WorkerState) : (s.withWorker w).cmd = s.cmd := rfl
@[simp] theorem State.withWorker_busy (s : State) (w : WorkerState) : (s.withWorker w).busy = s.busy := rfl
@[simp] theorem State.withWorker_err (s : State) (w : WorkerState) : (s.withWorker w).err = s.err := rfl
@[simp] theorem State.withWorker_result (s : State) (w : WorkerState) : (s.withWorker w).result = s.result := rfl
@[simp] theorem State.withWorker_argA (s : State) (w : WorkerState) : (s.withWorker w).argA = s.argA := rfl
@[simp] theorem State.withWorker_argB (s : State) (w : WorkerState) : (s.withWorker w).argB = s.argB := rfl
@[simp] theorem State.withWorker_argD (s : State) (w : WorkerState) : (s.withWorker w).argD = s.argD := rfl
@[simp] theorem State.withWorker_irqStatus (s : State) (w : WorkerState) : (s.withWorker w).irqStatus = s.irqStatus := rfl
@[simp] theorem State.withWorker_irqEn (s : State) (w : WorkerState) : (s.withWorker w).irqEn = s.irqEn := rfl
@[simp] theorem State.withWorker_settings (s : State) (w : WorkerState) : (s.withWorker w).settings = s.settings := rfl
@[simp] theorem State.withWorker_field (s : State) (w : WorkerState) : (s.withWorker w).field = s.field := rfl
@[simp] theorem State.withWorker_gens (s : State) (w : WorkerState) : (s.withWorker w).gens = s.gens := rfl
@[simp] theorem State.withWorker_phase (s : State) (w : WorkerState) : (s.withWorker w).phase = s.phase := rfl
@[simp] theorem State.withWorker_bias (s : State) (w : WorkerState) : (s.withWorker w).bias = s.bias := rfl
@[simp] theorem State.withWorker_framer (s : State) (w : WorkerState) : (s.withWorker w).framer = w.framer := rfl
@[simp] theorem State.withWorker_fifo (s : State) (w : WorkerState) : (s.withWorker w).fifo = s.fifo := rfl
@[simp] theorem State.withWorker_counters (s : State) (w : WorkerState) : (s.withWorker w).counters = w.counters := rfl
@[simp] theorem State.withWorker_pipe (s : State) (w : WorkerState) : (s.withWorker w).pipe = s.pipe := rfl
@[simp] theorem State.withWorker_xram (s : State) (w : WorkerState) : (s.withWorker w).xram = s.xram := rfl
@[simp] theorem State.withWorker_outTrace (s : State) (w : WorkerState) : (s.withWorker w).outTrace = w.outTrace := rfl
@[simp] theorem State.withWorker_schedule (s : State) (w : WorkerState) : (s.withWorker w).schedule = s.schedule := rfl
@[simp] theorem State.withWorker_busData (s : State) (w : WorkerState) : (s.withWorker w).busData = s.busData := rfl
@[simp] theorem State.withWorker_draws (s : State) (w : WorkerState) : (s.withWorker w).draws = s.draws := rfl
@[simp] theorem State.withWorker_epoch (s : State) (w : WorkerState) : (s.withWorker w).epoch = s.epoch := rfl

/-! ### `State.takeEvent` -/

@[simp] theorem State.takeEvent_params (s : State) : (s.takeEvent).params = s.params := rfl
@[simp] theorem State.takeEvent_cmd (s : State) : (s.takeEvent).cmd = s.cmd := rfl
@[simp] theorem State.takeEvent_busy (s : State) : (s.takeEvent).busy = s.busy := rfl
@[simp] theorem State.takeEvent_err (s : State) : (s.takeEvent).err = s.err := rfl
@[simp] theorem State.takeEvent_result (s : State) : (s.takeEvent).result = s.result := rfl
@[simp] theorem State.takeEvent_argA (s : State) : (s.takeEvent).argA = s.argA := rfl
@[simp] theorem State.takeEvent_argB (s : State) : (s.takeEvent).argB = s.argB := rfl
@[simp] theorem State.takeEvent_argD (s : State) : (s.takeEvent).argD = s.argD := rfl
@[simp] theorem State.takeEvent_irqStatus (s : State) : (s.takeEvent).irqStatus = s.irqStatus := rfl
@[simp] theorem State.takeEvent_irqEn (s : State) : (s.takeEvent).irqEn = s.irqEn := rfl
@[simp] theorem State.takeEvent_settings (s : State) : (s.takeEvent).settings = s.settings := rfl
@[simp] theorem State.takeEvent_field (s : State) : (s.takeEvent).field = s.field := rfl
@[simp] theorem State.takeEvent_gens (s : State) : (s.takeEvent).gens = s.gens := rfl
@[simp] theorem State.takeEvent_phase (s : State) : (s.takeEvent).phase = s.phase := rfl
@[simp] theorem State.takeEvent_bias (s : State) : (s.takeEvent).bias = s.bias := rfl
@[simp] theorem State.takeEvent_framer (s : State) : (s.takeEvent).framer = s.framer := rfl
@[simp] theorem State.takeEvent_fifo (s : State) : (s.takeEvent).fifo = s.fifo := rfl
@[simp] theorem State.takeEvent_counters (s : State) : (s.takeEvent).counters = s.counters := rfl
@[simp] theorem State.takeEvent_pipe (s : State) : (s.takeEvent).pipe = s.pipe := rfl
@[simp] theorem State.takeEvent_xram (s : State) : (s.takeEvent).xram = s.xram := rfl
@[simp] theorem State.takeEvent_outTrace (s : State) : (s.takeEvent).outTrace = s.outTrace := rfl
@[simp] theorem State.takeEvent_schedule (s : State) : (s.takeEvent).schedule = s.schedule.tail := rfl
@[simp] theorem State.takeEvent_busData (s : State) : (s.takeEvent).busData = s.busData := rfl
@[simp] theorem State.takeEvent_draws (s : State) : (s.takeEvent).draws = s.draws := rfl
@[simp] theorem State.takeEvent_epoch (s : State) : (s.takeEvent).epoch = s.epoch := rfl

/-! ### `State.resetWith` -/

@[simp] theorem State.resetWith_params (p : Config.Params) : (State.resetWith p).params = p := rfl
@[simp] theorem State.resetWith_cmd (p : Config.Params) : (State.resetWith p).cmd = 0 := rfl
@[simp] theorem State.resetWith_busy (p : Config.Params) : (State.resetWith p).busy = false := rfl
@[simp] theorem State.resetWith_err (p : Config.Params) : (State.resetWith p).err = { code := .none, sticky := false, fatalCode := .none } := rfl
@[simp] theorem State.resetWith_result (p : Config.Params) : (State.resetWith p).result = 0 := rfl
@[simp] theorem State.resetWith_argA (p : Config.Params) : (State.resetWith p).argA = 0 := rfl
@[simp] theorem State.resetWith_argB (p : Config.Params) : (State.resetWith p).argB = 0 := rfl
@[simp] theorem State.resetWith_argD (p : Config.Params) : (State.resetWith p).argD = 0 := rfl
@[simp] theorem State.resetWith_irqStatus (p : Config.Params) : (State.resetWith p).irqStatus = 0 := rfl
@[simp] theorem State.resetWith_irqEn (p : Config.Params) : (State.resetWith p).irqEn = 0 := rfl
@[simp] theorem State.resetWith_settings (p : Config.Params) : (State.resetWith p).settings = Settings.initial p := rfl
@[simp] theorem State.resetWith_field_valid (p : Config.Params) : (State.resetWith p).field.valid = false := rfl
@[simp] theorem State.resetWith_gens (p : Config.Params) : (State.resetWith p).gens = Vector.replicate Config.ngen GenSlot.empty := rfl
@[simp] theorem State.resetWith_phase (p : Config.Params) : (State.resetWith p).phase = { valid := false, builtFor := 0 } := rfl
@[simp] theorem State.resetWith_bias (p : Config.Params) : (State.resetWith p).bias = { est := 0, win := [], bufs := 0 } := rfl
@[simp] theorem State.resetWith_framer (p : Config.Params) : (State.resetWith p).framer = Framer.initial := rfl
@[simp] theorem State.resetWith_fifo (p : Config.Params) : (State.resetWith p).fifo = Fifo.initial p := rfl
@[simp] theorem State.resetWith_counters (p : Config.Params) : (State.resetWith p).counters = Counters.zero := rfl
@[simp] theorem State.resetWith_pipe (p : Config.Params) : (State.resetWith p).pipe = .idle := rfl
@[simp] theorem State.resetWith_xram (p : Config.Params) : (State.resetWith p).xram = [] := rfl
@[simp] theorem State.resetWith_outTrace (p : Config.Params) : (State.resetWith p).outTrace = [] := rfl
@[simp] theorem State.resetWith_schedule (p : Config.Params) : (State.resetWith p).schedule = [] := rfl
@[simp] theorem State.resetWith_busData (p : Config.Params) : (State.resetWith p).busData = 0 := rfl
@[simp] theorem State.resetWith_draws (p : Config.Params) : (State.resetWith p).draws = 0 := rfl
@[simp] theorem State.resetWith_epoch (p : Config.Params) : (State.resetWith p).epoch = 0 := rfl

/-! ### `State.resetInput` -/

@[simp] theorem State.resetInput_params (s : State) : (s.resetInput).params = s.params := rfl
@[simp] theorem State.resetInput_cmd (s : State) : (s.resetInput).cmd = 0 := rfl
@[simp] theorem State.resetInput_busy (s : State) : (s.resetInput).busy = false := rfl
@[simp] theorem State.resetInput_err (s : State) : (s.resetInput).err = { code := .none, sticky := false, fatalCode := .none } := rfl
@[simp] theorem State.resetInput_result (s : State) : (s.resetInput).result = 0 := rfl
@[simp] theorem State.resetInput_argA (s : State) : (s.resetInput).argA = 0 := rfl
@[simp] theorem State.resetInput_argB (s : State) : (s.resetInput).argB = 0 := rfl
@[simp] theorem State.resetInput_argD (s : State) : (s.resetInput).argD = 0 := rfl
@[simp] theorem State.resetInput_irqStatus (s : State) : (s.resetInput).irqStatus = 0 := rfl
@[simp] theorem State.resetInput_irqEn (s : State) : (s.resetInput).irqEn = 0 := rfl
@[simp] theorem State.resetInput_settings (s : State) : (s.resetInput).settings = Settings.initial s.params := rfl
@[simp] theorem State.resetInput_field_valid (s : State) : (s.resetInput).field.valid = false := rfl
@[simp] theorem State.resetInput_gens (s : State) : (s.resetInput).gens = Vector.replicate Config.ngen GenSlot.empty := rfl
@[simp] theorem State.resetInput_phase (s : State) : (s.resetInput).phase = { valid := false, builtFor := 0 } := rfl
@[simp] theorem State.resetInput_bias (s : State) : (s.resetInput).bias = { est := 0, win := [], bufs := 0 } := rfl
@[simp] theorem State.resetInput_framer (s : State) : (s.resetInput).framer = Framer.initial := rfl
@[simp] theorem State.resetInput_fifo (s : State) : (s.resetInput).fifo = Fifo.initial s.params := rfl
@[simp] theorem State.resetInput_counters (s : State) : (s.resetInput).counters = Counters.zero := rfl
@[simp] theorem State.resetInput_pipe (s : State) : (s.resetInput).pipe = .idle := rfl
@[simp] theorem State.resetInput_xram (s : State) : (s.resetInput).xram = [] := rfl
@[simp] theorem State.resetInput_outTrace (s : State) : (s.resetInput).outTrace = [] := rfl
@[simp] theorem State.resetInput_schedule (s : State) : (s.resetInput).schedule = s.schedule := rfl
@[simp] theorem State.resetInput_busData (s : State) : (s.resetInput).busData = 0 := rfl
@[simp] theorem State.resetInput_draws (s : State) : (s.resetInput).draws = s.draws := rfl
@[simp] theorem State.resetInput_epoch (s : State) : (s.resetInput).epoch = s.epoch + 1 := rfl

/-! ### Framer and worker -/

@[simp] theorem WorkerState.setFramerState_acc (w : WorkerState) (f : FramerState) : (w.setFramerState f).framer.acc = w.framer.acc := rfl
@[simp] theorem WorkerState.setFramerState_cont (w : WorkerState) (f : FramerState) : (w.setFramerState f).framer.cont = w.framer.cont := rfl
@[simp] theorem WorkerState.setFramerState_fstate (w : WorkerState) (f : FramerState) : (w.setFramerState f).framer.fstate = f := rfl
@[simp] theorem WorkerState.setFramerState_runLen (w : WorkerState) (f : FramerState) : (w.setFramerState f).framer.runLen = w.framer.runLen := rfl
@[simp] theorem WorkerState.setFramerState_prev (w : WorkerState) (f : FramerState) : (w.setFramerState f).framer.prev = w.framer.prev := rfl
@[simp] theorem WorkerState.setFramerState_prevValid (w : WorkerState) (f : FramerState) : (w.setFramerState f).framer.prevValid = w.framer.prevValid := rfl
@[simp] theorem WorkerState.setFramerState_pairPhase (w : WorkerState) (f : FramerState) : (w.setFramerState f).framer.pairPhase = w.framer.pairPhase := rfl
@[simp] theorem WorkerState.setFramerState_counters (w : WorkerState) (f : FramerState) : (w.setFramerState f).counters = w.counters := rfl
@[simp] theorem WorkerState.setFramerState_outTrace (w : WorkerState) (f : FramerState) : (w.setFramerState f).outTrace = w.outTrace := rfl

@[simp] theorem WorkerState.setPending_acc (w : WorkerState) (a : List Bool) (c : ContKind) (f : FramerState) : (w.setPending a c f).framer.acc = a := rfl
@[simp] theorem WorkerState.setPending_cont (w : WorkerState) (a : List Bool) (c : ContKind) (f : FramerState) : (w.setPending a c f).framer.cont = c := rfl
@[simp] theorem WorkerState.setPending_fstate (w : WorkerState) (a : List Bool) (c : ContKind) (f : FramerState) : (w.setPending a c f).framer.fstate = f := rfl
@[simp] theorem WorkerState.setPending_runLen (w : WorkerState) (a : List Bool) (c : ContKind) (f : FramerState) : (w.setPending a c f).framer.runLen = w.framer.runLen := rfl
@[simp] theorem WorkerState.setPending_prev (w : WorkerState) (a : List Bool) (c : ContKind) (f : FramerState) : (w.setPending a c f).framer.prev = w.framer.prev := rfl
@[simp] theorem WorkerState.setPending_prevValid (w : WorkerState) (a : List Bool) (c : ContKind) (f : FramerState) : (w.setPending a c f).framer.prevValid = w.framer.prevValid := rfl
@[simp] theorem WorkerState.setPending_pairPhase (w : WorkerState) (a : List Bool) (c : ContKind) (f : FramerState) : (w.setPending a c f).framer.pairPhase = w.framer.pairPhase := rfl
@[simp] theorem WorkerState.setPending_counters (w : WorkerState) (a : List Bool) (c : ContKind) (f : FramerState) : (w.setPending a c f).counters = w.counters := rfl
@[simp] theorem WorkerState.setPending_outTrace (w : WorkerState) (a : List Bool) (c : ContKind) (f : FramerState) : (w.setPending a c f).outTrace = w.outTrace := rfl

@[simp] theorem WorkerState.truncate_acc (w : WorkerState) : (w.truncate).framer.acc = [] := rfl
@[simp] theorem WorkerState.truncate_cont (w : WorkerState) : (w.truncate).framer.cont = .none := rfl
@[simp] theorem WorkerState.truncate_fstate (w : WorkerState) : (w.truncate).framer.fstate = .searching := rfl
@[simp] theorem WorkerState.truncate_runLen (w : WorkerState) : (w.truncate).framer.runLen = w.framer.runLen := rfl
@[simp] theorem WorkerState.truncate_prev (w : WorkerState) : (w.truncate).framer.prev = w.framer.prev := rfl
@[simp] theorem WorkerState.truncate_prevValid (w : WorkerState) : (w.truncate).framer.prevValid = w.framer.prevValid := rfl
@[simp] theorem WorkerState.truncate_pairPhase (w : WorkerState) : (w.truncate).framer.pairPhase = w.framer.pairPhase := rfl
@[simp] theorem WorkerState.truncate_counters (w : WorkerState) : (w.truncate).counters = { w.counters with trunc := w.counters.trunc + 1 } := rfl
@[simp] theorem WorkerState.truncate_outTrace (w : WorkerState) : (w.truncate).outTrace = w.outTrace := rfl

@[simp] theorem WorkerState.countSyncA_acc (w : WorkerState) : (w.countSyncA).framer.acc = w.framer.acc := rfl
@[simp] theorem WorkerState.countSyncA_cont (w : WorkerState) : (w.countSyncA).framer.cont = w.framer.cont := rfl
@[simp] theorem WorkerState.countSyncA_fstate (w : WorkerState) : (w.countSyncA).framer.fstate = w.framer.fstate := rfl
@[simp] theorem WorkerState.countSyncA_runLen (w : WorkerState) : (w.countSyncA).framer.runLen = w.framer.runLen := rfl
@[simp] theorem WorkerState.countSyncA_prev (w : WorkerState) : (w.countSyncA).framer.prev = w.framer.prev := rfl
@[simp] theorem WorkerState.countSyncA_prevValid (w : WorkerState) : (w.countSyncA).framer.prevValid = w.framer.prevValid := rfl
@[simp] theorem WorkerState.countSyncA_pairPhase (w : WorkerState) : (w.countSyncA).framer.pairPhase = w.framer.pairPhase := rfl
@[simp] theorem WorkerState.countSyncA_counters (w : WorkerState) : (w.countSyncA).counters = { w.counters with syncA := w.counters.syncA + 1 } := rfl
@[simp] theorem WorkerState.countSyncA_outTrace (w : WorkerState) : (w.countSyncA).outTrace = w.outTrace := rfl

@[simp] theorem WorkerState.countSyncU_acc (w : WorkerState) : (w.countSyncU).framer.acc = w.framer.acc := rfl
@[simp] theorem WorkerState.countSyncU_cont (w : WorkerState) : (w.countSyncU).framer.cont = w.framer.cont := rfl
@[simp] theorem WorkerState.countSyncU_fstate (w : WorkerState) : (w.countSyncU).framer.fstate = w.framer.fstate := rfl
@[simp] theorem WorkerState.countSyncU_runLen (w : WorkerState) : (w.countSyncU).framer.runLen = w.framer.runLen := rfl
@[simp] theorem WorkerState.countSyncU_prev (w : WorkerState) : (w.countSyncU).framer.prev = w.framer.prev := rfl
@[simp] theorem WorkerState.countSyncU_prevValid (w : WorkerState) : (w.countSyncU).framer.prevValid = w.framer.prevValid := rfl
@[simp] theorem WorkerState.countSyncU_pairPhase (w : WorkerState) : (w.countSyncU).framer.pairPhase = w.framer.pairPhase := rfl
@[simp] theorem WorkerState.countSyncU_counters (w : WorkerState) : (w.countSyncU).counters = { w.counters with syncU := w.counters.syncU + 1 } := rfl
@[simp] theorem WorkerState.countSyncU_outTrace (w : WorkerState) : (w.countSyncU).outTrace = w.outTrace := rfl

@[simp] theorem WorkerState.clearRun_acc (w : WorkerState) : (w.clearRun).framer.acc = w.framer.acc := rfl
@[simp] theorem WorkerState.clearRun_cont (w : WorkerState) : (w.clearRun).framer.cont = w.framer.cont := rfl
@[simp] theorem WorkerState.clearRun_fstate (w : WorkerState) : (w.clearRun).framer.fstate = w.framer.fstate := rfl
@[simp] theorem WorkerState.clearRun_runLen (w : WorkerState) : (w.clearRun).framer.runLen = 0 := rfl
@[simp] theorem WorkerState.clearRun_prev (w : WorkerState) : (w.clearRun).framer.prev = w.framer.prev := rfl
@[simp] theorem WorkerState.clearRun_prevValid (w : WorkerState) : (w.clearRun).framer.prevValid = w.framer.prevValid := rfl
@[simp] theorem WorkerState.clearRun_pairPhase (w : WorkerState) : (w.clearRun).framer.pairPhase = w.framer.pairPhase := rfl
@[simp] theorem WorkerState.clearRun_counters (w : WorkerState) : (w.clearRun).counters = w.counters := rfl
@[simp] theorem WorkerState.clearRun_outTrace (w : WorkerState) : (w.clearRun).outTrace = w.outTrace := rfl

@[simp] theorem WorkerState.append_acc (w : WorkerState) (b : Bool) : (w.append b).framer.acc = w.framer.acc ++ [b] := rfl
@[simp] theorem WorkerState.append_cont (w : WorkerState) (b : Bool) : (w.append b).framer.cont = w.framer.cont := rfl
@[simp] theorem WorkerState.append_fstate (w : WorkerState) (b : Bool) : (w.append b).framer.fstate = w.framer.fstate := rfl
@[simp] theorem WorkerState.append_runLen (w : WorkerState) (b : Bool) : (w.append b).framer.runLen = w.framer.runLen + 1 := rfl
@[simp] theorem WorkerState.append_prev (w : WorkerState) (b : Bool) : (w.append b).framer.prev = w.framer.prev := rfl
@[simp] theorem WorkerState.append_prevValid (w : WorkerState) (b : Bool) : (w.append b).framer.prevValid = w.framer.prevValid := rfl
@[simp] theorem WorkerState.append_pairPhase (w : WorkerState) (b : Bool) : (w.append b).framer.pairPhase = w.framer.pairPhase := rfl
@[simp] theorem WorkerState.append_counters (w : WorkerState) (b : Bool) : (w.append b).counters = { w.counters with validBits := w.counters.validBits + 1, maxRun := wordMax w.counters.maxRun (w.framer.runLen + 1) } := rfl
@[simp] theorem WorkerState.append_outTrace (w : WorkerState) (b : Bool) : (w.append b).outTrace = w.outTrace := rfl

@[simp] theorem WorkerState.countSample_acc (w : WorkerState) : (w.countSample).framer.acc = w.framer.acc := rfl
@[simp] theorem WorkerState.countSample_cont (w : WorkerState) : (w.countSample).framer.cont = w.framer.cont := rfl
@[simp] theorem WorkerState.countSample_fstate (w : WorkerState) : (w.countSample).framer.fstate = w.framer.fstate := rfl
@[simp] theorem WorkerState.countSample_runLen (w : WorkerState) : (w.countSample).framer.runLen = w.framer.runLen := rfl
@[simp] theorem WorkerState.countSample_prev (w : WorkerState) : (w.countSample).framer.prev = w.framer.prev := rfl
@[simp] theorem WorkerState.countSample_prevValid (w : WorkerState) : (w.countSample).framer.prevValid = w.framer.prevValid := rfl
@[simp] theorem WorkerState.countSample_pairPhase (w : WorkerState) : (w.countSample).framer.pairPhase = w.framer.pairPhase := rfl
@[simp] theorem WorkerState.countSample_counters (w : WorkerState) : (w.countSample).counters = { w.counters with samples := w.counters.samples + 1 } := rfl
@[simp] theorem WorkerState.countSample_outTrace (w : WorkerState) : (w.countSample).outTrace = w.outTrace := rfl

@[simp] theorem WorkerState.setPrev_acc (w : WorkerState) (x : Phase) : (w.setPrev x).framer.acc = w.framer.acc := rfl
@[simp] theorem WorkerState.setPrev_cont (w : WorkerState) (x : Phase) : (w.setPrev x).framer.cont = w.framer.cont := rfl
@[simp] theorem WorkerState.setPrev_fstate (w : WorkerState) (x : Phase) : (w.setPrev x).framer.fstate = w.framer.fstate := rfl
@[simp] theorem WorkerState.setPrev_runLen (w : WorkerState) (x : Phase) : (w.setPrev x).framer.runLen = w.framer.runLen := rfl
@[simp] theorem WorkerState.setPrev_prev (w : WorkerState) (x : Phase) : (w.setPrev x).framer.prev = x := rfl
@[simp] theorem WorkerState.setPrev_prevValid (w : WorkerState) (x : Phase) : (w.setPrev x).framer.prevValid = true := rfl
@[simp] theorem WorkerState.setPrev_pairPhase (w : WorkerState) (x : Phase) : (w.setPrev x).framer.pairPhase = w.framer.pairPhase := rfl
@[simp] theorem WorkerState.setPrev_counters (w : WorkerState) (x : Phase) : (w.setPrev x).counters = w.counters := rfl
@[simp] theorem WorkerState.setPrev_outTrace (w : WorkerState) (x : Phase) : (w.setPrev x).outTrace = w.outTrace := rfl

@[simp] theorem WorkerState.togglePair_acc (w : WorkerState) : (w.togglePair).framer.acc = w.framer.acc := rfl
@[simp] theorem WorkerState.togglePair_cont (w : WorkerState) : (w.togglePair).framer.cont = w.framer.cont := rfl
@[simp] theorem WorkerState.togglePair_fstate (w : WorkerState) : (w.togglePair).framer.fstate = w.framer.fstate := rfl
@[simp] theorem WorkerState.togglePair_runLen (w : WorkerState) : (w.togglePair).framer.runLen = w.framer.runLen := rfl
@[simp] theorem WorkerState.togglePair_prev (w : WorkerState) : (w.togglePair).framer.prev = w.framer.prev := rfl
@[simp] theorem WorkerState.togglePair_prevValid (w : WorkerState) : (w.togglePair).framer.prevValid = w.framer.prevValid := rfl
@[simp] theorem WorkerState.togglePair_pairPhase (w : WorkerState) : (w.togglePair).framer.pairPhase = !w.framer.pairPhase := rfl
@[simp] theorem WorkerState.togglePair_counters (w : WorkerState) : (w.togglePair).counters = w.counters := rfl
@[simp] theorem WorkerState.togglePair_outTrace (w : WorkerState) : (w.togglePair).outTrace = w.outTrace := rfl

@[simp] theorem WorkerState.forgetPrev_acc (w : WorkerState) : (w.forgetPrev).framer.acc = w.framer.acc := rfl
@[simp] theorem WorkerState.forgetPrev_cont (w : WorkerState) : (w.forgetPrev).framer.cont = w.framer.cont := rfl
@[simp] theorem WorkerState.forgetPrev_fstate (w : WorkerState) : (w.forgetPrev).framer.fstate = w.framer.fstate := rfl
@[simp] theorem WorkerState.forgetPrev_runLen (w : WorkerState) : (w.forgetPrev).framer.runLen = w.framer.runLen := rfl
@[simp] theorem WorkerState.forgetPrev_prev (w : WorkerState) : (w.forgetPrev).framer.prev = w.framer.prev := rfl
@[simp] theorem WorkerState.forgetPrev_prevValid (w : WorkerState) : (w.forgetPrev).framer.prevValid = false := rfl
@[simp] theorem WorkerState.forgetPrev_pairPhase (w : WorkerState) : (w.forgetPrev).framer.pairPhase = false := rfl
@[simp] theorem WorkerState.forgetPrev_counters (w : WorkerState) : (w.forgetPrev).counters = w.counters := rfl
@[simp] theorem WorkerState.forgetPrev_outTrace (w : WorkerState) : (w.forgetPrev).outTrace = w.outTrace := rfl

@[simp] theorem WorkerState.emit_acc (w : WorkerState) (r : Record) : (w.emit r).framer.acc = w.framer.acc := rfl
@[simp] theorem WorkerState.emit_cont (w : WorkerState) (r : Record) : (w.emit r).framer.cont = w.framer.cont := rfl
@[simp] theorem WorkerState.emit_fstate (w : WorkerState) (r : Record) : (w.emit r).framer.fstate = w.framer.fstate := rfl
@[simp] theorem WorkerState.emit_runLen (w : WorkerState) (r : Record) : (w.emit r).framer.runLen = w.framer.runLen := rfl
@[simp] theorem WorkerState.emit_prev (w : WorkerState) (r : Record) : (w.emit r).framer.prev = w.framer.prev := rfl
@[simp] theorem WorkerState.emit_prevValid (w : WorkerState) (r : Record) : (w.emit r).framer.prevValid = w.framer.prevValid := rfl
@[simp] theorem WorkerState.emit_pairPhase (w : WorkerState) (r : Record) : (w.emit r).framer.pairPhase = w.framer.pairPhase := rfl
@[simp] theorem WorkerState.emit_counters (w : WorkerState) (r : Record) : (w.emit r).counters = w.counters := rfl
@[simp] theorem WorkerState.emit_outTrace (w : WorkerState) (r : Record) : (w.emit r).outTrace = w.outTrace ++ [r] := rfl

@[simp] theorem Progress.going_andThen (w : WorkerState) (f : WorkerState → Progress) :
    (Progress.going w).andThen f = f w := rfl

@[simp] theorem Progress.fatal_andThen (c : FatalCode) (w : WorkerState) (f : WorkerState → Progress) :
    (Progress.fatal c w).andThen f = .fatal c w := rfl

@[simp] theorem State.gen_setGen (s : State) (k j : Fin Config.ngen) (g : GenSlot) :
    (s.setGen k g).gen j = if k = j then g else s.gen j := by
  simp only [State.gen, State.setGen, Vector.getElem_set]
  split <;> split <;> simp_all [Fin.ext_iff]

@[simp] theorem State.gen_commitField (s : State) (p : BitVec 16) (j : Fin Config.ngen) :
    (s.commitField p).gen j = GenSlot.empty := by
  simp [State.gen]

end Sys2Proof.Machine
end

