-- ==== Sys2Proof/Laws/Memory.lean ====
section
/-! SUPPORT. The laws of XRAM: a read after a write, the canonical form kept by every memory operation, and what a written
range reads as afterwards. -/

namespace Sys2Proof.Machine

theorem Memory.wfFrom_mono {lo lo' : Nat} (h : lo' ≤ lo) :
    ∀ {m : List Host.Cell}, Memory.wfFrom lo m = true → Memory.wfFrom lo' m = true
  | [], _ => rfl
  | (a, v) :: m, hm => by
    simp only [Memory.wfFrom, Bool.and_eq_true, decide_eq_true_eq] at hm ⊢
    exact ⟨by omega, hm.2⟩

/-- A write keeps the canonical form. -/
theorem Memory.wfFrom_write {lo a : Nat} {v : Byte} (ha : lo ≤ a) :
    ∀ {m : List Host.Cell}, Memory.wfFrom lo m = true → Memory.wfFrom lo (Memory.write m a v) = true
  | [], _ => by simpa [Memory.write, Memory.wfFrom] using ha
  | (b, w) :: m, hm => by
    simp only [Memory.wfFrom, Bool.and_eq_true, decide_eq_true_eq] at hm
    unfold Memory.write
    split
    · simp only [Memory.wfFrom, Bool.and_eq_true, decide_eq_true_eq]
      exact ⟨ha, by omega, hm.2⟩
    · split
      · rename_i h
        subst h
        simpa [Memory.wfFrom] using hm
      · simp only [Memory.wfFrom, Bool.and_eq_true, decide_eq_true_eq]
        exact ⟨hm.1, Memory.wfFrom_write (by omega) hm.2⟩
termination_by m => m.length

/-- A write keeps the canonical form. -/
theorem Memory.wf_write {m : List Host.Cell} (a : Nat) (v : Byte) (h : Memory.wf m = true) :
    Memory.wf (Memory.write m a v) = true := Memory.wfFrom_write (Nat.zero_le a) h

/-- In a list in canonical form from `lo` on, no address below `lo` is listed. -/
theorem Memory.read_below {lo a : Nat} (ha : a < lo) :
    ∀ {m : List Host.Cell}, Memory.wfFrom lo m = true → Memory.read m a = none
  | [], _ => rfl
  | (b, w) :: m, hm => by
    simp only [Memory.wfFrom, Bool.and_eq_true, decide_eq_true_eq] at hm
    have h1 : a ≠ b := by omega
    have h2 : a < b := by omega
    simp [Memory.read, h1, h2]

/-- A read after a write: the byte written where it was written, the old content everywhere else. -/
theorem Memory.read_writeFrom {lo : Nat} (a : Nat) (v : Byte) (c : Nat) :
    ∀ {m : List Host.Cell}, Memory.wfFrom lo m = true →
      Memory.read (Memory.write m a v) c = if c = a then some v else Memory.read m c
  | [], _ => by
    by_cases h : c = a <;> simp [Memory.write, Memory.read, h]
  | (b, w) :: m, hm => by
    simp only [Memory.wfFrom, Bool.and_eq_true, decide_eq_true_eq] at hm
    have ih := Memory.read_writeFrom a v c (m := m) hm.2
    by_cases hab : a < b
    · by_cases hca : c = a
      · simp [Memory.write, hab, Memory.read, hca]
      · by_cases hlt : c < a
        · have h1 : c ≠ b := by omega
          have h2 : c < b := by omega
          simp [Memory.write, hab, Memory.read, hca, hlt, h1, h2]
        · simp [Memory.write, hab, Memory.read, hca, hlt]
    · by_cases heq : a = b
      · subst heq
        by_cases hca : c = a <;> simp [Memory.write, Memory.read, hca]
      · by_cases hcb : c = b
        · have h1 : c ≠ a := by omega
          subst hcb
          simp [Memory.write, hab, heq, Memory.read, h1]
        · by_cases hlt : c < b
          · have h1 : c ≠ a := by omega
            simp [Memory.write, hab, heq, Memory.read, hcb, hlt, h1]
          · simp [Memory.write, hab, heq, Memory.read, hcb, hlt, ih]

/-- A read after a write, on a memory in canonical form. -/
theorem Memory.read_write {m : List Host.Cell} (h : Memory.wf m = true) (a : Nat) (v : Byte) (c : Nat) :
    Memory.read (Memory.write m a v) c = if c = a then some v else Memory.read m c :=
  Memory.read_writeFrom a v c h

/-- Writing a range keeps the canonical form. -/
theorem Memory.wf_writeAll (l : List Byte) :
    ∀ {m : List Host.Cell} (a : Nat), Memory.wf m = true → Memory.wf (Memory.writeAll m a l) = true := by
  induction l with
  | nil => exact fun a h => h
  | cons v vs ih => exact fun a h => ih (a + 1) (Memory.wf_write a v h)

/-- What a written range reads as: its bytes inside it, the old content outside. -/
theorem Memory.read_writeAll (l : List Byte) :
    ∀ {m : List Host.Cell} (a c : Nat), Memory.wf m = true →
      Memory.read (Memory.writeAll m a l) c = if a ≤ c ∧ c < a + l.length then some (l.getD (c - a) 0) else Memory.read m c := by
  induction l with
  | nil =>
    intro m a c _
    have h : ¬ (a ≤ c ∧ c < a + ([] : List Byte).length) := by rw [List.length_nil]; omega
    simp only [Memory.writeAll, if_neg h]
  | cons v vs ih =>
    intro m a c h
    rw [Memory.writeAll, ih (a + 1) c (Memory.wf_write a v h), Memory.read_write h]
    by_cases h1 : c = a
    · subst h1
      have h2 : ¬ (c + 1 ≤ c ∧ c < c + 1 + vs.length) := by omega
      have h3 : c ≤ c ∧ c < c + (v :: vs).length := by simp
      rw [if_neg h2, if_pos h3]
      simp
    · by_cases h2 : a + 1 ≤ c ∧ c < a + 1 + vs.length
      · have h3 : a ≤ c ∧ c < a + (v :: vs).length := by simp; omega
        have h4 : c - a = (c - (a + 1)) + 1 := by omega
        rw [if_pos h2, if_pos h3, h4]
        simp
      · have h3 : ¬ (a ≤ c ∧ c < a + (v :: vs).length) := by simp; omega
        rw [if_neg h2, if_neg h1, if_neg h3]

/-- A cell of a written list is the cell written or one that was there. -/
theorem Memory.mem_write {a : Nat} {v : Byte} {c : Host.Cell} :
    ∀ {m : List Host.Cell}, c ∈ Memory.write m a v → c = (a, v) ∨ c ∈ m
  | [], h => by simpa [Memory.write] using h
  | (b, w) :: m, h => by
    unfold Memory.write at h
    split at h
    · rcases List.mem_cons.1 h with h | h
      · exact .inl h
      · exact .inr h
    · split at h
      · rcases List.mem_cons.1 h with h | h
        · exact .inl h
        · exact .inr (List.mem_cons_of_mem _ h)
      · rcases List.mem_cons.1 h with h | h
        · exact .inr (by simp [h])
        · rcases Memory.mem_write h with h | h
          · exact .inl h
          · exact .inr (List.mem_cons_of_mem _ h)

/-- Writing a range inside a bound keeps every listed address inside it. -/
theorem Memory.bounded_writeAll {n : Nat} (l : List Byte) :
    ∀ {m : List Host.Cell} (a : Nat), a + l.length ≤ n → (∀ c ∈ m, c.1 < n) →
      ∀ c ∈ Memory.writeAll m a l, c.1 < n := by
  induction l with
  | nil => exact fun a _ h => h
  | cons v vs ih =>
    intro m a ha h
    simp only [List.length_cons] at ha
    refine ih (a + 1) (by omega) fun c hc => ?_
    rcases Memory.mem_write hc with h1 | h1
    · subst h1
      show a < n
      omega
    · exact h c h1

/-- XRAM after `writeXram`: the bytes written inside the range, the old content outside (rule R96). -/
theorem State.xramByte_writeXram {s : State} (h : Memory.wf s.xram = true) (a : Nat) (l : List Byte) (c : Nat) :
    (s.writeXram a l).xramByte c = if a ≤ c ∧ c < a + l.length then l.getD (c - a) 0 else s.xramByte c := by
  simp only [State.xramByte, State.writeXram_xram, State.writeXram_epoch, Memory.read_writeAll l a c h]
  split <;> simp

@[simp] theorem State.xramRange_length (s : State) (a n : Nat) : (s.xramRange a n).length = n := by
  simp [State.xramRange]

/-- Byte `k` of a range read from XRAM (rule R96). -/
theorem State.xramRange_getD (s : State) (a n k : Nat) (h : k < n) : (s.xramRange a n).getD k 0 = s.xramByte (a + k) := by
  simp [State.xramRange, List.getD, h]

/-- The bytes of XRAM depend on the written cells and the reset's draw only. -/
theorem State.xramByte_congr {s t : State} (hx : t.xram = s.xram) (he : t.epoch = s.epoch) (a : Nat) :
    t.xramByte a = s.xramByte a := by
  simp [State.xramByte, hx, he]

end Sys2Proof.Machine
end

