-- ==== Sys2Proof/Laws/Bus.lean ====
section
/-! SUPPORT. What a host access can do, once each (rules R70, R90, R253). -/

namespace Sys2Proof.Machine

/-- A read changes the model's own record of the bus and of the draws, and nothing of the block (rule R70). -/
theorem busRead_cases (s : State) (addr : BusAddr) :
    ∃ w n, s.busRead addr = { s with busData := w, draws := n } := by
  unfold State.busRead
  split
  · exact ⟨_, s.draws, rfl⟩
  · exact ⟨_, _, rfl⟩

/-- The XRAM window lies in XRAM, and its offsets are multiples of 4 (rules R70, R72). -/
theorem targetAt_xramWindow {p : Config.Params} {a off : Nat} (ha : a % 4 = 0) (h : targetAt p a = .xramWindow off) :
    off % 4 = 0 ∧ off < p.xramBytes := by
  unfold targetAt at h
  split at h
  · exact Target.noConfusion h
  · split at h
    · exact Target.noConfusion h
    · split at h
      · exact Target.noConfusion h
      · split at h
        · exact Target.noConfusion h
        · split at h
          · rename_i hw
            injection h with h
            omega
          · split at h
            · exact Target.noConfusion h
            · exact Target.noConfusion h

theorem lowBits_lt (pw : Nat) (v : Word) : (lowBits pw v).toNat < 2 ^ pw := by
  unfold lowBits
  rw [BitVec.toNat_ofNat]
  exact Nat.lt_of_le_of_lt (Nat.mod_le _ _) (Nat.mod_lt _ (Nat.two_pow_pos pw))

/-- What a write to a configuration register can do (rule R253). -/
theorem unlessLocked_cases (s : State) (c : Settings) :
    (∃ e, s.unlessLocked c = s.raiseError e) ∨
    (s.busy = false ∧ s.pipe = .idle ∧ s.unlessLocked c = { s with settings := c }) := by
  unfold State.unlessLocked
  split
  · exact .inl ⟨_, rfl⟩
  · split
    · exact .inl ⟨_, rfl⟩
    · rename_i h1 h2
      exact .inr ⟨by simpa using h1, by simpa using h2, rfl⟩

/-- What a write that BUSY blocks can do (rule R253). -/
theorem unlessBusy_cases (s t : State) :
    (∃ e, s.unlessBusy t = s.raiseError e) ∨ (s.busy = false ∧ s.unlessBusy t = t) := by
  unfold State.unlessBusy
  split
  · exact .inl ⟨_, rfl⟩
  · rename_i h
    exact .inr ⟨by simpa using h, rfl⟩

/-- Everything a host write can do (rules R71, R77, R90, R253): nothing; an error; a command word accepted; ERR or IRQ_STATUS
cleared; IRQ_EN or a descriptor written; a configuration register written, in IDLE only; four bytes of XRAM written. -/
inductive WriteEffect (s : State) : State → Prop where
  | ignored : WriteEffect s s
  | error (c : ErrCode) : WriteEffect s (s.raiseError c)
  | command (w : Word) (h : s.busy = false) : WriteEffect s { s with cmd := w, busy := true }
  | clearError : WriteEffect s s.clearError
  | clearIrq (b : BitVec 5) : WriteEffect s (s.clearIrq b)
  | irqEn (b : BitVec 5) : WriteEffect s { s with irqEn := b }
  | args (a b : Word) (d : BitVec 16) (h : s.busy = false) : WriteEffect s { s with argA := a, argB := b, argD := d }
  | settings (c : Settings) (h : s.busy = false) (hp : s.pipe = .idle)
      (hmin : c.devMin = s.settings.devMin ∨ c.devMin.toNat < 2 ^ s.params.pw)
      (hmax : c.devMax = s.settings.devMax ∨ c.devMax.toNat < 2 ^ s.params.pw) :
      WriteEffect s { s with settings := c }
  | xram (off : Nat) (w : Word) (h : s.busy = false) (h4 : off % 4 = 0) (hlt : off < s.params.xramBytes) :
      WriteEffect s (s.writeXram off (wordBytes w))

theorem WriteEffect.locked (s : State) (c : Settings)
    (hmin : c.devMin = s.settings.devMin ∨ c.devMin.toNat < 2 ^ s.params.pw)
    (hmax : c.devMax = s.settings.devMax ∨ c.devMax.toNat < 2 ^ s.params.pw) : WriteEffect s (s.unlessLocked c) := by
  rcases unlessLocked_cases s c with ⟨e, h⟩ | ⟨h1, h2, h⟩ <;> rw [h]
  · exact .error e
  · exact .settings c h1 h2 hmin hmax

theorem WriteEffect.whenFree (s t : State) (h : s.busy = false → WriteEffect s t) : WriteEffect s (s.unlessBusy t) := by
  rcases unlessBusy_cases s t with ⟨e, h1⟩ | ⟨h1, h2⟩
  · rw [h1]
    exact .error e
  · rw [h2]
    exact h h1

theorem writeReg_effect (s : State) (v : Word) (r : Reg) : WriteEffect s (s.writeReg v r) := by
  cases r
  case cmd =>
    show WriteEffect s (s.issueCommand v)
    unfold State.issueCommand
    split
    · exact .error _
    · rename_i h
      exact .command v (by simpa using h)
  case err =>
    show WriteEffect s (if v.getLsbD 8 then s.clearError else s)
    split
    · exact .clearError
    · exact .ignored
  case argA => exact .whenFree s _ fun h => .args v s.argB s.argD h
  case argB => exact .whenFree s _ fun h => .args s.argA v s.argD h
  case argD => exact .whenFree s _ fun h => .args s.argA s.argB (v.setWidth 16) h
  case irqStatus => exact .clearIrq _
  case irqEn => exact .irqEn _
  case ctrl => exact .locked s _ (.inl rfl) (.inl rfl)
  case center => exact .locked s _ (.inl rfl) (.inl rfl)
  case devMin => exact .locked s _ (.inr (lowBits_lt _ _)) (.inl rfl)
  case devMax => exact .locked s _ (.inl rfl) (.inr (lowBits_lt _ _))
  case syncALo => exact .locked s _ (.inl rfl) (.inl rfl)
  case syncAHi => exact .locked s _ (.inl rfl) (.inl rfl)
  case syncULo => exact .locked s _ (.inl rfl) (.inl rfl)
  case syncUHi => exact .locked s _ (.inl rfl) (.inl rfl)
  all_goals exact .ignored

/-- Everything a host write can do, once. -/
theorem busWrite_effect (s : State) (addr : BusAddr) (v : Word) : WriteEffect s (s.busWrite addr v) := by
  unfold State.busWrite
  cases ht : s.target addr
  case reg r => exact writeReg_effect s v r
  case xramWindow off =>
    have h := targetAt_xramWindow (by simp [wordAddress]) ht
    exact .whenFree s _ fun hb => .xram off v hb h.1 h.2
  all_goals exact .ignored

end Sys2Proof.Machine
end

