-- ==== Sys2Proof/Laws/Commands.lean ====
section
/-! SUPPORT. What each command can answer, once each: a command error with the effects of rule R252 and nothing else, or its
own effect under the conditions of its checks. -/

namespace Sys2Proof.Machine

/-- The outcome is a next state, which is the one expected. -/
theorem next_inj {s t : State} (h : (Host.Outcome.next s : Host.Outcome State Fault Refusal) = .next t) : t = s := by
  cases h
  rfl

/-- FIELD_BUILD (rule R120). -/
theorem execFieldBuild_cases {poly : BitVec 16} {s t : State} (h : execFieldBuild poly s = .next t) :
    (∃ c, t = s.commandError c) ∨
    (s.pipe = .idle ∧ poly.getLsbD 8 = true ∧ isPermutation (buildPower poly) = true ∧
      t = (s.commitField poly).complete) := by
  unfold execFieldBuild at h
  repeat' split at h
  all_goals have ht := next_inj h
  · exact .inl ⟨_, ht⟩
  · exact .inl ⟨_, ht⟩
  · exact .inl ⟨_, ht⟩
  · exact .inr (by simp_all)

/-- GEN_BUILD (rule R124). -/
theorem execGenBuild_cases {slot : BitVec 2} {start stop : Byte} {s t : State}
    (h : execGenBuild slot start stop s = .next t) :
    (∃ c, t = s.commandError c) ∨
    (s.pipe = .idle ∧ s.field.valid = true ∧ start.toNat ≤ stop.toNat ∧ stop.toNat ≤ 254 ∧
      t = (s.setGen (slotIndex slot) (builtSlot s.field.tables start stop)).succeed
        (BitVec.ofNat 32 (stop.toNat - start.toNat + 2))) := by
  unfold execGenBuild at h
  split at h
  · exact .inl ⟨_, next_inj h⟩
  · split at h
    · exact .inl ⟨_, next_inj h⟩
    · split at h
      · exact .inl ⟨_, next_inj h⟩
      · rename_i h1 h2 h3
        exact .inr ⟨by simpa using h1, by simpa using h2, by omega, by omega, next_inj h⟩

/-- GF_MUL (rule R122). -/
theorem execGfMul_cases {a b : Byte} {s t : State} (h : execGfMul a b s = .next t) :
    (∃ c, t = s.commandError c) ∨
    (s.field.valid = true ∧ t = s.succeed ((gfMul s.field.tables a b).setWidth 32)) := by
  unfold execGfMul at h
  split at h
  · exact .inl ⟨_, next_inj h⟩
  · rename_i h1
    exact .inr ⟨by simpa using h1, next_inj h⟩

/-- POLY_MUL (rule R123). -/
theorem execPolyMul_cases {s t : State} (h : execPolyMul s = .next t) :
    (∃ c, t = s.commandError c) ∨
    (s.field.valid = true ∧ 0 < descLen s.argA ∧ 0 < descLen s.argB ∧
      descAddr s.argA + descLen s.argA ≤ s.params.xramBytes ∧ descAddr s.argB + descLen s.argB ≤ s.params.xramBytes ∧
      s.destAddr + (descLen s.argA + descLen s.argB - 1) ≤ s.params.xramBytes ∧
      t = (s.writeXram s.destAddr (polyMul s.field.tables (s.source s.argA) (s.source s.argB))).succeed
        (BitVec.ofNat 32 (descLen s.argA + descLen s.argB - 1))) := by
  simp only [execPolyMul] at h
  split at h
  · exact .inl ⟨_, next_inj h⟩
  · split at h
    · exact .inl ⟨_, next_inj h⟩
    · split at h
      · exact .inl ⟨_, next_inj h⟩
      · rename_i h1 h2 h3
        simp only [State.sourceInBounds, State.inBounds, Bool.or_eq_true, Bool.not_eq_eq_eq_not, Bool.not_true,
          decide_eq_false_iff_not] at h3
        exact .inr ⟨by simpa using h1, by omega, by omega, by omega, by omega, by omega, next_inj h⟩

/-- REMAINDER (rule R125). -/
theorem execRemainder_cases {slot : BitVec 2} {s t : State} (h : execRemainder slot s = .next t) :
    (∃ c, t = s.commandError c) ∨
    (s.field.valid = true ∧ (s.gen (slotIndex slot)).valid = true ∧
      descAddr s.argA + descLen s.argA ≤ s.params.xramBytes ∧
      s.destAddr + ((s.gen (slotIndex slot)).len - 1) ≤ s.params.xramBytes ∧
      t = (s.writeXram s.destAddr
        (remainder s.field.tables (s.source s.argA) (s.gen (slotIndex slot)).coeffs)).succeed
        (BitVec.ofNat 32 ((s.gen (slotIndex slot)).len - 1))) := by
  simp only [execRemainder] at h
  split at h
  · exact .inl ⟨_, next_inj h⟩
  · split at h
    · exact .inl ⟨_, next_inj h⟩
    · split at h
      · exact .inl ⟨_, next_inj h⟩
      · rename_i h1 h2 h3
        simp only [State.sourceInBounds, State.inBounds, Bool.or_eq_true, Bool.not_eq_eq_eq_not, Bool.not_true,
          decide_eq_false_iff_not] at h3
        exact .inr ⟨by simpa using h1, by simpa using h2, by omega, by omega, next_inj h⟩

/-- DEMOD_INIT (rule R144). -/
theorem execDemodInit_cases {s t : State} (h : execDemodInit s = .next t) :
    (∃ c, t = s.commandError c) ∨ (s.pipe = .idle ∧ t = s.commitLut.complete) := by
  unfold execDemodInit at h
  split at h
  · exact .inl ⟨_, next_inj h⟩
  · rename_i h1
    exact .inr ⟨by simpa using h1, next_inj h⟩

/-- DEINTERLEAVE (rule R208). -/
theorem execDeinterleave_cases {s t : State} (h : execDeinterleave s = .next t) :
    (∃ c, t = s.commandError c) ∨
    (descLen s.argA = 552 ∧ descAddr s.argA + 552 ≤ s.params.xramBytes ∧ s.destAddr + 552 ≤ s.params.xramBytes ∧
      t = (s.writeXram s.destAddr (codewordMajor (s.xramRange (descAddr s.argA) 552))).succeed (BitVec.ofNat 32 552)) := by
  unfold execDeinterleave at h
  split at h
  · exact .inl ⟨_, next_inj h⟩
  · split at h
    · exact .inl ⟨_, next_inj h⟩
    · rename_i h1 h2
      simp only [State.inBounds, Bool.or_eq_true, Bool.not_eq_eq_eq_not, Bool.not_true,
        decide_eq_false_iff_not] at h2
      exact .inr ⟨by omega, by omega, by omega, next_inj h⟩

/-- VALIDATE (rule R209): whatever it finds, it writes RESULT or raises an error, and nothing else. -/
theorem execValidate_cases {variant : BitVec 2} {s t : State} (h : execValidate variant s = .next t) :
    (∃ c, t = s.commandError c) ∨
    (∃ v, variantOf variant = some v ∧ s.field.valid = true ∧ (s.gen v.slot).valid = true ∧
      (s.gen v.slot).len = v.codewordParity + 1 ∧ descLen s.argA = v.bytes ∧
      descAddr s.argA + v.bytes ≤ s.params.xramBytes ∧
      t = s.succeed (validateResult (failingCodewords s.field.tables (s.gen v.slot).coeffs v
        (s.xramRange (descAddr s.argA) v.bytes)))) := by
  unfold execValidate at h
  split at h
  · exact .inl ⟨_, next_inj h⟩
  · rename_i v hv
    have ht := next_inj h
    simp only [validateVariant] at ht
    split at ht
    · exact .inl ⟨_, ht⟩
    · split at ht
      · exact .inl ⟨_, ht⟩
      · split at ht
        · exact .inl ⟨_, ht⟩
        · split at ht
          · exact .inl ⟨_, ht⟩
          · split at ht
            · exact .inl ⟨_, ht⟩
            · rename_i h1 h2 h3 h4 h5
              exact .inr ⟨v, hv, by simpa using h1, by simpa using h2, by omega, by omega,
                by simpa [State.inBounds] using h5, ht⟩

/-- RUN (rule R229). -/
theorem execRun_cases {s t : State} (h : execRun s = .next t) :
    (∃ c, t = s.commandError c) ∨ (s.pipe = .idle ∧ s.ready = true ∧ t = s.startSession.complete) := by
  unfold execRun at h
  split at h
  · exact .inl ⟨_, next_inj h⟩
  · split at h
    · exact .inl ⟨_, next_inj h⟩
    · rename_i h1 h2
      exact .inr ⟨by simpa using h1, by simpa using h2, next_inj h⟩

/-- SHUTDOWN (rule R230). -/
theorem execShutdown_cases {s t : State} (h : execShutdown s = .next t) :
    (∃ c, t = s.commandError c) ∨ (s.pipe = .running ∧ t = s.requestStop.complete) := by
  unfold execShutdown at h
  split at h
  · exact .inl ⟨_, next_inj h⟩
  · rename_i h1
    exact .inr ⟨by simpa using h1, next_inj h⟩

end Sys2Proof.Machine
end

