-- ==== Sys2Proof/Laws/Framer.lean ====
section
/-! SUPPORT. What the framer's operations can do, once each: the dispatch leaves the framer alone, a scan ends in a tail or a
pending packet, a spill restores the framer's invariant, and an entry keeps it (rules R171 to R184). -/

namespace Sys2Proof.Machine

theorem Variant.bits_le (v : Variant) : v.bits ≤ 4416 := by cases v <;> decide

theorem Variant.bits_pos (v : Variant) : 240 ≤ v.bits := by cases v <;> decide

theorem wantedBits_le (v : Option Variant) : wantedBits v ≤ 4416 := by
  cases v with
  | none => decide
  | some v => exact v.bits_le

/-- A dispatch changes the counters and the output trace only (rules R200 to R207). -/
@[simp] theorem dispatchPacket_framer (env : WorkerEnv) (v : Variant) (bits : List Bool) (w : WorkerState) :
    (dispatchPacket env v bits w).framer = w.framer := by
  simp only [dispatchPacket, rawEmit, validatePacket, WorkerState.emit]
  repeat' split
  all_goals rfl

/-- A dispatch inside a spill leaves the framer SEARCHING and otherwise as it was (rules R171, R173). -/
theorem dispatching_framer (env : WorkerEnv) (v : Variant) (bits : List Bool) (w : WorkerState) :
    (dispatching env v bits w).framer = { w.framer with fstate := .searching } := by
  simp [dispatching, WorkerState.setFramerState]

/-- What a spill never changes of the framer: the run length and the pairing state (rules R170 to R178). -/
structure SameRun (f f' : Framer) : Prop where
  runLen : f'.runLen = f.runLen
  prev : f'.prev = f.prev
  prevValid : f'.prevValid = f.prevValid
  pairPhase : f'.pairPhase = f.pairPhase

theorem SameRun.refl (f : Framer) : SameRun f f := ⟨rfl, rfl, rfl, rfl⟩

theorem SameRun.trans {f g h : Framer} (a : SameRun f g) (b : SameRun g h) : SameRun f h :=
  ⟨b.runLen.trans a.runLen, b.prev.trans a.prev, b.prevValid.trans a.prevValid, b.pairPhase.trans a.pairPhase⟩

/-- The framer as a SEAM spill leaves it: its invariant holds and the accumulator has room (rules R176, R178, R181, R184). -/
structure Settled (p : Config.Params) (f : Framer) : Prop where
  inv : FramerInv p f
  room : f.acc.length < p.accCap

/-- The framer as a BREAK spill leaves it (rules R171, R176, R178). -/
structure Cleared (f : Framer) : Prop where
  acc : f.acc = []
  cont : f.cont = .none
  fstate : f.fstate = .searching

theorem Cleared.settled {p : Config.Params} (hcap : 4416 ≤ p.accCap) {f : Framer} (h : Cleared f) : Settled p f where
  inv := { acc_bounded := by simp [h.acc]
           searching := fun _ => ⟨h.fstate, by simp [h.acc]⟩
           undetermined := fun hc => by simp [h.cont] at hc
           awaiting := fun v hc => by simp [h.cont] at hc }
  room := by simp [h.acc]; omega

theorem activeVariant_none {bits : List Bool} (h : activeVariant bits = none) : bits.length < 5 := by
  unfold activeVariant at h
  split at h
  · assumption
  · split at h <;> cases h

/-- What a spill can answer (rules R171 to R178): at a SEAM a framer that has settled, at a BREAK one that is cleared, and the
run length and the pairing state as they were. -/
def SpillAnswers (p : Config.Params) (kind : SpillKind) (f : Framer) (r : Progress) : Prop :=
  ∃ w', r = .going w' ∧ SameRun f w'.framer ∧
    match kind with
    | .seam => Settled p w'.framer
    | .brk => Cleared w'.framer

theorem shortfall_answers {env : WorkerEnv} (hcap : 4416 ≤ env.params.accCap) (kind : SpillKind) {rest : List Bool}
    {v : Option Variant} {w : WorkerState} (hnone : v = none → rest.length < 5)
    (hsome : ∀ u, v = some u → rest.length < u.bits) :
    SpillAnswers env.params kind w.framer (shortfall env kind rest v w) := by
  cases kind with
  | brk => exact ⟨_, rfl, ⟨rfl, rfl, rfl, rfl⟩, ⟨rfl, rfl, rfl⟩⟩
  | seam =>
    have hw := wantedBits_le v
    have hn : ¬ env.params.accCap < wantedBits v := by omega
    simp only [shortfall, if_neg hn]
    have hroom : rest.length < env.params.accCap := by
      cases v with
      | none => have := hnone rfl; omega
      | some u => have := hsome u rfl; have := u.bits_le; omega
    refine ⟨_, rfl, ⟨rfl, rfl, rfl, rfl⟩, ⟨⟨?_, ?_, ?_, ?_⟩, ?_⟩⟩
    · simpa using Nat.le_of_lt hroom
    · cases v <;> simp [contOf]
    · cases v with
      | none => exact fun _ => ⟨rfl, by simpa using hnone rfl⟩
      | some u => simp [contOf]
    · cases v with
      | none => simp [contOf]
      | some u =>
        intro x hx
        simp only [contOf, WorkerState.setPending_cont, ContKind.pending.injEq] at hx
        subst hx
        exact ⟨rfl, by simpa using hsome u rfl⟩
    · simpa using hroom

theorem spillTail_answers {p : Config.Params} (hcap : 4416 ≤ p.accCap) (kind : SpillKind) {rest : List Bool} {w : WorkerState}
    (hc : w.framer.cont = .none) (hlen : rest.length ≤ 35) :
    SpillAnswers p kind w.framer (.going (spillTail kind rest w)) := by
  cases kind with
  | brk => exact ⟨_, rfl, ⟨rfl, rfl, rfl, rfl⟩, ⟨rfl, by simpa [spillTail] using hc, rfl⟩⟩
  | seam =>
    refine ⟨_, rfl, ⟨rfl, rfl, rfl, rfl⟩, ⟨⟨?_, ?_, ?_, ?_⟩, ?_⟩⟩
    · simp [spillTail]; omega
    · simp [spillTail, hlen]
    · simp [spillTail, hc]
    · simp [spillTail, hc]
    · simp [spillTail]; omega

/-- What the sync scan can answer (rules R173 to R178), once and for all. -/
theorem scan_answers {env : WorkerEnv} (hcap : 4416 ≤ env.params.accCap) (kind : SpillKind) :
    ∀ (fuel : Nat) (rest : List Bool) (w : WorkerState), rest.length < fuel → w.framer.cont = .none →
      SpillAnswers env.params kind w.framer (scan env kind fuel rest w) := by
  intro fuel
  induction fuel with
  | zero => intro rest w h; omega
  | succ fuel ih =>
    intro rest w hf hc
    unfold scan
    split
    · rename_i hlt
      exact spillTail_answers hcap kind hc (by simp at hlt; omega)
    · rename_i hge
      have hge' : 36 ≤ rest.length := by simp at hge; omega
      split
      · split
        · rename_i hv
          exact shortfall_answers hcap kind (w := w.countSyncA) (fun _ => activeVariant_none hv) (fun u hu => by cases hu)
        · rename_i v hv
          split
          · obtain ⟨w', h1, h2, h3⟩ := ih ((rest.drop 36).drop v.bits)
              (dispatching env v ((rest.drop 36).take v.bits) w.countSyncA) (by simp; omega)
              (by simp [dispatching_framer, hc])
            exact ⟨w', h1, SameRun.trans (by rw [dispatching_framer]; exact ⟨rfl, rfl, rfl, rfl⟩) h2, h3⟩
          · exact shortfall_answers hcap kind (w := w.countSyncA) (fun h => by cases h)
              (fun u hu => by cases hu; omega)
      · split
        · split
          · obtain ⟨w', h1, h2, h3⟩ := ih ((rest.drop 36).drop Variant.uplink.bits)
              (dispatching env .uplink ((rest.drop 36).take Variant.uplink.bits) w.countSyncU) (by simp; omega)
              (by simp [dispatching_framer, hc])
            exact ⟨w', h1, SameRun.trans (by rw [dispatching_framer]; exact ⟨rfl, rfl, rfl, rfl⟩) h2, h3⟩
          · exact shortfall_answers hcap kind (w := w.countSyncU) (fun h => by cases h)
              (fun u hu => by cases hu; omega)
        · exact ih (rest.drop 1) w (by simp; omega) hc

theorem scanFrom_answers {env : WorkerEnv} (hcap : 4416 ≤ env.params.accCap) (kind : SpillKind) (rest : List Bool)
    (w : WorkerState) (hc : w.framer.cont = .none) :
    SpillAnswers env.params kind w.framer (scanFrom env kind rest w) :=
  scan_answers hcap kind (rest.length + 1) rest w (Nat.lt_succ_self _) hc

theorem awaitOrTruncate_answers {p : Config.Params} (hcap : 4416 ≤ p.accCap) (kind : SpillKind) {cont : ContKind}
    {w : WorkerState} (hundet : cont = .undet → w.framer.acc.length < 5)
    (hpending : ∀ v, cont = .pending v → w.framer.acc.length < v.bits) (hne : cont ≠ .none) :
    SpillAnswers p kind w.framer (.going (awaitOrTruncate kind cont w)) := by
  cases kind with
  | brk => exact ⟨_, rfl, ⟨rfl, rfl, rfl, rfl⟩, ⟨rfl, rfl, rfl⟩⟩
  | seam =>
    have hlen : w.framer.acc.length < p.accCap := by
      cases cont with
      | none => exact absurd rfl hne
      | undet => have := hundet rfl; omega
      | pending v => have := hpending v rfl; have := v.bits_le; omega
    refine ⟨_, rfl, ⟨rfl, rfl, rfl, rfl⟩, ⟨⟨?_, ?_, ?_, ?_⟩, ?_⟩⟩
    · simpa [awaitOrTruncate] using Nat.le_of_lt hlen
    · exact fun h => absurd h hne
    · exact fun h => ⟨rfl, by simpa [awaitOrTruncate] using hundet h⟩
    · exact fun v h => ⟨rfl, by simpa [awaitOrTruncate] using hpending v h⟩
    · simpa [awaitOrTruncate] using hlen

/-- What a spill can answer, whatever the framer holds (rules R170 to R181): with a legal ACC_CAP it never raises a Fatal. -/
theorem spill_answers {env : WorkerEnv} (hcap : 4416 ≤ env.params.accCap) (kind : SpillKind) (w : WorkerState) :
    SpillAnswers env.params kind w.framer (spill env kind w) := by
  unfold spill
  split
  · rename_i h
    refine scanFrom_answers hcap kind _ w ?_
    unfold resolvedCont at h
    split at h
    · split at h <;> cases h
    · exact h
  · rename_i h
    refine awaitOrTruncate_answers hcap kind (fun _ => ?_) (fun v hv => by cases hv) (by simp)
    unfold resolvedCont at h
    split at h
    · split at h
      · rename_i hv
        exact activeVariant_none hv
      · cases h
    · rename_i hu
      exact absurd h hu
  · rename_i v h
    split
    · obtain ⟨w', h1, h2, h3⟩ := scanFrom_answers hcap kind (w.framer.acc.drop v.bits)
        { dispatching env v (w.framer.acc.take v.bits) w with
          framer := { (dispatching env v (w.framer.acc.take v.bits) w).framer with cont := .none } } rfl
      exact ⟨w', h1, SameRun.trans (by simp only [dispatching_framer]; exact ⟨rfl, rfl, rfl, rfl⟩) h2, h3⟩
    · exact awaitOrTruncate_answers hcap kind (fun h => by cases h) (fun u hu => by cases hu; omega) (by simp)

/-- The framer inside an entry: the accumulator within its cap, and the state named by the continuation (rules R179, R181). -/
structure Midway (p : Config.Params) (f : Framer) : Prop where
  acc_bounded : f.acc.length ≤ p.accCap
  fstate : f.fstate = if f.cont = .none then .searching else .awaitingContinuation

theorem Settled.midway {p : Config.Params} {f : Framer} (h : Settled p f) : Midway p f where
  acc_bounded := h.inv.acc_bounded
  fstate := by
    split
    · rename_i hc
      exact (h.inv.searching hc).1
    · rename_i hc
      cases hcont : f.cont with
      | none => exact absurd hcont hc
      | undet => exact (h.inv.undetermined hcont).1
      | pending v => exact (h.inv.awaiting v hcont).1

theorem FramerInv.midway {p : Config.Params} {f : Framer} (h : FramerInv p f) : Midway p f where
  acc_bounded := h.acc_bounded
  fstate := by
    split
    · rename_i hc
      exact (h.searching hc).1
    · rename_i hc
      cases hcont : f.cont with
      | none => exact absurd hcont hc
      | undet => exact (h.undetermined hcont).1
      | pending v => exact (h.awaiting v hcont).1

/-- What the end of a run can do (rule R167). -/
theorem breakRun_midway {env : WorkerEnv} (hcap : 4416 ≤ env.params.accCap) {w : WorkerState}
    (h : Midway env.params w.framer) : ∃ w', breakRun env w = .going w' ∧ Midway env.params w'.framer := by
  unfold breakRun
  split
  · obtain ⟨w', h1, h2, h3⟩ := spill_answers hcap .brk w
    refine ⟨w'.clearRun, by rw [h1]; rfl, ?_⟩
    have h4 := (Cleared.settled hcap h3).midway
    exact ⟨h4.acc_bounded, h4.fstate⟩
  · exact ⟨_, rfl, h.acc_bounded, h.fstate⟩

theorem append_midway {p : Config.Params} {w : WorkerState} (b : Bool) (h : Midway p w.framer)
    (hroom : w.framer.acc.length < p.accCap) : Midway p (w.append b).framer where
  acc_bounded := by simp; omega
  fstate := h.fstate

/-- What one delta can do (rules R163 to R166, R180, R181): with a legal ACC_CAP no Fatal. -/
theorem slice_midway {env : WorkerEnv} (hcap : 4416 ≤ env.params.accCap) (d : Phase) {w : WorkerState}
    (h : Midway env.params w.framer) : ∃ w', slice env d w = .going w' ∧ Midway env.params w'.framer := by
  unfold slice
  split
  · split
    · obtain ⟨w', h1, h2, h3⟩ := spill_answers hcap .seam w
      have hne : w'.framer.acc.length ≠ env.params.accCap := Nat.ne_of_lt h3.room
      exact ⟨w'.append (bitOf d), by rw [h1]; simp [appendOrOverflow, hne], append_midway _ h3.midway h3.room⟩
    · rename_i hne
      exact ⟨_, rfl, append_midway _ h (Nat.lt_of_le_of_ne h.acc_bounded hne)⟩
  · exact breakRun_midway hcap h

/-- What one phase sample can do (rule R161). -/
theorem sample_midway {env : WorkerEnv} (hcap : 4416 ≤ env.params.accCap) (x : Phase) {w : WorkerState}
    (h : Midway env.params w.framer) : ∃ w', sample env x w = .going w' ∧ Midway env.params w'.framer := by
  have hc : Midway env.params w.countSample.framer := ⟨h.acc_bounded, h.fstate⟩
  simp only [sample]
  split
  · split
    · obtain ⟨w', h1, h2⟩ := slice_midway hcap (deltaOf env.params w.countSample.framer.prev x) hc
      exact ⟨w'.setPrev x, by rw [h1]; rfl, h2.acc_bounded, h2.fstate⟩
    · exact ⟨_, rfl, hc.acc_bounded, hc.fstate⟩
  · split
    · obtain ⟨w', h1, h2⟩ := slice_midway hcap (deltaOf env.params w.countSample.framer.prev x) hc
      exact ⟨w'.togglePair.setPrev x, by rw [h1]; rfl, h2.acc_bounded, h2.fstate⟩
    · exact ⟨_, rfl, hc.acc_bounded, hc.fstate⟩

/-- What the samples of an entry can do (rule R160). -/
theorem samples_midway {env : WorkerEnv} (hcap : 4416 ≤ env.params.accCap) :
    ∀ (l : List Phase) {w : WorkerState}, Midway env.params w.framer →
      ∃ w', samples env l w = .going w' ∧ Midway env.params w'.framer
  | [], w, h => ⟨w, rfl, h⟩
  | x :: l, w, h => by
    obtain ⟨w1, h1, h2⟩ := sample_midway hcap x h
    obtain ⟨w2, h3, h4⟩ := samples_midway hcap l h2
    exact ⟨w2, by simp [samples, h1, h3], h4⟩

/-- What a whole entry can do (rules R160, R169, R184): with a legal ACC_CAP it ends without a Fatal, settled. -/
theorem processEntry_settles {env : WorkerEnv} (hcap : 4416 ≤ env.params.accCap) (e : FifoEntry) {w : WorkerState}
    (h : Midway env.params w.framer) : ∃ w', processEntry env e w = .going w' ∧ Settled env.params w'.framer := by
  have hd : ∃ w1, discontinuity env e.discont w = .going w1 ∧ Midway env.params w1.framer := by
    unfold discontinuity
    split
    · obtain ⟨w1, h1, h2⟩ := breakRun_midway hcap h
      exact ⟨w1.forgetPrev, by rw [h1]; rfl, h2.acc_bounded, h2.fstate⟩
    · exact ⟨w, rfl, h⟩
  obtain ⟨w1, h1, h2⟩ := hd
  obtain ⟨w2, h3, h4⟩ := samples_midway hcap e.phases h2
  obtain ⟨w3, h5, h6, h7⟩ := spill_answers hcap .seam w2
  exact ⟨w3, by simp [processEntry, h1, h3, h5], h7⟩

/-! ### PREV -/

/-- The worker's state where the processing stands, a Fatal or not. -/
def Progress.worker : Progress → WorkerState
  | .going w => w
  | .fatal _ w => w

@[simp] theorem Progress.worker_going (w : WorkerState) : (Progress.going w).worker = w := rfl

@[simp] theorem Progress.worker_fatal (c : FatalCode) (w : WorkerState) : (Progress.fatal c w).worker = w := rfl

/-- An operation whose every outcome keeps a property keeps it after any outcome of the one before. -/
theorem Progress.andThen_worker {P : WorkerState → Prop} {p : Progress} {f : WorkerState → Progress} (hp : P p.worker)
    (hf : ∀ w, P w → P (f w).worker) : P (p.andThen f).worker := by
  cases p with
  | going w => exact hf w hp
  | fatal c w => exact hp

@[simp] theorem shortfall_prev (env : WorkerEnv) (kind : SpillKind) (rest : List Bool) (v : Option Variant) (w : WorkerState) :
    (shortfall env kind rest v w).worker.framer.prev = w.framer.prev := by
  unfold shortfall
  split
  · split <;> rfl
  · rfl

@[simp] theorem spillTail_prev (kind : SpillKind) (rest : List Bool) (w : WorkerState) :
    (spillTail kind rest w).framer.prev = w.framer.prev := by
  cases kind <;> rfl

/-- A scan leaves PREV alone, faulting or not (rules R173 to R178). -/
theorem scan_prev (env : WorkerEnv) (kind : SpillKind) :
    ∀ (fuel : Nat) (rest : List Bool) (w : WorkerState), (scan env kind fuel rest w).worker.framer.prev = w.framer.prev := by
  intro fuel
  induction fuel with
  | zero => exact fun rest w => spillTail_prev kind rest w
  | succ fuel ih =>
    intro rest w
    unfold scan
    repeat' split
    all_goals simp [ih, dispatching_framer]

/-- A spill leaves PREV alone, faulting or not (rules R170 to R178). -/
@[simp] theorem spill_prev (env : WorkerEnv) (kind : SpillKind) (w : WorkerState) :
    (spill env kind w).worker.framer.prev = w.framer.prev := by
  unfold spill scanFrom
  split
  · exact scan_prev env kind _ _ _
  · cases kind <;> rfl
  · split
    · rw [scan_prev, dispatching_framer]
    · cases kind <;> rfl

@[simp] theorem breakRun_prev (env : WorkerEnv) (w : WorkerState) :
    (breakRun env w).worker.framer.prev = w.framer.prev := by
  unfold breakRun
  split
  · exact Progress.andThen_worker (P := fun u => u.framer.prev = w.framer.prev) (spill_prev env .brk w) fun _ h => h
  · rfl

@[simp] theorem slice_prev (env : WorkerEnv) (d : Phase) (w : WorkerState) :
    (slice env d w).worker.framer.prev = w.framer.prev := by
  unfold slice
  split
  · split
    · refine Progress.andThen_worker (P := fun u => u.framer.prev = w.framer.prev) (spill_prev env .seam w) fun u h => ?_
      unfold appendOrOverflow
      split <;> exact h
    · rfl
  · exact breakRun_prev env w

/-- After a phase sample PREV holds that phase, or, where a Fatal ended the step, what it held (rule R161). -/
theorem sample_prev (env : WorkerEnv) (x : Phase) (w : WorkerState) :
    (sample env x w).worker.framer.prev = x ∨ (sample env x w).worker.framer.prev = w.framer.prev := by
  have hs := slice_prev env (deltaOf env.params w.countSample.framer.prev x) w.countSample
  simp only [sample]
  repeat' split
  · cases h : slice env (deltaOf env.params w.countSample.framer.prev x) w.countSample with
    | going u => exact .inl rfl
    | fatal c u => exact .inr (by rw [h] at hs; exact hs)
  · exact .inl rfl
  · cases h : slice env (deltaOf env.params w.countSample.framer.prev x) w.countSample with
    | going u => exact .inl rfl
    | fatal c u => exact .inr (by rw [h] at hs; exact hs)
  · exact .inl rfl

/-- After the samples of an entry PREV holds one of its phases or what it held (rules R160, R161). -/
theorem samples_prev (env : WorkerEnv) (l : List Phase) (w : WorkerState) :
    (samples env l w).worker.framer.prev ∈ l ∨ (samples env l w).worker.framer.prev = w.framer.prev := by
  induction l generalizing w with
  | nil => exact .inr rfl
  | cons x l ih =>
    have hx := sample_prev env x w
    simp only [samples]
    cases h : sample env x w with
    | fatal c u =>
      rw [h] at hx
      rcases hx with hx | hx
      · exact .inl (by simp only [Progress.andThen, Progress.worker_fatal]; simp at hx; simp [hx])
      · exact .inr hx
    | going u =>
      rw [h] at hx
      simp only [Progress.andThen]
      rcases ih u with h1 | h1
      · exact .inl (List.mem_cons_of_mem _ h1)
      · rcases hx with hx | hx
        · exact .inl (by rw [h1]; simp at hx; simp [hx])
        · exact .inr (h1.trans hx)

/-- After an entry PREV holds one of its phases or what it held, a Fatal or not (rule R160). -/
theorem processEntry_prev (env : WorkerEnv) (e : FifoEntry) (w : WorkerState) :
    (processEntry env e w).worker.framer.prev ∈ e.phases ∨ (processEntry env e w).worker.framer.prev = w.framer.prev := by
  have hd : (discontinuity env e.discont w).worker.framer.prev = w.framer.prev := by
    unfold discontinuity
    split
    · exact Progress.andThen_worker (P := fun u => u.framer.prev = w.framer.prev) (breakRun_prev env w) fun _ h => h
    · rfl
  refine Progress.andThen_worker (P := fun u => u.framer.prev ∈ e.phases ∨ u.framer.prev = w.framer.prev) ?_
    fun u h => by rw [spill_prev]; exact h
  refine Progress.andThen_worker (P := fun u => u.framer.prev ∈ e.phases ∨ u.framer.prev = w.framer.prev) (.inr hd)
    fun u h => ?_
  rcases samples_prev env e.phases u with h1 | h1
  · exact .inl h1
  · rw [h1]
    exact h

end Sys2Proof.Machine
end

