-- ==== Sys2Proof/Laws/Field.lean ====
section
/-! SUPPORT. The lengths of what the byte-sequence functions return (rules R117, R119, R202). -/

namespace Sys2Proof.Machine

@[simp] theorem xorAligned_nil_left (ys : List Byte) : xorAligned [] ys = ys := rfl

@[simp] theorem xorAligned_nil_right (xs : List Byte) : xorAligned xs [] = xs := by cases xs <;> rfl

@[simp] theorem xorAligned_cons (x y : Byte) (xs ys : List Byte) :
    xorAligned (x :: xs) (y :: ys) = gfAdd x y :: xorAligned xs ys := rfl

@[simp] theorem xorAligned_length (xs ys : List Byte) : (xorAligned xs ys).length = max xs.length ys.length := by
  induction xs generalizing ys with
  | nil => simp
  | cons x xs ih =>
    cases ys with
    | nil => simp
    | cons y ys => simp [ih]

theorem polyMul_cons_cons (t : FieldTables) (x y : Byte) (xs b : List Byte) :
    polyMul t (x :: y :: xs) b = xorAligned (b.map (gfMul t x)) (0x00 :: polyMul t (y :: xs) b) := rfl

/-- A product has one coefficient less than its factors together (rule R117). -/
theorem polyMul_cons_length (t : FieldTables) (x : Byte) (xs b : List Byte) :
    (polyMul t (x :: xs) b).length = xs.length + b.length := by
  induction xs generalizing x with
  | nil => simp [polyMul]
  | cons y xs ih =>
    rw [polyMul_cons_cons, xorAligned_length, List.length_cons, ih, List.length_map, List.length_cons]
    omega

/-- `k` division steps discard `k` coefficients of a remainder that has at least the parity length to go on (rule R119). -/
theorem reduceSteps_length (t : FieldTables) (tail : List Byte) (k : Nat) (r : List Byte) (h : r.length = k + tail.length) :
    (reduceSteps t tail k r).length = tail.length := by
  induction k generalizing r with
  | zero => simpa [reduceSteps] using h
  | succ k ih =>
    cases r with
    | nil => simp at h; omega
    | cons f r =>
      simp only [List.length_cons] at h
      refine ih _ ?_
      split
      · omega
      · simp; omega

/-- The remainder has the parity length (rule R119). -/
theorem remainder_length_tail (t : FieldTables) (m g : List Byte) : (remainder t m g).length = g.tail.length :=
  reduceSteps_length t g.tail m.length _ (by simp)

@[simp] theorem codeword_length (packet : List Byte) (c : Nat) : (codeword packet c).length = 92 := by simp [codeword]

/-- DEINTERLEAVE writes 552 bytes (rule R208). -/
theorem codewordMajor_length (packet : List Byte) : (codewordMajor packet).length = 552 := by
  simp [codewordMajor, deinterleave, List.range_succ]

end Sys2Proof.Machine
end

