-- ==== Sys2Proof/Laws/PerInstr.lean ====
section
/-! SUPPORT. The per-command family EncodesRow: the word the encoder writes for a command lies in the command's own row of
`spec/opcode_table.json` (its mask and its match), with every value of every operand. The masks and matches are copied from
the table, not computed from the model. -/

namespace Sys2Proof.Laws.EncodesRow

/-- The row's mask. -/
def mask : Instr → Word
  | .nop => 0xFFFFFFFF
  | .fieldBuild _ => 0xFFFF0000
  | .genBuild _ _ _ => 0xFF0000FC
  | .gfAdd _ _ => 0xFFFF0000
  | .gfMul _ _ => 0xFFFF0000
  | .polyMul => 0xFFFFFFFF
  | .remainder _ => 0xFFFFFFFC
  | .demodInit => 0xFFFFFFFF
  | .deinterleave => 0xFFFFFFFF
  | .validate _ => 0xFFFFFFFC
  | .run => 0xFFFFFFFF
  | .shutdown => 0xFFFFFFFF
  | .clearStats => 0xFFFFFFFF

/-- The row's match. -/
def pattern : Instr → Word
  | .nop => 0x00000000
  | .fieldBuild _ => 0x01000000
  | .genBuild _ _ _ => 0x02000000
  | .gfAdd _ _ => 0x03000000
  | .gfMul _ _ => 0x04000000
  | .polyMul => 0x05000000
  | .remainder _ => 0x06000000
  | .demodInit => 0x08000000
  | .deinterleave => 0x0A000000
  | .validate _ => 0x0B000000
  | .run => 0x10000000
  | .shutdown => 0x11000000
  | .clearStats => 0x12000000

/-- The command's word matches the command's row. -/
def Statement (i : Instr) : Prop := encode i &&& mask i = pattern i

theorem nop : Statement .nop := by unfold Statement; decide

theorem fieldBuild (poly : BitVec 16) : Statement (.fieldBuild poly) := by
  unfold Statement encode commandWord mask pattern
  ext k hk
  interval_cases k <;> simp

theorem genBuild (slot : BitVec 2) (start stop : Byte) : Statement (.genBuild slot start stop) := by
  unfold Statement encode commandWord generatorOperands mask pattern
  ext k hk
  interval_cases k <;> simp

theorem gfAdd (a b : Byte) : Statement (.gfAdd a b) := by
  unfold Statement encode commandWord bytesOperands mask pattern
  ext k hk
  interval_cases k <;> simp

theorem gfMul (a b : Byte) : Statement (.gfMul a b) := by
  unfold Statement encode commandWord bytesOperands mask pattern
  ext k hk
  interval_cases k <;> simp

theorem polyMul : Statement .polyMul := by unfold Statement; decide

theorem remainder (slot : BitVec 2) : Statement (.remainder slot) := by
  unfold Statement encode commandWord mask pattern
  ext k hk
  interval_cases k <;> simp

theorem demodInit : Statement .demodInit := by unfold Statement; decide

theorem deinterleave : Statement .deinterleave := by unfold Statement; decide

theorem validate (variant : BitVec 2) : Statement (.validate variant) := by
  unfold Statement encode commandWord mask pattern
  ext k hk
  interval_cases k <;> simp

theorem run : Statement .run := by unfold Statement; decide

theorem shutdown : Statement .shutdown := by unfold Statement; decide

theorem clearStats : Statement .clearStats := by unfold Statement; decide

end Sys2Proof.Laws.EncodesRow
end

