-- ==== Sys2Proof/Laws/Pipeline.lean ====
section
/-! SUPPORT. What the producer and the worker can do, once each (rules R223, R226, R228, R256). -/

namespace Sys2Proof.Machine

/-- Everything the producer can do with a buffer (rules R223, R236). -/
inductive ProducerEffect (s : State) (b : List Byte) : State → Prop where
  | discarded (h : s.pipe ≠ .running) : ProducerEffect s b s
  | oversize (h : s.pipe = .running) (hn : s.params.slotBytes < b.length) :
      ProducerEffect s b (s.receive b).dropOversize
  | full (h : s.pipe = .running) (hn : b.length ≤ s.params.slotBytes) (hc : s.fifo.count = s.params.qcap) :
      ProducerEffect s b (s.receive b).dropFull
  | pushed (h : s.pipe = .running) (hn : b.length ≤ s.params.slotBytes) (hc : s.fifo.count ≠ s.params.qcap) :
      ProducerEffect s b ((s.receive b).enqueue b)

/-- What the producer can do, once. -/
theorem producerStep_effect (s : State) (b : List Byte) : ProducerEffect s b (s.producerStep b) := by
  unfold State.producerStep
  split
  · rename_i h
    exact .discarded h
  · rename_i h
    have hr : s.pipe = .running := by simpa using h
    split
    · rename_i hn
      exact .oversize hr hn
    · rename_i hn
      split
      · rename_i hc
        exact .full hr (by omega) hc
      · rename_i hc
        exact .pushed hr (by omega) hc

/-- The worker is enabled in RUNNING or STOPPING only, with the flag set or an entry queued (rule R226). -/
theorem workerEnabled_iff (s : State) : s.workerEnabled = true ↔
    (s.pipe = .running ∨ s.pipe = .stopping) ∧ (s.fifo.shutdownFlag = true ∨ 0 < s.fifo.count) := by
  simp [State.workerEnabled]

/-- Everything the worker can do (rules R226 to R228, R256): wait, stop, process an entry to its end, or fault inside it. -/
inductive WorkerEffect (s : State) : State → Prop where
  | waiting (h : s.workerEnabled = false) : WorkerEffect s s
  | stopped (h : s.workerEnabled = true) (hf : s.fifo.shutdownFlag = true) : WorkerEffect s s.stop
  | processed (w : WorkerState) (h : s.workerEnabled = true) (hf : s.fifo.shutdownFlag = false)
      (hp : processEntry s.workerEnv s.fifo.front s.workerState = .going w) :
      WorkerEffect s (State.withWorker w { s with fifo := s.fifo.pop s.params.qcap })
  | faulted (c : FatalCode) (w : WorkerState) (h : s.workerEnabled = true) (hf : s.fifo.shutdownFlag = false)
      (hp : processEntry s.workerEnv s.fifo.front s.workerState = .fatal c w) :
      WorkerEffect s (State.raiseFatal c (State.withWorker w { s with fifo := s.fifo.pop s.params.qcap }))

/-- What the worker can do, once. -/
theorem workerStep_effect (s : State) : WorkerEffect s s.workerStep := by
  unfold State.workerStep
  split
  · rename_i h
    split
    · rename_i hf
      exact .stopped h hf
    · rename_i hf
      have hf' : s.fifo.shutdownFlag = false := by simpa using hf
      unfold State.processFront
      cases hp : processEntry s.workerEnv s.fifo.front s.workerState with
      | going w => exact .processed w h hf' hp
      | fatal c w => exact .faulted c w h hf' hp
  · rename_i h
    exact .waiting (by simpa using h)

/-- A pop takes the front index around the ring and one off the count (rule R222). -/
theorem Fifo.pop_keeps (p : Config.Params) {f : Fifo} (h : FifoInv p f) (hc : 0 < f.count) : FifoInv p (f.pop p.qcap) where
  slots := h.slots
  head := Nat.mod_lt _ (by have := h.head; omega)
  count := by have := h.count; simp [Fifo.pop]; omega
  tail := by
    have := h.tail
    simp only [Fifo.pop]
    rw [this, Nat.mod_add_mod]
    congr 1
    omega

/-- A push keeps the ring (rule R221). -/
theorem Fifo.push_keeps (p : Config.Params) (e : FifoEntry) {f : Fifo} (h : FifoInv p f) (hc : f.count < p.qcap) :
    FifoInv p (f.push p.qcap e) where
  slots := by simpa [Fifo.push] using h.slots
  head := h.head
  count := by simp [Fifo.push]; omega
  tail := by
    have := h.tail
    simp only [Fifo.push]
    rw [this, Nat.mod_add_mod]
    congr 1

/-- An empty ring (rules R228, R229). -/
theorem Fifo.cleared_keeps (p : Config.Params) {f : Fifo} (h : FifoInv p f) : FifoInv p f.cleared where
  slots := h.slots
  head := by have := h.head; simp [Fifo.cleared]; omega
  count := by simp [Fifo.cleared]
  tail := by simp [Fifo.cleared]

/-- The framer that RUN and stop() leave meets the framer's invariant (rules R184, R228, R229). -/
theorem Framer.cleared_inv (p : Config.Params) (f : Framer) : FramerInv p f.cleared where
  acc_bounded := Nat.zero_le _
  searching := fun _ => ⟨rfl, Nat.zero_le _⟩
  undetermined := fun h => by cases h
  awaiting := fun _ h => by cases h

theorem two_pow_pred {pw : Nat} (h : 1 ≤ pw) : 2 ^ pw = 2 * 2 ^ (pw - 1) := by
  obtain ⟨n, rfl⟩ := Nat.exists_eq_add_of_le' h
  rw [Nat.pow_succ, Nat.add_sub_cancel, Nat.mul_comm]

/-- `sext_PW` narrows to PW bits (rules R12, R141). -/
theorem sextPW_inRange {pw : Nat} (h : 1 ≤ pw) (v : Int) : PhaseInRange pw (sextPW pw v) := by
  have h1 := Int.le_bmod (x := v) (m := 2 ^ pw) (Nat.two_pow_pos pw)
  have h2 := Int.bmod_lt (x := v) (m := 2 ^ pw) (Nat.two_pow_pos pw)
  have hz : (2 : Int) ^ (pw - 1) = ((2 ^ (pw - 1) : Nat) : Int) := (Int.natCast_pow 2 (pw - 1)).symm
  unfold sextPW PhaseInRange
  rw [hz]
  rw [two_pow_pred h] at h1 h2 ⊢
  generalize (2 ^ (pw - 1) : Nat) = c at h1 h2 ⊢
  have h3 : (((2 * c : Nat) : Int) + 1) / 2 = c := by omega
  have h4 : ((2 * c : Nat) : Int) / 2 = c := by omega
  rw [h3] at h2
  rw [h4] at h1
  exact ⟨h1, h2⟩

/-- A table entry fits PW bits (rules R44, R142). -/
theorem State.lut_inRange {s : State} (h : 1 ≤ s.params.pw) (i q : Byte) : PhaseInRange s.params.pw (s.lut i q) :=
  sextPW_inRange h _

/-- Every phase the demodulator makes fits PW bits (rules R47, R145). -/
theorem demodulate_inRange {s : State} (h : 1 ≤ s.params.pw) :
    ∀ b : List Byte, ∀ x ∈ demodulate s b, PhaseInRange s.params.pw x
  | [], x, hx => by simp [demodulate] at hx
  | [_], x, hx => by simp [demodulate] at hx
  | i :: q :: rest, x, hx => by
    rcases List.mem_cons.1 hx with rfl | hx
    · exact State.lut_inRange h i q
    · exact demodulate_inRange h rest x hx

theorem lastN_length {α : Type} (n : Nat) (l : List α) : (lastN n l).length = min n l.length := by
  simp only [lastN, List.length_drop]
  omega

end Sys2Proof.Machine
end

