-- ==== Sys2Proof/Laws/Step.lean ====
section
/-! SUPPORT. What a command, an event and a step can do, once each: every invariant is a case analysis over these; and what
a run can do, once: what every step keeps holds along it. -/

namespace Sys2Proof.Machine

/-- Everything a command can do to the state it executes in (rule R252 and the command rules). -/
inductive CommandEffect (s : State) : State → Prop where
  | failed (c : ErrCode) : CommandEffect s (s.commandError c)
  | nothing : CommandEffect s s.complete
  | result (w : Word) : CommandEffect s (s.succeed w)
  | field (poly : BitVec 16) (hp : s.pipe = .idle) (h8 : poly.getLsbD 8 = true)
      (hperm : isPermutation (buildPower poly) = true) : CommandEffect s (s.commitField poly).complete
  | slot (k : Fin Config.ngen) (start stop : Byte) (w : Word) (hp : s.pipe = .idle) (hf : s.field.valid = true)
      (h1 : start.toNat ≤ stop.toNat) (h2 : stop.toNat ≤ 254) :
      CommandEffect s ((s.setGen k (builtSlot s.field.tables start stop)).succeed w)
  | table (hp : s.pipe = .idle) : CommandEffect s s.commitLut.complete
  | xram (addr : Nat) (bytes : List Byte) (w : Word) (h : addr + bytes.length ≤ s.params.xramBytes) :
      CommandEffect s ((s.writeXram addr bytes).succeed w)
  | session (hp : s.pipe = .idle) (hr : s.ready = true) :
      CommandEffect s s.startSession.complete
  | shutdown (hp : s.pipe = .running) : CommandEffect s s.requestStop.complete
  | statistics : CommandEffect s (State.complete { s with counters := Counters.zero })

/-- What a command can do, once. -/
theorem exec_effect {i : Instr} {s t : State} (h : exec i s = .next t) : CommandEffect s t := by
  cases i with
  | nop => exact next_inj h ▸ .nothing
  | gfAdd a b => exact next_inj h ▸ .result _
  | clearStats => exact next_inj h ▸ .statistics
  | fieldBuild poly =>
    obtain ⟨c, rfl⟩ | ⟨h1, h2, h3, rfl⟩ := execFieldBuild_cases h
    · exact .failed c
    · exact .field poly h1 h2 h3
  | genBuild slot start stop =>
    obtain ⟨c, rfl⟩ | ⟨h1, h2, h3, h4, rfl⟩ := execGenBuild_cases h
    · exact .failed c
    · exact .slot _ start stop _ h1 h2 h3 h4
  | gfMul a b =>
    obtain ⟨c, rfl⟩ | ⟨_, rfl⟩ := execGfMul_cases h
    · exact .failed c
    · exact .result _
  | polyMul =>
    obtain ⟨c, rfl⟩ | ⟨_, h1, h2, h3, h4, h5, rfl⟩ := execPolyMul_cases h
    · exact .failed c
    · refine .xram _ _ _ ?_
      have ha : ∃ x xs, s.source s.argA = x :: xs ∧ xs.length = descLen s.argA - 1 := by
        cases hl : s.source s.argA with
        | nil => simp [State.source, State.xramRange] at hl; omega
        | cons x xs =>
          refine ⟨x, xs, rfl, ?_⟩
          have := congrArg List.length hl
          simp [State.source] at this
          omega
      obtain ⟨x, xs, hx, hl⟩ := ha
      have hb : (s.source s.argB).length = descLen s.argB := by simp [State.source]
      rw [hx, polyMul_cons_length, hl, hb]
      omega
  | remainder slot =>
    obtain ⟨c, rfl⟩ | ⟨_, _, _, h4, rfl⟩ := execRemainder_cases h
    · exact .failed c
    · refine .xram _ _ _ ?_
      rw [remainder_length_tail]
      simpa [GenSlot.len] using h4
  | demodInit =>
    obtain ⟨c, rfl⟩ | ⟨h1, rfl⟩ := execDemodInit_cases h
    · exact .failed c
    · exact .table h1
  | deinterleave =>
    obtain ⟨c, rfl⟩ | ⟨_, _, h3, rfl⟩ := execDeinterleave_cases h
    · exact .failed c
    · exact .xram _ _ _ (by rw [codewordMajor_length]; exact h3)
  | validate variant =>
    obtain ⟨c, rfl⟩ | ⟨v, _, _, _, _, _, _, rfl⟩ := execValidate_cases h
    · exact .failed c
    · exact .result _
  | run =>
    obtain ⟨c, rfl⟩ | ⟨h1, h2, rfl⟩ := execRun_cases h
    · exact .failed c
    · exact .session h1 h2
  | shutdown =>
    obtain ⟨c, rfl⟩ | ⟨h1, rfl⟩ := execShutdown_cases h
    · exact .failed c
    · exact .shutdown h1

/-- Everything an event can do (rules R70, R90, R223, R226, R280). -/
inductive EventEffect (s : State) : Event → State → Prop where
  | read (addr : BusAddr) (w : Word) (n : Nat) : EventEffect s (.busRead addr) { s with busData := w, draws := n }
  | write (addr : BusAddr) (v : Word) {t : State} (h : WriteEffect s t) : EventEffect s (.busWrite addr v) t
  | idle (h : s.busy = false) : EventEffect s .command s
  | command {t : State} (hb : s.busy = true) (h : CommandEffect s t) : EventEffect s .command t
  | input (b : List Byte) {t : State} (h : ProducerEffect s b t) : EventEffect s (.input b) t
  | worker {t : State} (h : WorkerEffect s t) : EventEffect s .worker t
  | reset : EventEffect s .reset s.resetInput

/-- What an event can do, once. -/
theorem eventStep_effect {e : Event} {s t : State} (h : eventStep e s = .next t) : EventEffect s e t := by
  cases e with
  | busRead addr =>
    obtain ⟨w, n, hr⟩ := busRead_cases s addr
    have := next_inj h
    rw [hr] at this
    exact this ▸ .read addr w n
  | busWrite addr v => exact next_inj h ▸ .write addr v (busWrite_effect s addr v)
  | command =>
    have h' : commandStep s = .next t := h
    unfold commandStep at h'
    split at h'
    · rename_i hb
      split at h'
      · exact .command hb (exec_effect h')
      · exact .command hb (next_inj h' ▸ .failed _)
    · rename_i hb
      rw [next_inj h']
      exact .idle (by simpa using hb)
  | input b => exact next_inj h ▸ .input b (producerStep_effect s b)
  | worker => exact next_inj h ▸ .worker (workerStep_effect s)
  | reset => exact next_inj h ▸ .reset

/-- What a step can do, once (rules R265, R267): nothing where no agent has a step, and otherwise the next event. -/
theorem step_effect {s t : State} (h : step s = .next t) :
    (s.nextEvent = none ∧ t = s) ∨ ∃ e, s.nextEvent = some e ∧ EventEffect s.takeEvent e t := by
  have h' : machineStep s = .next t := h
  unfold machineStep at h'
  split at h'
  · rename_i e he
    exact .inr ⟨e, he, eventStep_effect h'⟩
  · rename_i he
    exact .inl ⟨he, next_inj h'⟩

@[simp] theorem State.after_zero (s : State) : s.after 0 = some s := rfl

theorem State.after_succ {s t : State} (n : Nat) (h : step s = .next t) : s.after (n + 1) = t.after n := by
  rw [State.after, h]

/-- What holds at the start of a run and is kept by every step holds after any number of steps. -/
theorem State.after_keeps {P : State → Prop} (hstep : ∀ s t, P s → step s = .next t → P t) :
    ∀ (n : Nat) (s t : State), P s → s.after n = some t → P t
  | 0, _, _, hs, h => Option.some.inj h ▸ hs
  | n + 1, s, t, hs, h => by
    rw [State.after] at h
    split at h
    · rename_i u hu
      exact State.after_keeps hstep n u t (hstep s u hs hu) h
    · cases h
    · cases h

@[simp] theorem State.observation_outTrace (s : State) : s.observation.outTrace = s.outTrace := rfl
@[simp] theorem State.observation_registers (s : State) : s.observation.registers = registerMap.map s.regWord := rfl
@[simp] theorem State.observation_err (s : State) : s.observation.err = s.err := rfl
@[simp] theorem State.observation_counters (s : State) : s.observation.counters = s.counters := rfl

end Sys2Proof.Machine
end

