-- ==== Sys2Proof/Machine/HostProgram.lean ====
section
/-! DEFINITION. Host programs (rules R98, R99, R283): the operations a host program is written in, the pseudo-operations'
expansions, the assembler with its range checks, and the events an operation puts on the schedule. The block itself never
sees this syntax: it sees bus accesses and buffers. -/

namespace Sys2Proof.Machine

/-- A command as it is written, its operands being numbers (rule R98). VALIDATE names its variant. -/
inductive AsmCommand where
  | nop
  | fieldBuild (poly : Nat)
  | genBuild (slot start stop : Nat)
  | gfAdd (a b : Nat)
  | gfMul (a b : Nat)
  | polyMul
  | remainder (slot : Nat)
  | demodInit
  | deinterleave
  | validate (v : Variant)
  | run
  | shutdown
  | clearStats
  deriving DecidableEq, Repr

/-- An operand as a field of `n` bits; none where it does not fit (rule R99). -/
def operandField (n x : Nat) : Option (BitVec n) := if x < 2 ^ n then some (BitVec.ofNat n x) else none

/-- Two byte operands (rule R99). -/
def operandBytes (a b : Nat) : Option (Byte × Byte) := do
  let x ← operandField 8 a
  let y ← operandField 8 b
  return (x, y)

/-- The assembler (rule R99): none where it rejects an operand that does not fit its field. -/
def AsmCommand.assemble : AsmCommand → Option Instr
  | .nop => some .nop
  | .fieldBuild poly => (operandField 16 poly).map .fieldBuild
  | .genBuild slot start stop =>
    (operandField 2 slot).bind fun s => (operandBytes start stop).map fun p => .genBuild s p.1 p.2
  | .gfAdd a b => (operandBytes a b).map fun p => .gfAdd p.1 p.2
  | .gfMul a b => (operandBytes a b).map fun p => .gfMul p.1 p.2
  | .polyMul => some .polyMul
  | .remainder slot => (operandField 2 slot).map .remainder
  | .demodInit => some .demodInit
  | .deinterleave => some .deinterleave
  | .validate v => some (.validate (BitVec.ofNat 2 v.code))
  | .run => some .run
  | .shutdown => some .shutdown
  | .clearStats => some .clearStats

/-- An operation of a host program (rules R98, R99). -/
inductive HostOp where
  /-- `WR addr, value`. -/
  | wr (addr : BusAddr) (value : Word)
  /-- `RD addr`. -/
  | rd (addr : BusAddr)
  /-- `POLL addr, mask, value`. -/
  | poll (addr : BusAddr) (mask value : Word)
  /-- A command mnemonic with its operands, assembled. -/
  | issue (i : Instr)
  /-- `IN b0, b1, ...`. -/
  | input (buffer : List Byte)
  /-- `OUT -> record`: names the next record the sink receives; it does nothing to the block. -/
  | output
  /-- `SET_A addr, len`. -/
  | setA (addr len : BitVec 16)
  /-- `SET_B addr, len`. -/
  | setB (addr len : BitVec 16)
  /-- `SET_D addr`. -/
  | setD (addr : BitVec 16)
  /-- `WAIT_CU`. -/
  | waitCu
  /-- `WAIT_IDLE`. -/
  | waitIdle
  /-- `XW off, b0 b1 b2 b3`. -/
  | xw (off : BusAddr) (b0 b1 b2 b3 : Byte)
  deriving DecidableEq, Repr

/-- A descriptor word: `(len << 16) | addr` (rule R99). -/
def descriptorWord (addr len : BitVec 16) : Word := len.setWidth 32 <<< 16 ||| addr.setWidth 32

/-- The expansion of a pseudo-operation (rule R99); the other operations are their own. -/
def HostOp.expand : HostOp → HostOp
  | .issue i => .wr 0x00020 (encode i)
  | .setA addr len => .wr 0x00030 (descriptorWord addr len)
  | .setB addr len => .wr 0x00034 (descriptorWord addr len)
  | .setD addr => .wr 0x00038 (addr.setWidth 32)
  | .waitCu => .poll 0x00024 0x1 0x0
  | .waitIdle => .poll 0x00024 0x300 0x000
  | .xw off b0 b1 b2 b3 => .wr (0x02000 + off) (leWord b0 b1 b2 b3)
  | op => op

/-- A read ends a POLL: (read AND mask) = value (rule R98). -/
def pollEnds (mask value word : Word) : Bool := word &&& mask == value

/-- The events of an operation, where a POLL reads `reads` times: how often it does depends on when the other agents move
(rules R98, R265). -/
def HostOp.events (reads : Nat) (op : HostOp) : List Event :=
  match op.expand with
  | .wr addr value => [.busWrite addr value]
  | .rd addr => [.busRead addr]
  | .poll addr _ _ => List.replicate reads (.busRead addr)
  | .input buffer => [.input buffer]
  | _ => []

/-- The boot sequence of rule R283, the last command being RUN. -/
def bootProgram : List HostOp :=
  [.issue (.fieldBuild 0x187), .waitCu, .issue (.genBuild 0 120 131), .waitCu, .issue (.genBuild 1 120 133), .waitCu,
    .issue (.genBuild 2 120 139), .waitCu, .issue .demodInit, .waitCu, .rd 0x00028, .issue .run, .waitCu]

end Sys2Proof.Machine
end

