-- ==== Sys2Proof/Tests/Slice0.lean ====
section
/-! SUPPORT. The model's own tests. Expected values are the spec's (`95_test_vectors.md` and the examples of the command
rules), cited in each docstring. The `witness_` theorems show, for every statement with hypotheses, states and operands that
meet them, at the boundaries of its clauses. -/

namespace Sys2Proof.Tests

/- One theorem after another: the kernel evaluations below would otherwise run side by side and exhaust memory. -/
set_option Elab.async false

open Sys2Proof Sys2Proof.Machine Sys2Proof.Claims

/-! ### Helpers -/

/-- The next state of an outcome. -/
def nextOf : Host.Outcome State Fault Refusal → Option State
  | .next s => some s
  | _ => none

/-- What a command leaves, seen through `f`. -/
def after {α : Type} (i : Instr) (s : State) (f : State → α) : Option α := (nextOf (exec i s)).map f

/-- What an event leaves, seen through `f`. -/
def afterEvent {α : Type} (e : Event) (s : State) (f : State → α) : Option α := (nextOf (eventStep e s)).map f

/-- CODE of ERR, CMD_DONE and IRQ_STATUS.ERR, PIPE_STATE. -/
def status (s : State) : ErrCode × BitVec 5 × PipeState := (s.err.code, s.irqStatus, s.pipe)

/-- Reset, then FIELD_BUILD 0x187 (the state F187 of `95_test_vectors.md` §2.5). -/
def field187 : State := State.reset.commitField 0x187

/-- Reset, then FIELD_BUILD 0x11D. -/
def field11D : State := State.reset.commitField 0x11D

/-- F187 with slot 0 built (§2.5). -/
def slot0Built : State := field187.setGen 0 (builtSlot field187.field.tables 120 131)

/-- The boot of rule R283 without RUN. -/
def booted : State :=
  ((slot0Built.setGen 1 (builtSlot field187.field.tables 120 133)).setGen 2
    (builtSlot field187.field.tables 120 139)).commitLut

/-- After RUN. -/
def running : State := booted.startSession

/-- After SHUTDOWN. -/
def stopping : State := running.requestStop

/-- The SHORT packet sp of §3.1. -/
def sp : List Byte :=
  [0x00, 0x11, 0x22, 0x33, 0x44, 0x55, 0x66, 0x77, 0x88, 0x99, 0xAA, 0xBB, 0xCC, 0xDD, 0xEE, 0xFF, 0x10, 0x21] ++
  [0xA3, 0xD1, 0xB0, 0xFB, 0xAF, 0xBB, 0xDD, 0x8E, 0xB0, 0x0F, 0x3C, 0xD0]

/-- The state with the message of fixture S4 in XRAM at 0 and 0xA5 beside the destination, slot 3 = gen_poly(0, 3) over
0x11D (Program A). -/
def programA : State :=
  { (field11D.setGen 3 (builtSlot field11D.field.tables 0 3)).writeXram 0 [0x12, 0x34, 0x56, 0xA5] with
    argA := 0x00030000, argD := 0x0010 }

/-- A worker's state with an accumulator and a continuation. -/
def workerWith (acc : List Bool) (cont : ContKind) : WorkerState where
  framer := { Framer.initial with acc := acc, cont := cont }
  counters := Counters.zero
  outTrace := []

/-! ### Well-formedness: the one check, and the term it refuses -/

/-- VALIDATE takes the three variants of rule R16 and refuses the reserved one (rule R92). -/
theorem test_wellformed_validate :
    (Instr.validate 0).WellFormed = true ∧ (Instr.validate 2).WellFormed = true ∧ (Instr.validate 3).WellFormed = false := by
  decide

/-! ### Decoding: the words of `95_test_vectors.md` §2.5, §5.1 and of the command rules -/

theorem test_decode_nop : decode 0x00000000 = .ok .nop := by decide
theorem test_decode_fieldBuild : decode 0x0100FF87 = .ok (.fieldBuild 0xFF87) := by decide
theorem test_decode_genBuild : decode 0x02788B02 = .ok (.genBuild 2 120 139) := by decide
theorem test_decode_gfAdd : decode 0x030053CA = .ok (.gfAdd 0x53 0xCA) := by decide
theorem test_decode_gfMul : decode 0x040053CA = .ok (.gfMul 0x53 0xCA) := by decide
theorem test_decode_polyMul : decode 0x05000000 = .ok .polyMul := by decide
theorem test_decode_remainder : decode 0x06000003 = .ok (.remainder 3) := by decide
theorem test_decode_demodInit : decode 0x08000000 = .ok .demodInit := by decide
theorem test_decode_deinterleave : decode 0x0A000000 = .ok .deinterleave := by decide
theorem test_decode_validate : decode 0x0B000001 = .ok (.validate 1) := by decide
theorem test_decode_run : decode 0x10000000 = .ok .run := by decide
theorem test_decode_shutdown : decode 0x11000000 = .ok .shutdown := by decide
theorem test_decode_clearStats : decode 0x12000000 = .ok .clearStats := by decide

/-- Opcodes outside the map, and reserved bits (§5.1); an illegal opcode comes first (rule R251). -/
theorem test_decode_rejects :
    [0x07000000, 0x09000000, 0x0C000000, 0x0F000000, 0x13000000, 0xFF000000, 0x0FFFFFFF].map decode =
      List.replicate 7 (.error .illegalOpcode) ∧
    [0x00000001, 0x01010187, 0x02000004, 0x03010000, 0x06000004, 0x0B000004, 0x10000001].map decode =
      List.replicate 7 (.error .reservedNonzero) := by
  decide

/-- The fixed names of the host. -/
theorem test_table_word :
    decodeTableWord 32 0x02788501 = some (.genBuild 1 120 133) ∧ decodeTableWord 32 0x07000000 = none ∧
      (nextOf (step (State.reset.withFetchWord 32 0x030053CA))).map (fun s => s.result) = some 0x99 := by
  decide +kernel

/-! ### Host programs (rules R98, R99, R283) -/

/-- The words of the boot sequence, and the expansions of Program A's SET_A 0x20, 2 and XW 0x00, 12 34 56 00. -/
theorem test_host_program :
    bootProgram.map HostOp.expand =
      [.wr 0x20 0x01000187, .poll 0x24 1 0, .wr 0x20 0x02788300, .poll 0x24 1 0, .wr 0x20 0x02788501, .poll 0x24 1 0,
        .wr 0x20 0x02788B02, .poll 0x24 1 0, .wr 0x20 0x08000000, .poll 0x24 1 0, .rd 0x28, .wr 0x20 0x10000000,
        .poll 0x24 1 0] ∧
    [HostOp.setA 0x20 2, .xw 0x00 0x12 0x34 0x56 0x00].map HostOp.expand =
      [.wr 0x30 0x00020020, .wr 0x2000 0x00563412] := by
  decide

/-- The assembler rejects an operand that does not fit its field. -/
theorem test_assembler :
    [AsmCommand.fieldBuild 0x10000, .genBuild 4 0 0, .gfAdd 256 0, .remainder 3, .validate .uplink].map
      AsmCommand.assemble = [none, none, none, some (.remainder 3), some (.validate 2)] := by
  decide

/-! ### Reset and the bus -/

/-- The boot sequence's reads (§5.4): STATUS, POLY, GEN_INFO0 to 3, and a word of the POWER and GEN windows. -/
theorem test_boot_reads :
    ([0x24, 0x48, 0x70, 0x74, 0x78, 0x7C, 0x1000, 0x1400] : List BusAddr).map (fun a => (running.busRead a).busData) =
      [0x176, 0x187, 0x8378000D, 0x8578000F, 0x8B780015, 0, 0x04020100, 0x83566501] := by
  decide +kernel

/-- §5.2: registers keep only their bits. -/
theorem test_register_masks :
    afterEvent (.busWrite 0x3C 0xFFFFFFFF) State.reset (fun s => (s.busRead 0x3C).busData) = some 3 ∧
    afterEvent (.busWrite 0x4C 0x1FF) State.reset (fun s => (s.busRead 0x4C).busData) = some 0xFF ∧
    afterEvent (.busWrite 0x50 0xFFFFFFFF) State.reset (fun s => (s.busRead 0x50).busData) = some 0xFFFF ∧
    afterEvent (.busWrite 0x5C 0xFF) State.reset (fun s => (s.busRead 0x5E).busData) = some 0xF ∧
    afterEvent (.busWrite 0x38 0xFFFFFFFF) State.reset (fun s => (s.busRead 0x38).busData) = some 0xFFFF := by
  decide +kernel

/-- §5.2: the errors of refused writes, and the two clears. -/
theorem test_register_errors :
    afterEvent (.busWrite 0x20 0x030053CA) { State.reset with busy := true } status = some (.busy, 0b00010, .idle) ∧
    afterEvent (.busWrite 0x3C 1) { running with busy := true } status = some (.writeWhileBusy, 0b00010, .running) ∧
    afterEvent (.busWrite 0x3C 1) running status = some (.locked, 0b00010, .running) ∧
    afterEvent (.busWrite 0x28 0x100)
      { State.reset with err := { code := .badState, sticky := true, fatalCode := .accOverflow } }
      (fun s => (s.busRead 0x28).busData) = some 0x00020000 ∧
    afterEvent (.busWrite 0x40 0x2) { State.reset with irqStatus := 3, irqEn := 2 }
      (fun s => (s.irqStatus, s.irqLine)) = some (1, false) := by
  decide +kernel

/-! ### The thirteen commands -/

/-- §5.1: NOP sets CMD_DONE only. -/
theorem test_nop : exec .nop { State.reset with busy := true } = .next { State.reset with irqStatus := 1 } := rfl

/-- §2.1: POWER[8..16] and LOG[1D] under 0x11D, and POLY keeps the whole word (decision D8). -/
theorem test_fieldBuild :
    after (.fieldBuild 0x11D) State.reset
      (fun s => (sliceOf s.field.tables.power 8 9, s.field.tables.logAt 0x1D, s.field.poly)) =
      some ([0x80, 0x1D, 0x3A, 0x74, 0xE8, 0xCD, 0x87, 0x13, 0x26], 9, 0x11D) := by
  decide +kernel

/-- §2.5: the errors of FIELD_BUILD. -/
theorem test_fieldBuild_errors :
    after (.fieldBuild 0x0FF) State.reset status = some (.invalidPolyDegree, 0b00011, .idle) ∧
    after (.fieldBuild 0x11B) State.reset status = some (.notPrimitive, 0b00011, .idle) ∧
    after (.fieldBuild 0x187) running status = some (.locked, 0b00011, .running) := by
  decide +kernel

/-- §2.3: the slot 0 generator, and GEN_INFO0. -/
theorem test_genBuild :
    after (.genBuild 0 120 131) field187 (fun s => ((s.gen 0).coeffs, (s.gen 0).infoWord, s.result)) =
      some ([0x01, 0x65, 0x56, 0x83, 0x8B, 0xB5, 0xCF, 0x42, 0xEC, 0x97, 0x36, 0x3F, 0xD2], 0x8378000D, 13) := by
  decide +kernel

/-- §2.5: the errors of GEN_BUILD. -/
theorem test_genBuild_errors :
    after (.genBuild 0 120 131) State.reset status = some (.noField, 0b00011, .idle) ∧
    after (.genBuild 0 200 100) field187 status = some (.invalidPowerRange, 0b00011, .idle) ∧
    after (.genBuild 0 255 255) field187 status = some (.invalidPowerRange, 0b00011, .idle) := by
  decide +kernel

/-- §2.5: GF_ADD needs no field. -/
theorem test_gfAdd : after (.gfAdd 0x53 0xCA) State.reset (fun s => s.result) = some 0x99 := by decide +kernel

/-- §2.1: products under 0x187, the inverse of 02 and a zero factor among them. -/
theorem test_gfMul :
    [(0x53, 0xCA), (0xFF, 0xFF), (0xC3, 0x02), (0x80, 0x02), (0x00, 0x07), (0x01, 0x9D)].map
      (fun p : Byte × Byte => after (.gfMul p.1 p.2) field187 (fun s => s.result)) =
      [some 0xA8, some 0xE0, some 0x01, some 0x87, some 0x00, some 0x9D] := by
  decide +kernel

/-- §2.5: GF_MUL without a field. -/
theorem test_gfMul_noField : after (.gfMul 0x53 0xCA) State.reset status = some (.noField, 0b00011, .idle) := by
  decide +kernel

/-- §2.4: poly_mul([01, 02], [01, 03]) = [01, 01, 06] under 0x11D, written over its first source (rule R96). -/
theorem test_polyMul :
    after .polyMul { field11D.writeXram 0 [0x01, 0x02, 0xA5, 0xA5, 0x01, 0x03] with argA := 0x00020000, argB := 0x00020004 }
      (fun s => (s.xramRange 0 4, s.result)) = some ([0x01, 0x01, 0x06, 0xA5], 3) := by
  decide +kernel

/-- §2.5: the errors of POLY_MUL. -/
theorem test_polyMul_errors :
    after .polyMul field187 status = some (.badLength, 0b00011, .idle) ∧
    after .polyMul { field187 with argA := 0x000207FF, argB := 0x00010000 } status = some (.xramRange, 0b00011, .idle) := by
  decide +kernel

/-- Fixture S4: remainder([12, 34, 56]) = [37, E6, 78, D9] under 0x11D and gen_poly(0, 3). -/
theorem test_remainder :
    after (.remainder 3) programA (fun s => (s.xramRange 0x10 4, s.xramRange 0 4, s.result)) =
      some ([0x37, 0xE6, 0x78, 0xD9], [0x12, 0x34, 0x56, 0xA5], 4) := by
  decide +kernel

/-- §2.5: NO_GEN, an empty message at the end of XRAM, and the destination one byte too high. -/
theorem test_remainder_bounds :
    after (.remainder 1) field187 status = some (.noGen, 0b00011, .idle) ∧
    after (.remainder 0) { slot0Built with argA := 0x00000800, argD := 0x7F4 }
      (fun s => (s.xramRange 0x7F4 12, s.result)) = some (List.replicate 12 0, 12) ∧
    after (.remainder 0) { slot0Built with argD := 0x7F5 } status = some (.xramRange, 0b00011, .idle) := by
  decide +kernel

/-- §2.2: LUT entries after DEMOD_INIT, as the window reads them. -/
theorem test_demodInit :
    after .demodInit State.reset
      (fun s => ([0x6EB40, 0x40000, 0x7FFFC] : List BusAddr).map fun a => (s.busRead a).busData) =
      some [0x0000265A, 0xFFFFA000, 0x00002000] := by
  decide +kernel

/-- §2.2: the entry closest to a tie, and the other values of the table. -/
theorem test_lut :
    [(52, 89), (0, 255), (255, 0), (200, 100), (10, 250), (27, 127)].map
      (fun p : Byte × Byte => lutEntry 16 127 p.1 p.2) = [-27876, 24535, -8151, -3695, 24315, -32768] := by
  decide +kernel

/-- §3.4: by[i] = i mod 256, in place: the bytes written at ARG_D, and RESULT. -/
theorem test_deinterleave :
    after .deinterleave { State.reset with argA := 0x02280000 } (fun s => s.result) = some 552 ∧
    [0, 1, 2, 3, 92, 92 * 5 + 91].map
      (fun k => (codewordMajor ((List.range 552).map (BitVec.ofNat 8))).getD k 0) = [0x00, 0x06, 0x0C, 0x12, 0x01, 0x27] := by
  decide +kernel

/-- §3.4: the errors of DEINTERLEAVE. -/
theorem test_deinterleave_errors :
    after .deinterleave { State.reset with argA := 0x02270000 } status = some (.badLength, 0b00011, .idle) ∧
    after .deinterleave { State.reset with argA := 0x02280600 } status = some (.xramRange, 0b00011, .idle) := by
  decide +kernel

/-- §3.5: sp passes, and with byte 0 changed fails. -/
theorem test_validate :
    after (.validate 0) { booted.writeXram 0 sp with argA := 0x001E0000 } (fun s => s.result) = some 1 ∧
    after (.validate 0) { booted.writeXram 0 (0x01 :: sp.tail) with argA := 0x001E0000 } (fun s => s.result) =
      some 0x100 := by
  decide +kernel

/-- §3.5: the errors of VALIDATE. -/
theorem test_validate_errors :
    [(0, 0, 0x001E0000), (3, 0, 0), (0, 1, 0x001E0000), (0, 2, 0x001F0000)].map
      (fun p : BitVec 2 × Nat × Word =>
        after (.validate p.1) { ([State.reset, field187, booted].getD p.2.1 booted) with argA := p.2.2 }
          (fun s => s.err.code)) =
      [some .noField, some .badVariant, some .noGen, some .badLength] := by
  decide +kernel

/-- Program C: RUN after the boot, and the errors of RUN. -/
theorem test_run :
    after .run booted (fun s => (s.statusWord, s.err.code)) = some (0x176, .none) ∧
    after .run running status = some (.badState, 0b00011, .running) ∧
    after .run field187 status = some (.notReady, 0b00011, .idle) := by
  decide +kernel

/-- Program C: SHUTDOWN in RUNNING; Program B: in IDLE. -/
theorem test_shutdown :
    after .shutdown running (fun s => (s.pipe, s.fifo.shutdownFlag)) = some (.stopping, true) ∧
    after .shutdown State.reset status = some (.badState, 0b00011, .idle) := by
  decide +kernel

/-- §5.3: CLEAR_STATS zeroes the counters; RUN_LEN and ACC stay. -/
theorem test_clearStats :
    after .clearStats
      { State.reset with
        counters := { Counters.zero with bufIn := 3, raw := 7 }
        framer := { Framer.initial with runLen := 5, acc := [true] } }
      (fun s => (s.counters, s.framer.runLen, s.framer.acc)) = some (Counters.zero, 5, [true]) := by
  decide +kernel

/-! ### The pipeline -/

/-- §5.3: a full FIFO, an oversized buffer, IDLE, and an empty buffer. -/
theorem test_producer :
    afterEvent (.input [0xE3, 0x7F, 0xE3, 0x7F]) { running with fifo := { running.fifo with count := 8 } }
      (fun s => (s.counters.bufIn, s.counters.qdrop, s.irqStatus, s.fifo.dropPending)) = some (1, 1, 0b10000, true) ∧
    afterEvent (.input [1, 2, 3, 4, 5]) { running with params := { running.params with slotBytes := 4 } }
      (fun s => (s.counters.nomem, s.fifo.dropPending)) = some (1, true) ∧
    afterEvent (.input [0xE3, 0x7F, 0xBA, 0xD0, 0x55]) { running with fifo := { running.fifo with dropPending := true } }
      (fun s => (s.fifo.front, s.fifo.count, s.fifo.dropPending)) =
      some ({ phases := [0, 9818], discont := true }, 1, false) := by
  decide +kernel

/-- §2.2: the bias estimator with BIAS_N = 4 and BIAS_K = 2. -/
theorem test_bias :
    let p := { Config.Params.default with biasN := 4, biasK := 2 }
    let u := ({ est := 0, win := [], bufs := 0 } : BiasUnit).update p [0x0A, 0x14]
    (u.est, u.win, (u.update p [0x1E, 0x28, 0x32]).est, (u.update p [0x1E, 0x28, 0x32]).win) =
      (0, [10, 20], 35, [20, 30, 40, 50]) := by
  decide +kernel

/-- V15: the window's two bounds are inclusive, on both sides. -/
theorem test_window :
    [4719, 15729, -4719, -15729].map (fun d => (validDelta State.reset.settings d, bitOf d)) =
      [(true, true), (true, true), (true, false), (true, false)] ∧
    [4718, 15730, -4718, -15730, 0, -32768].map (validDelta State.reset.settings) = List.replicate 6 false := by
  decide +kernel

/-- V1's bits in one spill, in raw mode: one SHORT dispatch of the 240 bits after the sync, and nothing is left. -/
theorem test_short_dispatch :
    (match spill { booted.workerEnv with settings := { booted.settings with rawMode := true } } .seam
        (workerWith (bits36 0xEACDDA4E2 ++ List.replicate 5 false ++ List.replicate 235 true) .none) with
      | .going w => some (w.framer.acc, w.framer.cont, w.counters.syncA, w.outTrace)
      | .fatal _ _ => none) = some ([], .none, 1, [rawRecord .short (0x07 :: List.replicate 29 0xFF)]) := by
  decide +kernel

/-- §5.3: stop() in STOPPING discards the entries uncounted. -/
theorem test_stop :
    afterEvent .worker { stopping with fifo := { stopping.fifo with count := 3 } }
      (fun s => (s.pipe, s.fifo.count, s.irqStatus, s.counters)) = some (.idle, 0, 0b01000, Counters.zero) := by
  decide +kernel

/-- §3.6: record headers. -/
theorem test_headers :
    [okRecord .short sp, rawRecord .long (List.replicate 48 0), failRecord .uplink 6].map Record.header =
      [0x00120010, 0x00300009, 0x000000C2] := by
  decide +kernel

/-- Rule R296: a faulted run and a normal one end although a reset is still scheduled, and stay open while the host or the
front end has something to send. -/
theorem test_end_of_run :
    { State.reset with pipe := .fault, schedule := [.reset] }.FaultedEnd ∧
    { State.reset with schedule := [.worker, .reset] }.NormalEnd ∧
    ¬ { State.reset with schedule := [.worker, .busRead 0] }.RunEnded ∧
    ¬ { State.reset with schedule := [.input []] }.RunEnded ∧ ¬ running.RunEnded := by
  decide

/-! ### Witnesses: the hypotheses of the statements are met -/

/-- FIELD_BUILD of 0x187 gives tables of an accepted polynomial word. -/
theorem witness_BuiltField : BuiltField 0x187 field187.field.tables := by
  have h : (List.range 254).all (fun k =>
      (field187.field.tables.power.getD (k + 2) 0) ==
        if (field187.field.tables.power.getD (k + 1) 0).getLsbD 7 then
          (field187.field.tables.power.getD (k + 1) 0 <<< 1) ^^^ (0x187 : BitVec 16).setWidth 8
        else field187.field.tables.power.getD (k + 1) 0 <<< 1) = true := by decide +kernel
  have hc : (List.range 256).all (fun k => field187.field.tables.power.count (BitVec.ofNat 8 k) == 1) = true := by
    decide +kernel
  have hl : (List.range 256).all (fun k =>
      field187.field.tables.log.getD (field187.field.tables.power.getD k 0).toNat 0 == BitVec.ofNat 8 k) = true := by
    decide +kernel
  simp only [List.all_eq_true, List.mem_range, beq_iff_eq] at h hc hl
  refine ⟨⟨by decide +kernel, by decide +kernel, by decide +kernel, fun k h1 h2 => ?_⟩, fun v => ?_, by decide +kernel, hl⟩
  · obtain ⟨j, rfl⟩ : ∃ j, k = j + 2 := ⟨k - 2, by omega⟩
    exact h j (by omega)
  · simpa using hc v.toNat v.isLt

theorem witness_EncodeDecodeRoundTrip : decode 0x01000187 = .ok (.fieldBuild 0x187) := by decide

/-- Both clauses: the word after the last opcode of the map, and the lowest and the highest reserved bit of a format. -/
theorem witness_UndecodableWordRaisesItsError :
    ((State.reset.withFetchWord 32 0x13000000).busy = true ∧
      ∀ row ∈ opcodeMasks, (State.reset.withFetchWord 32 0x13000000).cmd.extractLsb' 24 8 ≠ row.1) ∧
    ((0x00, 0x00FFFFFF) ∈ opcodeMasks ∧ (State.reset.withFetchWord 32 0x00000001).cmd.extractLsb' 24 8 = 0x00 ∧
      (State.reset.withFetchWord 32 0x00000001).cmd &&& 0x00FFFFFF ≠ 0) ∧
    ((0x0B, 0x00FFFFFC) ∈ opcodeMasks ∧ (State.reset.withFetchWord 32 0x0B800000).cmd.extractLsb' 24 8 = 0x0B ∧
      (State.reset.withFetchWord 32 0x0B800000).cmd &&& 0x00FFFFFC ≠ 0) := by
  refine ⟨⟨rfl, ?_⟩, ⟨by simp [opcodeMasks], by decide, by decide⟩, ⟨by simp [opcodeMasks], by decide, by decide⟩⟩
  have h : opcodeMasks.all
      (fun row => decide ((State.reset.withFetchWord 32 0x13000000).cmd.extractLsb' 24 8 ≠ row.1)) = true := by decide
  simpa only [List.all_eq_true, decide_eq_true_eq] using h

/-- A scheduled command, and one the command unit takes with nothing scheduled. -/
theorem witness_StepRunsDecodedCommand :
    ((State.reset.withFetchWord 32 0x10000000).busy = true ∧
      (State.reset.withFetchWord 32 0x10000000).schedule.head? = some .command ∧
      decode (State.reset.withFetchWord 32 0x10000000).cmd = .ok .run) ∧
    ({ State.reset with busy := true }.busy = true ∧ { State.reset with busy := true }.schedule = [] ∧
      decode { State.reset with busy := true }.cmd = .ok .nop) := by
  decide

theorem witness_CommandIssueAndCompletion : { State.reset with busy := true }.busy = true ∧ State.reset.busy = false := by
  decide

/-- The four outcomes: a session running, bit 8 clear, a polynomial that is not primitive, and an accepted word. -/
theorem witness_FieldBuildCommitsOrRefuses :
    running.pipe ≠ .idle ∧ (State.reset.pipe = .idle ∧ (0x0FF : BitVec 16).getLsbD 8 = false) ∧
    ((0x100 : BitVec 16).getLsbD 8 = true ∧ IsPowerTable 0x100 (buildPower 0x100) ∧ ¬ EveryByteOnce (buildPower 0x100)) ∧
    ((0x187 : BitVec 16).getLsbD 8 = true ∧ IsPowerTable 0x187 field187.field.tables.power ∧
      EveryByteOnce field187.field.tables.power ∧
      IsLogTable field187.field.tables.power field187.field.tables.log) := by
  have h : (List.range 254).all (fun k =>
      ((buildPower 0x100).getD (k + 2) 0) ==
        if ((buildPower 0x100).getD (k + 1) 0).getLsbD 7 then
          ((buildPower 0x100).getD (k + 1) 0 <<< 1) ^^^ (0x100 : BitVec 16).setWidth 8
        else (buildPower 0x100).getD (k + 1) 0 <<< 1) = true := by decide +kernel
  simp only [List.all_eq_true, List.mem_range, beq_iff_eq] at h
  refine ⟨by decide, by decide, ⟨by decide, ⟨by decide +kernel, by decide +kernel, by decide +kernel, ?_⟩, ?_⟩,
    by decide, witness_BuiltField.1, witness_BuiltField.2.1, witness_BuiltField.2.2⟩
  · intro k h1 h2
    obtain ⟨j, rfl⟩ : ∃ j, k = j + 2 := ⟨k - 2, by omega⟩
    exact h j (by omega)
  · intro hc
    exact absurd (hc 3) (by decide +kernel)

theorem witness_GfMulWritesProduct : State.reset.field.valid = false ∧ field187.field.valid = true := by decide

/-- The destination range ends exactly at the end of XRAM, and one byte beyond it. -/
theorem witness_PolyMulWritesConvolution :
    Memory.wf field187.xram = true ∧ field187.field.valid = true ∧ descLen field187.argA = 0 ∧
    (let s := { field187 with argA := 0x00020000, argB := 0x00010000, argD := 0x7FE }
     0 < descLen s.argA ∧ 0 < descLen s.argB ∧ InBounds s (descAddr s.argA) (descLen s.argA) ∧
       InBounds s (descAddr s.argB) (descLen s.argB) ∧ InBounds s s.destAddr (descLen s.argA + descLen s.argB - 1)) ∧
    (let s := { field187 with argA := 0x00020000, argB := 0x00010000, argD := 0x7FF }
     0 < descLen s.argA ∧ 0 < descLen s.argB ∧ ¬ InBounds s s.destAddr (descLen s.argA + descLen s.argB - 1)) := by
  unfold InBounds; decide +kernel

/-- The range from 0 to 254, and the three ways to miss it. -/
theorem witness_GenBuildWritesGenerator :
    running.pipe ≠ .idle ∧ (State.reset.pipe = .idle ∧ State.reset.field.valid = false) ∧
    (field187.pipe = .idle ∧ field187.field.valid = true) ∧
    ((0 : Byte) ≤ 254 ∧ (254 : Byte) < 255) ∧ ((255 : Byte) = 255 ∧ (100 : Byte) < 200) := by
  decide +kernel

/-- An empty message at the end of XRAM with the parity ending exactly there, and one byte beyond it. -/
theorem witness_RemainderWritesSyndrome :
    Memory.wf slot0Built.xram = true ∧ slot0Built.field.valid = true ∧ (slot0Built.gen (slotIndex 0)).valid = true ∧
    (slot0Built.gen (slotIndex 1)).valid = false ∧
    (let s := { slot0Built with argA := 0x00000800, argD := 0x7F4 }
     InBounds s (descAddr s.argA) (descLen s.argA) ∧ InBounds s s.destAddr ((s.gen (slotIndex 0)).coeffs.length - 1)) ∧
    (let s := { slot0Built with argD := 0x7F5 }
     ¬ InBounds s s.destAddr ((s.gen (slotIndex 0)).coeffs.length - 1)) := by
  unfold InBounds; decide +kernel

theorem witness_DemodInitBuildsTable : State.reset.pipe = .idle ∧ running.pipe ≠ .idle := by decide

/-- A source that ends exactly at the end of XRAM, one that ends a byte beyond it, and another length. -/
theorem witness_DeinterleaveMovesBytes :
    Memory.wf State.reset.xram = true ∧ descLen State.reset.argA ≠ 552 ∧
    (let s := { State.reset with argA := 0x022805D8 }
     descLen s.argA = 552 ∧ InBounds s (descAddr s.argA) 552 ∧ InBounds s s.destAddr 552) ∧
    (let s := { State.reset with argA := 0x022805D9 }
     descLen s.argA = 552 ∧ ¬ InBounds s (descAddr s.argA) 552) := by
  unfold InBounds; decide +kernel

/-- A packet of each variant that passes every check, one for each failing check. -/
theorem witness_ValidateCountsFailingCodewords :
    State.reset.field.valid = false ∧
    (slot0Built.field.valid = true ∧ (slot0Built.gen (variantSlot .uplink)).valid = false) ∧
    ((slot0Built.setGen 1 (slot0Built.gen 0)).gen (variantSlot .long)).coeffs.length ≠ parityBytes .long + 1 ∧
    (∀ p ∈ [(Variant.short, (0x001E07E2 : Word)), (.long, 0x003007D0), (.uplink, 0x022805D8)],
      let s := { booted with argA := p.2 }
      s.field.valid = true ∧ (s.gen (variantSlot p.1)).valid = true ∧ (s.gen (variantSlot p.1)).coeffs.length = parityBytes p.1 + 1 ∧
        descLen s.argA = totalBytes p.1 ∧ descAddr s.argA + totalBytes p.1 = s.params.xramBytes) ∧
    (let s := { booted with argA := 0x001E07E3 }
     descLen s.argA = totalBytes .short ∧ ¬ descAddr s.argA + totalBytes .short ≤ s.params.xramBytes) ∧
    descLen booted.argA ≠ totalBytes .short := by
  refine ⟨by decide, by decide +kernel, by decide +kernel, ?_, by decide +kernel, by decide⟩
  simp only [List.mem_cons, List.not_mem_nil, or_false, forall_eq_or_imp, forall_eq]
  decide +kernel

/-- A booted machine, a machine with no slot built, and a running one. -/
theorem witness_RunStartsSession :
    (booted.pipe = .idle ∧ booted.field.valid = true ∧ booted.phase.valid = true ∧ Conformant booted) ∧
    (field187.pipe = .idle ∧ field187.phase.valid = false) ∧ running.pipe ≠ .idle := by
  unfold Conformant; decide +kernel

theorem witness_ShutdownRequestsStop : running.pipe = .running ∧ stopping.pipe ≠ .running := by decide

theorem witness_LogTableInvertsPowerTable : isPermutation (buildPower 0x187) = true := by decide +kernel

theorem witness_FieldLawsHold : BuiltField 0x187 field187.field.tables ∧ (0xFF : Byte) ≠ 0 :=
  ⟨witness_BuiltField, by decide⟩

theorem witness_PolyMulIsConvolution : ([0x05] : List Byte) ≠ [] ∧ ([0x07, 0x00, 0x01] : List Byte) ≠ [] := by decide

/-- The widest range, and another order of its factors. -/
theorem witness_GeneratorIsOrderFreeAndMonic :
    BuiltField 0x187 field187.field.tables ∧ 0 ≤ 254 ∧ 254 ≤ 254 ∧
      (List.range' 0 (254 - 0 + 1)).reverse.Perm (List.range' 0 (254 - 0 + 1)) :=
  ⟨witness_BuiltField, by decide, by decide, List.reverse_perm _⟩

theorem witness_RemainderIsRemainderOfDivision :
    BuiltField 0x187 field187.field.tables ∧ ([0x00] : List Byte) ≠ [] ∧ 2 ≤ ([0x01, 0x20] : List Byte).length ∧
      ([0x01, 0x20] : List Byte).head? = some 0x01 :=
  ⟨witness_BuiltField, by decide, by decide, by decide⟩

theorem witness_RemainderLawsHold :
    BuiltField 0x187 field187.field.tables ∧ 5 ≤ 5 ∧ 5 ≤ 254 ∧ ([] : List Byte).length = ([] : List Byte).length :=
  ⟨witness_BuiltField, by decide, by decide, rfl⟩

theorem witness_LutEntryIsNearestAngle : 3 ≤ 3 := by decide

/-- The farthest and the nearest point on each side of the centre, and an entry that is not the most negative. -/
theorem witness_LutKnownValues :
    (127 : Byte).toNat + 128 ≤ 255 ∧ 1 ≤ (127 : Byte).toNat ∧ 127 ≤ (127 : Byte).toNat ∧
      lutEntry 16 127 255 (BitVec.ofNat 8 ((127 : Byte).toNat + 127)) ≠ -2 ^ (16 - 1) := by
  decide +kernel

theorem witness_DemodulateLooksUpPairs : 0 < ([0xE3, 0x7F, 0x55] : List Byte).length / 2 := by decide

/-- A buffer that completes a period, and one that does not. -/
theorem witness_BiasEstimatorAverages :
    let p := { Config.Params.default with biasN := 4, biasK := 2 }
    (((1 : Word) + 1).toNat % p.biasK = 0 ∧ (({ est := 0, win := [10, 20], bufs := 1 } : BiasUnit).update p [30]).win ≠ []) ∧
      ¬ ((0 : Word) + 1).toNat % p.biasK = 0 := by
  decide +kernel

theorem witness_DeinterleaveIsBijection :
    (List.replicate 552 (0x00 : Byte)).length = 552 ∧ (List.replicate 6 (List.replicate 92 (0x00 : Byte))).length = 6 ∧
      (∀ cw ∈ List.replicate 6 (List.replicate 92 (0x00 : Byte)), cw.length = 92) :=
  ⟨List.length_replicate, List.length_replicate, fun cw h => by rw [List.eq_of_mem_replicate h, List.length_replicate]⟩

theorem witness_PackIsMostSignificantFirst : (List.replicate 4416 true).length = 8 * 552 := List.length_replicate

theorem witness_RecordWordsCarryTheRecord :
    (rawRecord .uplink (List.replicate 552 0)).data.length = 552 ∧ (failRecord .uplink 6).fails ≤ 6 := by
  decide +kernel

/-- Raw mode, a packet with no failing codeword, and one with a failing one. -/
theorem witness_DispatchValidatesAndReports :
    (let env := { booted.workerEnv with settings := { booted.settings with rawMode := true } }
     env.settings.rawMode = true) ∧
    booted.workerEnv.settings.rawMode = false ∧ (List.replicate 240 false).length = packetBits .short ∧
    (let g := (List.range (parityBytes .short + 1)).map booted.workerEnv.gens[(variantSlot .short).val].coeff
     failures booted.workerEnv.tables g .short (pack (List.replicate 240 false)) = 0 ∧
       failures booted.workerEnv.tables g .short (pack (true :: List.replicate 239 false)) ≠ 0) := by
  decide +kernel

/-- A worker step that takes an entry (one that ends in a Fatal: `witness_FatalEntersFault`), and both pair strides, with and
without a previous phase. -/
theorem witness_EntryIsBrokenSampledAndSpilled :
    (let s := { running with fifo := { running.fifo with count := 1 } }
     s.workerEnabled = true ∧ s.fifo.shutdownFlag = false ∧
       ∃ w, processEntry s.workerEnv s.fifo.front s.workerState = .going w) ∧
    (({ booted.params with pairStride := 1 } : Config.Params).pairStride = 1 ∧ booted.params.pairStride = 2) ∧
    ((workerWith [] .none).framer.prevValid = false ∧ ((workerWith [] .none).setPrev 0).framer.prevValid = true) ∧
    ((workerWith [] .none).framer.pairPhase = false ∧ (workerWith [] .none).togglePair.framer.pairPhase = true) :=
  ⟨⟨by decide, by decide, _, rfl⟩, by decide, by decide, by decide⟩

/-- The deltas at the window's bounds and just outside them, a full accumulator and one that is not. -/
theorem witness_SliceAppendsOrBreaks :
    let c := booted.settings
    ((4718 : Int).natAbs < c.devMin.toNat ∧ c.devMax.toNat < (-15730 : Int).natAbs) ∧
    (c.devMin.toNat ≤ (4719 : Int).natAbs ∧ (4719 : Int).natAbs ≤ c.devMax.toNat) ∧
    (c.devMin.toNat ≤ (-15729 : Int).natAbs ∧ (-15729 : Int).natAbs ≤ c.devMax.toNat) ∧
    (workerWith [] .none).framer.acc.length ≠ booted.params.accCap ∧
    (workerWith (List.replicate 8192 false) .none).framer.acc.length = booted.params.accCap := by
  decide +kernel

/-- An undetermined continuation at 5 and at 4 bits, a pending SHORT packet at 240 and at 239, and none. -/
theorem witness_SpillServesPendingContinuation :
    ((workerWith (List.replicate 5 false) .undet).framer.cont = .undet ∧
      5 ≤ (workerWith (List.replicate 5 false) .undet).framer.acc.length) ∧
    (workerWith (List.replicate 4 false) .undet).framer.acc.length < 5 ∧
    ((workerWith (List.replicate 240 false) (.pending .short)).framer.cont = .pending .short ∧
      packetBits .short ≤ (workerWith (List.replicate 240 false) (.pending .short)).framer.acc.length) ∧
    (workerWith (List.replicate 239 false) (.pending .short)).framer.acc.length < packetBits .short ∧
    (workerWith [] .none).framer.cont = .none := by
  decide +kernel

/-- The tail, an Active match with 4, with 239 and with 240 bits behind it, an Uplink match, and none. -/
theorem witness_ScanFindsSyncs :
    let a := bits36 booted.settings.syncA
    let u := bits36 booted.settings.syncU
    (workerWith [] .none).framer.cont = .none ∧ (List.replicate 35 false).length < 36 ∧
    (36 ≤ (a ++ List.replicate 4 false).length ∧ Matches booted.settings.syncA (a ++ List.replicate 4 false) ∧
      (a ++ List.replicate 4 false).length < 41) ∧
    (41 ≤ (a ++ List.replicate 239 false).length ∧ activeKind ((a ++ List.replicate 239 false).drop 36) = .short ∧
      (a ++ List.replicate 239 false).length < 36 + packetBits .short) ∧
    36 + packetBits .short ≤ (a ++ List.replicate 240 false).length ∧
    (¬ Matches booted.settings.syncA u ∧ Matches booted.settings.syncU u ∧ u.length < 36 + 4416) ∧
    (¬ Matches booted.settings.syncA (List.replicate 36 false) ∧
      ¬ Matches booted.settings.syncU (List.replicate 36 false)) := by
  unfold Matches; decide +kernel

/-- The phases that form the bits with PAIR_STRIDE = 2: a pair for each bit, with a delta inside the window. -/
def pairsOf (bits : List Bool) : List Phase := bits.flatMap fun b => [0, if b then 9818 else -9818]

/-- A split inside the sync pattern, with the reset patterns and the reference accumulator: of the bits, and of the phases that
form them, inside a pair. -/
theorem witness_ShortPacketSurvivesEverySplit :
    4416 ≤ booted.workerEnv.params.accCap ∧ (List.replicate 235 true).length = 235 ∧
      (workerWith [] .none).framer.acc = [] ∧ (workerWith [] .none).framer.cont = .none ∧ 20 ≤ 276 ∧
    (let stream := bits36 booted.settings.syncA ++ List.replicate 5 false ++ List.replicate 235 true
     let first := (pairsOf stream).take 41
     let second := (pairsOf stream).drop 41
     let f := (workerWith [] .none).framer
     let deltas := formedDeltas booted.params f.prev f.prevValid f.pairPhase (first ++ second)
     deltas.all (fun d => decide (booted.settings.devMin.toNat ≤ d.natAbs ∧ d.natAbs ≤ booted.settings.devMax.toNat)) = true ∧
       stream = deltas.map (fun d => decide (0 ≤ d)) ∧ Matches booted.settings.syncA stream ∧
       stream.drop 36 = List.replicate 5 false ++ List.replicate 235 true) := by
  unfold Matches; decide +kernel

theorem witness_BusAccessIgnoresLowAddressBits : State.reset.busy = false := by decide

theorem reset_memoryInv : State.reset.MemoryInv where
  size := by decide
  canonical := by decide
  bounded := fun _ h => nomatch (show _ ∈ [] from h)

theorem default_legal : Config.Params.default.Legal := by decide

/-- Tables and a slot that are valid, and that are not; the last word of a byte window; the last word of XRAM, and another. -/
theorem witness_WindowsReadTheirContents :
    (slot0Built.field.valid = true ∧ State.reset.field.valid = false) ∧
    ((slot0Built.gen 0).valid = true ∧ (slot0Built.gen 1).valid = false) ∧
    (booted.phase.valid = true ∧ booted.params.Legal ∧ State.reset.phase.valid = false) ∧
    63 < 64 ∧ 4 * 63 + 3 ≥ (slot0Built.gen 0).coeffs.length ∧ 4 * 0 + 3 < (slot0Built.gen 0).coeffs.length ∧
    State.reset.MemoryInv ∧ State.reset.params.Legal ∧ State.reset.busy = false ∧ 4 * 511 < State.reset.params.xramBytes ∧
      0 ≠ 511 ∧ 4 * 0 < State.reset.params.xramBytes :=
  ⟨by decide, by decide +kernel, ⟨by decide, default_legal, by decide⟩, by decide, by decide +kernel, by decide +kernel,
    reset_memoryInv, default_legal, rfl, by decide, by decide, by decide⟩

/-- BUSY = 1, BUSY = 0 outside IDLE, and BUSY = 0 in IDLE. -/
theorem witness_RegisterWritesAreLocked :
    { State.reset with busy := true }.busy = true ∧ State.reset.params.Legal ∧ 4 * 511 < State.reset.params.xramBytes ∧
      (running.busy = false ∧ running.pipe ≠ .idle) ∧ (State.reset.busy = false ∧ State.reset.pipe = .idle) :=
  ⟨rfl, default_legal, by decide, by decide, by decide⟩

/-- The first unmapped address behind the registers, and the first behind XRAM. -/
theorem witness_OtherAddressesIgnoreWrites :
    State.reset.params.Legal ∧ 0xC4 = (0xC7 : BusAddr).toNat / 4 * 4 ∧
    (0xC4 ∉ [0x20, 0x28, 0x30, 0x34, 0x38, 0x3C, 0x40, 0x44, 0x4C, 0x50, 0x54, 0x58, 0x5C, 0x60, 0x64] ∧
      ¬ (0x2000 ≤ 0xC4 ∧ 0xC4 < 0x2000 + State.reset.params.xramBytes)) ∧
    (0x2800 = (0x2800 : BusAddr).toNat / 4 * 4 ∧ 0x2000 + State.reset.params.xramBytes ≤ 0x2800) :=
  ⟨default_legal, by decide, by decide, by decide⟩

/-- The largest FIFO, a full accumulator, the slots of both kinds, a legal configuration and BUSY = 0. -/
theorem witness_RegistersMirrorState :
    { running with fifo := { running.fifo with count := 10 } }.fifo.count ≤ 10 ∧
    (workerWith (List.replicate 65535 true) .undet).framer.acc.length < 65536 ∧
    ((slot0Built.gen 0).valid = true ∧ (slot0Built.gen 0).coeffs.length < 512 ∧ (slot0Built.gen 1).valid = false) ∧
    State.reset.params.Legal ∧ State.reset.busy = false ∧ (0x68, slot0Built.bias.est.setWidth 32) ∈ registerWords slot0Built :=
  ⟨by decide, by rw [show (workerWith (List.replicate 65535 true) .undet).framer.acc = List.replicate 65535 true from rfl,
      List.length_replicate]; decide, by decide +kernel, default_legal, rfl, by simp [registerWords]⟩

theorem witness_ErrReadsAndClears : (0x100 : Word).getLsbD 8 = true ∧ (0x0FF : Word).getLsbD 8 = false := by decide

/-- Outside RUNNING; one byte too many; a full FIFO; and a buffer of exactly SLOT_BYTES with room for it. -/
theorem witness_ProducerStepCountsDropsOrPushes :
    let p := { running.params with slotBytes := 2 }
    State.reset.pipe ≠ .running ∧ running.pipe = .running ∧ p.slotBytes < ([1, 2, 3] : List Byte).length ∧
      ([1, 2] : List Byte).length ≤ p.slotBytes ∧
      { running with fifo := { running.fifo with count := 8 } }.fifo.count = running.params.qcap ∧
      running.fifo.count ≠ running.params.qcap := by
  decide

/-- A ring with one free slot, a full one and an empty one; a worker step that pops and one that is stop(). -/
theorem witness_FifoIsAQueue :
    (∀ n, n ≤ 8 → FifoInv running.params { running.fifo with count := n, tail := n % 8 }) ∧ running.pipe = .running ∧
      7 < running.params.qcap ∧ 8 = running.params.qcap ∧
      ({ running with fifo := { running.fifo with count := 8 } }.workerEnabled = true ∧
        running.fifo.shutdownFlag = false) ∧
      (stopping.workerEnabled = true ∧ stopping.fifo.shutdownFlag = true) := by
  have h1 : running.fifo.slots.length = running.params.qcap := by decide
  have h2 : running.fifo.head < running.params.qcap := by decide
  refine ⟨fun n hn => ⟨h1, h2, hn, ?_⟩, by decide⟩
  show n % 8 = (0 + n) % 8
  rw [Nat.zero_add]

theorem witness_WorkerStopsAtObservationPoint :
    running.workerEnabled = false ∧ stopping.workerEnabled = true ∧ stopping.fifo.shutdownFlag = true := by
  decide

/-- A configuration that is not legal (ACC_CAP = 0) with one valid bit: the fatal ACC_OVERFLOW of rule R181. -/
theorem witness_FatalEntersFault :
    let s := { running with
      params := { running.params with accCap := 0 }
      fifo := { running.fifo with slots := [{ phases := [0, 9818], discont := false }], count := 1 } }
    s.workerEnabled = true ∧ s.fifo.shutdownFlag = false ∧
      ∃ w, processEntry s.workerEnv s.fifo.front s.workerState = .fatal .accOverflow w :=
  ⟨by decide, by decide, _, rfl⟩

/-- A command event in FAULT, where the run has ended; the worker's in IDLE, where another one has. -/
theorem witness_OnlyResetLeavesFaultOrAnEndedRun :
    (let s := { State.reset with
        pipe := .fault, err := { State.reset.err with fatalCode := .accOverflow }, schedule := [.command] }
     s.pipe = .fault ∧ s.err.fatalCode ≠ .none ∧ s.FaultedEnd ∧ s.nextEvent ≠ some .reset ∧ ∃ t, step s = .next t) ∧
    (let s := { State.reset with schedule := [.worker] }
     s.NormalEnd ∧ s.nextEvent ≠ some .reset) :=
  ⟨⟨rfl, by decide, by decide, by decide, _, rfl⟩, by decide, by decide⟩

/-- The configuration with the smallest and the one with the largest values of rule R9. -/
theorem witness_ResetMeetsTheInvariants :
    ({ qcap := 5, slotBytes := 2, accCap := 4416, pw := 8, pairStride := 1, xramBytes := 2048, biasN := 1, biasK := 1,
       fsHz := 1 } : Config.Params).Legal ∧
    ({ qcap := 10, slotBytes := 2 ^ 24, accCap := 65535, pw := 24, pairStride := 2, xramBytes := 8192, biasN := 2 ^ 24,
       biasK := 65535, fsHz := 2083334 } : Config.Params).Legal := by
  decide

/-- RUN from IDLE, and the worker's stop(). -/
theorem witness_PipeStateTransitions :
    (let s := { booted with cmd := 0x10000000, busy := true }
     (s.fifo.shutdownFlag = true ↔ s.pipe = .stopping) ∧ (nextOf (step s)).map (fun t => t.pipe) = some .running) ∧
    (stopping.fifo.shutdownFlag = true ↔ stopping.pipe = .stopping) ∧
      (nextOf (step stopping)).map (fun t => t.pipe) = some .idle := by
  decide +kernel

theorem witness_TablesAreConstantOutsideIdle :
    let s := { running with schedule := [.busWrite 0x3C 1] }
    s.pipe ≠ .idle ∧ s.nextEvent ≠ some .reset ∧ ∃ t, step s = .next t :=
  ⟨by decide, by decide, _, rfl⟩

theorem witness_StepKeepsMemoryInv :
    State.reset.MemoryInv ∧ (nextOf (step { State.reset with schedule := [.busWrite 0x2000 5] })).map (fun t => t.xram) =
      some [(0, 5), (1, 0), (2, 0), (3, 0)] :=
  ⟨reset_memoryInv, by decide +kernel⟩

/-- A machine with a field and one generator slot meets TablesInv. -/
theorem witness_StepKeepsTablesInv : slot0Built.TablesInv ∧ ∃ t, step slot0Built = .next t := by
  refine ⟨⟨fun _ => ⟨by decide, by decide +kernel, rfl⟩, fun k _ => rfl, fun k hk => ?_⟩, _, rfl⟩
  match k with
  | 0 => exact ⟨by decide, by decide, rfl⟩
  | 1 => exact absurd hk (by decide)
  | 2 => exact absurd hk (by decide)
  | 3 => exact absurd hk (by decide)

/-- A running session with nothing received meets PipelineInv. -/
theorem witness_StepKeepsPipelineInv : running.PipelineInv ∧ ∃ t, step running = .next t := by
  refine ⟨⟨default_legal, ⟨by decide, fun _ => by decide, fun h => absurd h (by decide), fun v h => ?_⟩,
    ⟨by decide, by decide, by decide, by decide⟩, by decide, fun h => absurd h (by decide), fun _ => by decide +kernel,
    by decide⟩, _, rfl⟩
  cases h

theorem reset_rangeInv : State.reset.RangeInv := by
  refine ⟨by decide, by decide, by decide, by decide, fun e he x hx => ?_, fun e he => ?_, by decide⟩
  · have : e = { phases := [], discont := false } := List.eq_of_mem_replicate he
    subst this
    cases hx
  · have : e = { phases := [], discont := false } := List.eq_of_mem_replicate he
    subst this
    decide

theorem witness_StepKeepsRangeInv :
    State.reset.RangeInv ∧ ∃ t, step { State.reset with schedule := [.busWrite 0x50 0xFFFFFFFF] } = .next t :=
  ⟨reset_rangeInv, _, rfl⟩

end Sys2Proof.Tests
end

section
/-! SUPPORT and proof of `Obligations.RegistersMirrorState` (O44; rules R21 to R23, R25 to R41, R72). Every composed
register word is an `|||` of values `placed` at bit positions. The first part says what one bit field of such a value is;
the second that a host read at a register's address returns `State.regWord`; the rest reads the words, those that are read
whole first and then the composed ones field by field. -/

namespace Sys2Proof.Machine

/-! ### The bit fields of a placed value -/

theorem bitWord_eq_placed (b : Bool) : bitWord b = placed b.toNat 0 := by cases b <;> rfl

theorem placed_shiftLeft (v lo k : Nat) : placed v lo <<< k = placed v (lo + k) :=
  (BitVec.shiftLeft_add _ lo k).symm

theorem getLsbD_placed (v lo i : Nat) :
    (placed v lo).getLsbD i = (decide (i < 32) && !decide (i < lo) && v.testBit (i - lo)) := by
  rw [placed, BitVec.getLsbD_shiftLeft, BitVec.getLsbD_ofNat]
  by_cases h : i < 32
  · have hin : i - lo < 32 := by omega
    simp only [h, hin, decide_true, Bool.true_and]
  · simp only [h, decide_false, Bool.false_and]

/-- The field at the value's own position holds its low bits. -/
theorem placed_field_at {v lo n : Nat} (h : lo + n ≤ 32) :
    (placed v lo).extractLsb' lo n = BitVec.ofNat n v := by
  refine BitVec.eq_of_getLsbD_eq fun i hi => ?_
  have hlt : lo + i < 32 := by omega
  simp only [BitVec.getLsbD_extractLsb', BitVec.getLsbD_ofNat, getLsbD_placed, hi, hlt,
    Nat.not_lt.mpr (Nat.le_add_right lo i), Nat.add_sub_cancel_left, decide_true, decide_false, Bool.not_false,
    Bool.true_and]

/-- A field that ends where the value begins, or earlier, is 0. -/
theorem placed_field_below {v lo off n : Nat} (h : off + n ≤ lo) : (placed v lo).extractLsb' off n = 0#n := by
  refine BitVec.eq_of_getLsbD_eq fun i hi => ?_
  have hlt : off + i < lo := by omega
  simp [BitVec.getLsbD_extractLsb', getLsbD_placed, hlt]

/-- A field that begins where the value has ended, or later, is 0. -/
theorem placed_field_above {v lo off n : Nat} (hlo : lo ≤ off) (hv : v < 2 ^ (off - lo)) :
    (placed v lo).extractLsb' off n = 0#n := by
  refine BitVec.eq_of_getLsbD_eq fun i hi => ?_
  have hbit : v.testBit (off + i - lo) = false :=
    Nat.testBit_lt_two_pow (Nat.lt_of_lt_of_le hv (Nat.pow_le_pow_right (by decide) (by omega)))
  simp [BitVec.getLsbD_extractLsb', getLsbD_placed, hbit]

/-- A flag reaches no bit above its own. -/
theorem placed_flag_above {b : Bool} {lo off n : Nat} (h : lo < off) :
    (placed b.toNat lo).extractLsb' off n = 0#n :=
  placed_field_above h.le (Nat.lt_of_lt_of_le b.toNat_lt (Nat.le_self_pow (by omega) 2))

/-- One bit of a word as its field of width 1. -/
theorem getLsbD_eq_field (w : Word) (i : Nat) : w.getLsbD i = (w.extractLsb' i 1).getLsbD 0 := by
  simp only [BitVec.getLsbD_extractLsb', Nat.lt_one_iff, decide_true, Bool.true_and, Nat.add_zero]

theorem getLsbD_flag (b : Bool) : (BitVec.ofNat 1 b.toNat).getLsbD 0 = b := by cases b <;> rfl

theorem toNat_ofNat_of_lt {v n : Nat} (h : v < 2 ^ n) : (BitVec.ofNat n v).toNat = v := by
  rw [BitVec.toNat_ofNat, Nat.mod_eq_of_lt h]

/-! ### Reading a register -/

/-- The bus address of a register (rule R72): `registerMap` lists one word after another from address 0 on. -/
def Reg.address (r : Reg) : BusAddr := BitVec.ofNat 20 (4 * registerMap.idxOf r)

theorem registerAt_address (r : Reg) : registerAt (wordAddress r.address) = some r := by cases r <;> rfl

theorem target_address (s : State) (r : Reg) : s.target r.address = .reg r := by
  simp only [State.target, targetAt, registerAt_address]

/-- A read of a register returns its word; of RESULT, while BUSY = 0 (rules R25, R70). -/
theorem busRead_address (s : State) (r : Reg) (h : r = .result → s.busy = false) :
    (s.busRead r.address).busData = s.regWord r := by
  have hfree : ¬ (r = .result ∧ s.busy = true) := fun ⟨hr, hb⟩ => by simp [h hr] at hb
  simp only [State.busRead, target_address, State.targetWord, if_neg hfree]

theorem busRead_genInfo (s : State) (k : Fin Config.ngen) :
    (s.busRead (BitVec.ofNat 20 (0x70 + 4 * k.val))).busData = (s.gen k).infoWord :=
  match k with
  | 0 => busRead_address s .genInfo0 nofun
  | 1 => busRead_address s .genInfo1 nofun
  | 2 => busRead_address s .genInfo2 nofun
  | 3 => busRead_address s .genInfo3 nofun

/-! ### The registers that are read whole -/

theorem ctrlWord_eq_add (c : Settings) :
    c.ctrlWord = (if c.rawMode then 1 else 0) + (if c.reportFail then 2 else 0) := by
  unfold Settings.ctrlWord
  cases c.rawMode <;> cases c.reportFail <;> rfl

/-- The registers that have no fields to tell apart; RESULT, which BUSY gates, is not among them. -/
def wholeRegisters : List Reg :=
  registerMap.filter fun r =>
    !([.param0, .status, .err, .result, .framer0, .genInfo0, .genInfo1, .genInfo2, .genInfo3].contains r)

theorem registerWords_eq_map (s : State) :
    Claims.registerWords s = wholeRegisters.map fun r => (r.address, s.regWord r) := by
  unfold Claims.registerWords
  rw [← ctrlWord_eq_add, ← BitVec.setWidth_eq_extractLsb' (x := s.settings.syncA) (by decide),
    ← BitVec.setWidth_eq_extractLsb' (x := s.settings.syncU) (by decide)]
  rfl

theorem busRead_registerWords (s : State) (row : BusAddr × Word) (hrow : row ∈ Claims.registerWords s) :
    (s.busRead row.1).busData = row.2 := by
  rw [registerWords_eq_map] at hrow
  obtain ⟨r, hr, rfl⟩ := List.mem_map.mp hrow
  have hne : r ≠ .result := by
    rintro rfl
    exact absurd hr (by decide)
  exact busRead_address s r fun h => absurd h hne

/-! ### The composed words, field by field -/

theorem PipeState.code_lt (p : PipeState) : p.code < 4 := by cases p <;> decide

theorem FramerState.code_lt (f : FramerState) : f.code < 3 := by cases f <;> decide

theorem ContKind.code_lt : ∀ c : ContKind, c.code < 5
  | .none | .undet | .pending .short | .pending .long | .pending .uplink => by decide

theorem pipeNumber_eq_code (p : PipeState) : Claims.pipeNumber p = p.code := by cases p <;> rfl

theorem framerNumber_eq_code (f : FramerState) : Claims.framerNumber f = f.code := by cases f <;> rfl

theorem contNumber_eq_code : ∀ c : ContKind, Claims.contNumber c = c.code
  | .none | .undet | .pending .short | .pending .long | .pending .uplink => rfl

/-- STATUS (rule R23) as placed values. -/
theorem statusWord_eq_placed (s : State) :
    s.statusWord =
      placed s.busy.toNat 0 ||| placed s.field.valid.toNat 1 ||| placed s.phase.valid.toNat 2 |||
        (placed (s.gen 0).valid.toNat 4 ||| placed (s.gen 1).valid.toNat 5 ||| placed (s.gen 2).valid.toNat 6 |||
          placed (s.gen 3).valid.toNat 7) |||
        placed s.pipe.code 8 ||| placed s.framer.fstate.code 10 ||| placed (s.fifo.count % 16) 12 := by
  simp only [State.statusWord, genValidWord, bitWord_eq_placed, placed_shiftLeft, Nat.zero_add]
  rfl

theorem statusWord_flags (s : State) :
    s.statusWord.getLsbD 0 = s.busy ∧ s.statusWord.getLsbD 1 = s.field.valid ∧ s.statusWord.getLsbD 2 = s.phase.valid ∧
    s.statusWord.getLsbD 3 = false ∧ s.statusWord.getLsbD 4 = (s.gen 0).valid ∧
    s.statusWord.getLsbD 5 = (s.gen 1).valid ∧ s.statusWord.getLsbD 6 = (s.gen 2).valid ∧
    s.statusWord.getLsbD 7 = (s.gen 3).valid := by
  rw [statusWord_eq_placed]
  and_intros <;>
    simp (disch := omega) only [getLsbD_eq_field, BitVec.extractLsb'_or, placed_field_at, placed_field_below,
      placed_flag_above, BitVec.or_zero, BitVec.zero_or, getLsbD_flag, BitVec.getLsbD_zero]

/-- Bits [7:4] of STATUS, GEN_VALID (rule R23), by the number of the slot. -/
theorem statusWord_genValid (s : State) (k : Fin Config.ngen) : s.statusWord.getLsbD (4 + k.val) = (s.gen k).valid := by
  obtain ⟨-, -, -, -, h0, h1, h2, h3⟩ := statusWord_flags s
  match k with
  | 0 => exact h0
  | 1 => exact h1
  | 2 => exact h2
  | 3 => exact h3

theorem statusWord_numbers (s : State) (hcount : s.fifo.count ≤ 10) :
    (s.statusWord.extractLsb' 8 2).toNat = s.pipe.code ∧
    (s.statusWord.extractLsb' 10 2).toNat = s.framer.fstate.code ∧
    (s.statusWord.extractLsb' 12 4).toNat = s.fifo.count ∧ s.statusWord.extractLsb' 16 16 = 0#16 := by
  have hpipe := s.pipe.code_lt
  have hframer := s.framer.fstate.code_lt
  rw [statusWord_eq_placed, Nat.mod_eq_of_lt (by omega : s.fifo.count < 16)]
  and_intros <;>
    simp (disch := omega) only [BitVec.extractLsb'_or, placed_field_at, placed_field_below, placed_field_above,
      placed_flag_above, BitVec.or_zero, BitVec.zero_or, toNat_ofNat_of_lt]

/-- FRAMER0 (rule R38) as placed values. -/
theorem framerWord_eq_placed (f : Framer) :
    f.word = placed (f.acc.length % 65536) 0 ||| placed f.cont.code 16 ||| placed f.fstate.code 20 |||
      placed f.prevValid.toNat 22 ||| placed f.pairPhase.toNat 23 := by
  simp only [Framer.word, bitWord_eq_placed, placed_shiftLeft, Nat.zero_add]

theorem framerWord_fields (f : Framer) (hacc : f.acc.length < 65536) :
    (f.word.extractLsb' 0 16).toNat = f.acc.length ∧ (f.word.extractLsb' 16 3).toNat = f.cont.code ∧
    f.word.getLsbD 19 = false ∧ (f.word.extractLsb' 20 2).toNat = f.fstate.code ∧
    f.word.getLsbD 22 = f.prevValid ∧ f.word.getLsbD 23 = f.pairPhase ∧ f.word.extractLsb' 24 8 = 0#8 := by
  have hcont := f.cont.code_lt
  have hstate := f.fstate.code_lt
  rw [framerWord_eq_placed, Nat.mod_eq_of_lt hacc]
  and_intros <;>
    simp (disch := omega) only [getLsbD_eq_field, BitVec.extractLsb'_or, placed_field_at, placed_field_below,
      placed_field_above, placed_flag_above, BitVec.or_zero, BitVec.zero_or, toNat_ofNat_of_lt,
      getLsbD_flag, BitVec.getLsbD_zero]

theorem infoWord_of_invalid {g : GenSlot} (h : g.valid = false) : g.infoWord = 0 := by
  simp [GenSlot.infoWord, h]

/-- GEN_INFO of a valid slot (rule R39). -/
theorem infoWord_fields {g : GenSlot} (hvalid : g.valid = true) (hlen : g.coeffs.length < 512) :
    (g.infoWord.extractLsb' 0 9).toNat = g.coeffs.length ∧ g.infoWord.extractLsb' 9 7 = 0#7 ∧
    g.infoWord.extractLsb' 16 8 = g.start ∧ g.infoWord.extractLsb' 24 8 = g.stop := by
  rw [GenSlot.infoWord, if_pos hvalid, GenSlot.len, Nat.mod_eq_of_lt hlen]
  and_intros <;>
    simp (disch := omega) only [BitVec.extractLsb'_or, placed_field_at, placed_field_below, placed_field_above,
      BitVec.or_zero, BitVec.zero_or, toNat_ofNat_of_lt, BitVec.ofNat_toNat, BitVec.setWidth_eq]

/-- PARAM0 of a legal configuration (rules R9, R21). -/
theorem param0Word_fields {p : Config.Params} (hp : p.Legal) :
    ((param0Word p).extractLsb' 0 4).toNat = p.qcap ∧ ((param0Word p).extractLsb' 4 2).toNat = p.pairStride ∧
    (param0Word p).extractLsb' 6 2 = 0#2 ∧ ((param0Word p).extractLsb' 8 5).toNat = p.pw ∧
    (param0Word p).extractLsb' 13 3 = 0#3 ∧ (param0Word p).extractLsb' 16 4 = 4#4 ∧
    (param0Word p).extractLsb' 20 12 = 0#12 := by
  obtain ⟨⟨-, hqcap⟩, -, -, ⟨-, hpw⟩, hstride, -⟩ := hp
  rw [param0Word, Nat.mod_eq_of_lt (by omega : p.qcap < 16), Nat.mod_eq_of_lt (by omega : p.pairStride < 4),
    Nat.mod_eq_of_lt (by omega : p.pw < 32)]
  and_intros <;>
    simp (disch := omega) only [BitVec.extractLsb'_or, placed_field_at, placed_field_below, placed_field_above,
      BitVec.or_zero, BitVec.zero_or, toNat_ofNat_of_lt, Config.ngen]

/-! ### Descriptors -/

theorem descAddr_eq_mod (d : Word) : descAddr d = d.toNat % 65536 := by
  rw [descAddr, BitVec.extractLsb'_toNat, Nat.shiftRight_zero]

theorem descLen_eq_div (d : Word) : descLen d = d.toNat / 65536 := by
  rw [descLen, BitVec.extractLsb'_toNat, Nat.shiftRight_eq_div_pow]
  exact Nat.mod_eq_of_lt (by omega)

/-! ### The statement -/

/-- Settles O44: each register is read at its own address (`busRead_address`), and its word is taken apart by its own
lemma above. -/
theorem registersMirrorState : Obligations.RegistersMirrorState := by
  unfold Obligations.RegistersMirrorState
  simp only [pipeNumber_eq_code, framerNumber_eq_code, contNumber_eq_code]
  refine ⟨fun s hcount => ⟨_, busRead_address s .status nofun, ?_⟩,
    fun s hacc => ⟨_, busRead_address s .framer0 nofun, framerWord_fields s.framer hacc⟩,
    fun s k => ⟨_, busRead_genInfo s k, infoWord_of_invalid, infoWord_fields⟩,
    fun s hp => ⟨_, busRead_address s .param0 nofun, param0Word_fields hp⟩,
    fun s hbusy => busRead_address s .result fun _ => hbusy, busRead_registerWords,
    fun s => ⟨descAddr_eq_mod _, descLen_eq_div _, descAddr_eq_mod _, descLen_eq_div _, rfl⟩, ?_, ?_⟩
  · obtain ⟨hbusy, hfield, hphase, hreserved, -⟩ := statusWord_flags s
    exact ⟨hbusy, hfield, hphase, hreserved, statusWord_genValid s, statusWord_numbers s hcount⟩
  · exact (busRead_address .reset .status nofun).trans (by decide)
  · exact (busRead_address .reset .framer0 nofun).trans (by decide)

end Sys2Proof.Machine
end

section
/-! SUPPORT and proof of `Obligations.TablesAreConstantOutsideIdle` (O55; rules R86, R253). Each effect of `Laws/Step.lean`
that writes a table or a configuration register carries the premise PIPE_STATE = IDLE; every other effect leaves them as they
are. -/

namespace Sys2Proof.Machine

/-- The field tables, the generator slots, the phase table and the configuration registers are the same (rule R86). -/
structure SameTables (s t : State) : Prop where
  field : t.field = s.field
  gens : t.gens = s.gens
  phase : t.phase = s.phase
  settings : t.settings = s.settings

theorem SameTables.refl (s : State) : SameTables s s := ⟨rfl, rfl, rfl, rfl⟩

section
variable {s t : State}

theorem WriteEffect.sameTables (hp : s.pipe ≠ .idle) (h : WriteEffect s t) : SameTables s t := by
  cases h
  case settings hidle _ _ => exact absurd hidle hp
  all_goals exact ⟨rfl, rfl, rfl, rfl⟩

theorem CommandEffect.sameTables (hp : s.pipe ≠ .idle) (h : CommandEffect s t) : SameTables s t := by
  cases h
  case field poly hidle _ _ => exact absurd hidle hp
  case slot hidle _ _ _ => exact absurd hidle hp
  case table hidle => exact absurd hidle hp
  all_goals exact ⟨rfl, rfl, rfl, rfl⟩

theorem ProducerEffect.sameTables {b : List Byte} (h : ProducerEffect s b t) : SameTables s t := by
  cases h <;> exact ⟨rfl, rfl, rfl, rfl⟩

theorem WorkerEffect.sameTables (h : WorkerEffect s t) : SameTables s t := by
  cases h <;> exact ⟨rfl, rfl, rfl, rfl⟩

/-- Outside IDLE every event but the reset input keeps the tables and the configuration. -/
theorem EventEffect.sameTables {e : Event} (hp : s.pipe ≠ .idle) (he : e ≠ .reset) (h : EventEffect s e t) :
    SameTables s t := by
  cases h with
  | read addr w n => exact ⟨rfl, rfl, rfl, rfl⟩
  | write addr v hw => exact hw.sameTables hp
  | idle _ => exact .refl s
  | command _ hc => exact hc.sameTables hp
  | input b hb => exact hb.sameTables
  | worker hw => exact hw.sameTables
  | reset => exact absurd rfl he

theorem SameTables.of_takeEvent (h : SameTables s.takeEvent t) : SameTables s t := ⟨h.field, h.gens, h.phase, h.settings⟩

theorem step_sameTables (hp : s.pipe ≠ .idle) (hr : s.nextEvent ≠ some .reset) (h : step s = .next t) :
    SameTables s t := by
  obtain ⟨-, rfl⟩ | ⟨e, he, heffect⟩ := step_effect h
  · exact .refl _
  · exact .of_takeEvent (heffect.sameTables hp fun hreset => hr (hreset ▸ he))

end

/-- Settles O55: a step is one event (`step_effect`), and no event but the reset input reaches the tables outside IDLE. -/
theorem tablesAreConstantOutsideIdle : Obligations.TablesAreConstantOutsideIdle := by
  intro s t hp hr h
  obtain ⟨hfield, hgens, hphase, hsettings⟩ := step_sameTables hp hr h
  exact ⟨hfield, hgens, hphase, hsettings⟩

end Sys2Proof.Machine
end

section
/-! SUPPORT: the address map (rules R71, R72). `Reaches` says once which addresses each target has; which target an address
has, and which addresses a write can reach, follow from it. With it the proof of `Obligations.OtherAddressesIgnoreWrites`
(O43; rules R71, R72, R77). -/

namespace Sys2Proof.Machine

/-! ### Targets -/

/-- The address map by its targets: the word addresses that reach each (rule R72). -/
inductive Reaches (p : Config.Params) (a : Nat) : Target → Prop where
  | reg (r : Reg) (hr : registerAt a = some r) (ha : a < 0xC4) : Reaches p a (.reg r)
  | power (hlo : 0x1000 ≤ a) (hhi : a < 0x1100) : Reaches p a (.powerWindow (a - 0x1000))
  | log (hlo : 0x1100 ≤ a) (hhi : a < 0x1200) : Reaches p a (.logWindow (a - 0x1100))
  | gen (hlo : 0x1400 ≤ a) (hhi : a < 0x1800) :
      Reaches p a (.genWindow (Fin.ofNat Config.ngen ((a - 0x1400) / 256)) ((a - 0x1400) % 256))
  | xram (hlo : 0x2000 ≤ a) (hhi : a < 0x2000 + p.xramBytes) : Reaches p a (.xramWindow (a - 0x2000))
  | lut (hxram : 0x2000 + p.xramBytes ≤ a) (hlo : 0x40000 ≤ a) (hhi : a < 0x80000) :
      Reaches p a (.lutWindow (BitVec.ofNat 8 ((a - 0x40000) / 4 / 256)) (BitVec.ofNat 8 ((a - 0x40000) / 4)))
  | unmapped (hreg : 0xC4 ≤ a) (htables : ¬ (0x1000 ≤ a ∧ a < 0x1200)) (hgen : ¬ (0x1400 ≤ a ∧ a < 0x1800))
      (hxram : ¬ (0x2000 ≤ a ∧ a < 0x2000 + p.xramBytes)) (hlut : ¬ (0x40000 ≤ a ∧ a < 0x80000)) :
      Reaches p a .unmapped

/-- `registerMap` lists 49 words from address 0 on, so `registerAt` answers exactly below 0xC4. -/
theorem registerMap_length : registerMap.length = 49 := rfl

theorem targetAt_reaches (p : Config.Params) (a : Nat) : Reaches p a (targetAt p a) := by
  unfold targetAt
  split
  next r hr =>
    have hlen : a / 4 < registerMap.length := (List.getElem?_eq_some_iff.mp hr).1
    exact .reg r hr (by rw [registerMap_length] at hlen; omega)
  next hnone =>
    have hlen : registerMap.length ≤ a / 4 := List.getElem?_eq_none_iff.mp hnone
    rw [registerMap_length] at hlen
    split
    next h => exact .power h.1 h.2
    split
    next h => exact .log h.1 h.2
    split
    next h => exact .gen h.1 h.2
    split
    next h => exact .xram h.1 h.2
    split
    next h => exact .lut (by omega) h.1 h.2
    next hpower hlog hgen hxram hlut => exact .unmapped (by omega) (by omega) hgen hxram hlut

/-- No address has two targets. -/
theorem Reaches.unique {p : Config.Params} {a : Nat} {t u : Target} (ht : Reaches p a t)
    (hu : Reaches p a u) : t = u := by
  cases ht <;> cases hu
  case reg.reg hr _ _ hr' _ => exact congrArg _ (Option.some.inj (hr.symm.trans hr'))
  case power.power | log.log | gen.gen | xram.xram | lut.lut | unmapped.unmapped => rfl
  all_goals omega

theorem xramBytes_le_of_legal {p : Config.Params} (hp : p.Legal) : p.xramBytes ≤ 8192 := by
  obtain ⟨-, -, -, -, -, ⟨-, -, hx⟩, -⟩ := hp
  exact hx

/-- An access goes to the target its word address reaches. -/
theorem State.target_of_reaches {s : State} {addr : BusAddr} {t : Target}
    (h : Reaches s.params (wordAddress addr) t) : s.target addr = t :=
  (targetAt_reaches _ _).unique h

theorem busRead_of_targetWord {s : State} {addr : BusAddr} {t : Target} {w : Word} (ht : s.target addr = t)
    (hw : s.targetWord t = some w) : (s.busRead addr).busData = w := by
  simp only [State.busRead, ht, hw]

/-! ### Writes that reach nothing -/

/-- The registers a write can change (rules R72, R77). -/
def writableRegisters : List Reg :=
  [.cmd, .err, .argA, .argB, .argD, .ctrl, .irqStatus, .irqEn, .center, .devMin, .devMax, .syncALo, .syncAHi, .syncULo,
    .syncUHi]

theorem writeReg_of_readOnly (s : State) (v : Word) (r : Reg) (h : r ∉ writableRegisters) : s.writeReg v r = s := by
  cases r
  case cmd | err | argA | argB | argD | ctrl | irqStatus | irqEn | center | devMin | devMax | syncALo | syncAHi | syncULo
      | syncUHi => exact absurd (by decide) h
  all_goals rfl

/-- `registerMap` names no register twice, so a register has one word address. -/
theorem eq_of_registerAt {a : Nat} {r : Reg} (h : registerAt a = some r) : a / 4 = registerMap.idxOf r := by
  obtain ⟨hlt, hget⟩ := List.getElem?_eq_some_iff.mp h
  have hnodup : registerMap.Nodup := by decide
  rw [← hget, hnodup.idxOf_getElem]

/-- The word addresses of the writable registers (rule R72). -/
theorem writableRegisters_addresses :
    writableRegisters.map (fun r => 4 * registerMap.idxOf r) =
      [0x20, 0x28, 0x30, 0x34, 0x38, 0x3C, 0x40, 0x44, 0x4C, 0x50, 0x54, 0x58, 0x5C, 0x60, 0x64] := by decide

/-- A write to anything but a writable register or XRAM is ignored (rules R71, R77). -/
theorem busWrite_ignored {s : State} {addr : BusAddr} (v : Word)
    (hreg : wordAddress addr ∉ writableRegisters.map fun r => 4 * registerMap.idxOf r)
    (hxram : ¬ (0x2000 ≤ wordAddress addr ∧ wordAddress addr < 0x2000 + s.params.xramBytes)) :
    s.busWrite addr v = s := by
  have hreach := targetAt_reaches s.params (wordAddress addr)
  unfold State.busWrite State.target
  generalize targetAt s.params (wordAddress addr) = t at hreach
  cases hreach with
  | reg r hr =>
    refine writeReg_of_readOnly s v r fun hmem => hreg (List.mem_map.mpr ⟨r, hmem, ?_⟩)
    rw [← eq_of_registerAt hr, wordAddress]
    omega
  | xram hlo hhi => exact absurd ⟨hlo, hhi⟩ hxram
  | power | log | gen | lut | unmapped => rfl

/-- Settles O43: a write changes something only at a writable register or in XRAM (`busWrite_ignored`), and the address map
leaves the ranges between its targets unmapped. -/
theorem otherAddressesIgnoreWrites : Obligations.OtherAddressesIgnoreWrites := by
  rintro s addr v a hp rfl
  refine ⟨fun hreg hxram => ?_, fun hrange => ?_⟩
  · rw [← writableRegisters_addresses] at hreg
    exact congrArg _ (busWrite_ignored v hreg hxram)
  · have hx := xramBytes_le_of_legal hp
    refine busRead_of_targetWord (State.target_of_reaches (.unmapped ?_ ?_ ?_ ?_ ?_)) rfl <;>
      (unfold wordAddress; omega)

end Sys2Proof.Machine
end

section
/-! SUPPORT and proof of `Obligations.WindowsReadTheirContents` (O41; rules R73 to R76, R78). The first part takes a word of a
byte window apart into its four bytes; the second says which target each window's addresses reach; the third what a read of
each returns. -/

namespace Sys2Proof.Machine

/-! ### The bytes of a word -/

/-- Byte `j` of four bytes put together as a word (rule R73). -/
theorem leWord_byte (b : Nat → Byte) {j : Nat} (hj : j < 4) :
    (leWord (b 0) (b 1) (b 2) (b 3)).extractLsb' (8 * j) 8 = b j := by
  unfold leWord
  match j, hj with
  | 0, _ | 1, _ | 2, _ | 3, _ =>
    simp (disch := omega) only [BitVec.extractLsb'_append_eq_of_le, BitVec.extractLsb'_append_eq_of_add_le]
    exact BitVec.extractLsb'_eq_self

/-- Byte `j` of a window's word is the window's byte at that offset (rule R73). -/
theorem windowWord_byte (window : Nat → Byte) (off : Nat) {j : Nat} (hj : j < 4) :
    (windowWord window off).extractLsb' (8 * j) 8 = window (off + j) :=
  leWord_byte (fun k => window (off + k)) hj

/-- A word is determined by its four bytes. -/
theorem word_ext {v w : Word} (h : ∀ j, j < 4 → v.extractLsb' (8 * j) 8 = w.extractLsb' (8 * j) 8) : v = w := by
  refine BitVec.eq_of_getLsbD_eq fun i hi => ?_
  have hbyte := congrArg (BitVec.getLsbD · (i % 8)) (h (i / 8) (by omega))
  simpa [BitVec.getLsbD_extractLsb', Nat.mod_lt, Nat.div_add_mod] using hbyte

/-- The bytes of a word are listed from bits [7:0] up (rule R73). -/
theorem wordBytes_getD (w : Word) {j : Nat} (hj : j < 4) : (wordBytes w).getD j 0 = w.extractLsb' (8 * j) 8 :=
  match j, hj with
  | 0, _ | 1, _ | 2, _ | 3, _ => rfl

/-! ### The windows' addresses -/

theorem wordAddress_ofNat {a : Nat} (h4 : a % 4 = 0) (ha : a < 2 ^ 20) : wordAddress (BitVec.ofNat 20 a) = a := by
  rw [wordAddress, BitVec.toNat_ofNat, Nat.mod_eq_of_lt ha]
  omega

/-- Reading the word at a word address that reaches `t` (rule R70). -/
theorem busRead_ofNat {s : State} {a : Nat} {t : Target} {w : Word} (h4 : a % 4 = 0)
    (ha : a < 2 ^ 20) (ht : Reaches s.params a t) (hw : s.targetWord t = some w) :
    (s.busRead (BitVec.ofNat 20 a)).busData = w :=
  busRead_of_targetWord (State.target_of_reaches (by rwa [wordAddress_ofNat h4 ha])) hw

/-! ### What a read of each window returns -/

section
variable (s : State)

theorem busRead_power {m : Nat} (hm : m < 64) :
    (s.busRead (BitVec.ofNat 20 (0x01000 + 4 * m))).busData =
      if s.field.valid then windowWord s.field.tables.powerAt (4 * m) else 0 := by
  have hreach : Reaches s.params (0x01000 + 4 * m) (.powerWindow (0x01000 + 4 * m - 0x1000)) :=
    .power (by omega) (by omega)
  rw [Nat.add_sub_cancel_left] at hreach
  exact busRead_ofNat (by omega) (by omega) hreach rfl

theorem busRead_log {m : Nat} (hm : m < 64) :
    (s.busRead (BitVec.ofNat 20 (0x01100 + 4 * m))).busData =
      if s.field.valid then windowWord (fun k => s.field.tables.log.getD k 0) (4 * m) else 0 := by
  have hreach : Reaches s.params (0x01100 + 4 * m) (.logWindow (0x01100 + 4 * m - 0x1100)) :=
    .log (by omega) (by omega)
  rw [Nat.add_sub_cancel_left] at hreach
  exact busRead_ofNat (by omega) (by omega) hreach rfl

theorem busRead_gen (k : Fin Config.ngen) {m : Nat} (hm : m < 64) :
    (s.busRead (BitVec.ofNat 20 (0x01400 + 0x100 * k.val + 4 * m))).busData =
      if (s.gen k).valid then windowWord (s.gen k).coeff (4 * m) else 0 := by
  have hk : k.val < 4 := k.isLt
  have hslot : Fin.ofNat Config.ngen ((0x01400 + 0x100 * k.val + 4 * m - 0x1400) / 256) = k :=
    Fin.ext (show (0x01400 + 0x100 * k.val + 4 * m - 0x1400) / 256 % 4 = k.val by omega)
  have hoff : (0x01400 + 0x100 * k.val + 4 * m - 0x1400) % 256 = 4 * m := by omega
  have hreach := Reaches.gen (p := s.params) (a := 0x01400 + 0x100 * k.val + 4 * m) (by omega) (by omega)
  rw [hslot, hoff] at hreach
  exact busRead_ofNat (by omega) (by omega) hreach rfl

theorem busRead_lut (hp : s.params.Legal) (i q : Byte) :
    (s.busRead (BitVec.ofNat 20 (0x40000 + 4 * (256 * i.toNat + q.toNat)))).busData =
      if s.phase.valid then BitVec.ofInt 32 (s.lut i q) else 0 := by
  have hx := xramBytes_le_of_legal hp
  have hi := i.isLt
  have hq := q.isLt
  have hi' : BitVec.ofNat 8 ((0x40000 + 4 * (256 * i.toNat + q.toNat) - 0x40000) / 4 / 256) = i :=
    BitVec.eq_of_toNat_eq (by rw [BitVec.toNat_ofNat]; omega)
  have hq' : BitVec.ofNat 8 ((0x40000 + 4 * (256 * i.toNat + q.toNat) - 0x40000) / 4) = q :=
    BitVec.eq_of_toNat_eq (by rw [BitVec.toNat_ofNat]; omega)
  have hreach := Reaches.lut (p := s.params) (a := 0x40000 + 4 * (256 * i.toNat + q.toNat)) (by omega) (by omega) (by omega)
  rw [hi', hq'] at hreach
  exact busRead_ofNat (by omega) (by omega) hreach rfl

/-- The offset of an XRAM word in its window. -/
theorem reaches_xram (hp : s.params.Legal) {k : Nat} (hk : 4 * k < s.params.xramBytes) :
    Reaches s.params (wordAddress (BitVec.ofNat 20 (0x02000 + 4 * k))) (.xramWindow (4 * k)) := by
  have hx := xramBytes_le_of_legal hp
  have hreach : Reaches s.params (0x02000 + 4 * k) (.xramWindow (0x02000 + 4 * k - 0x2000)) :=
    .xram (by omega) (by omega)
  rw [Nat.add_sub_cancel_left] at hreach
  rwa [wordAddress_ofNat (by omega) (by omega)]

theorem busRead_xram (hp : s.params.Legal) (hb : s.busy = false) {k : Nat} (hk : 4 * k < s.params.xramBytes) :
    (s.busRead (BitVec.ofNat 20 (0x02000 + 4 * k))).busData = windowWord s.xramByte (4 * k) :=
  busRead_of_targetWord (State.target_of_reaches (reaches_xram s hp hk)) (if_neg (by simp [hb]))

/-- A write of an XRAM word while BUSY = 0 (rules R76, R253). -/
theorem busWrite_xram (hp : s.params.Legal) (hb : s.busy = false) {k : Nat} (hk : 4 * k < s.params.xramBytes) (v : Word) :
    s.busWrite (BitVec.ofNat 20 (0x02000 + 4 * k)) v = s.writeXram (4 * k) (wordBytes v) := by
  rw [State.busWrite, State.target_of_reaches (reaches_xram s hp hk)]
  exact if_neg (by simp [hb])

end

/-- An entry of LUT fits the bus word, sign-extended (rules R44, R75). -/
theorem lut_toInt {s : State} (hp : s.params.Legal) (i q : Byte) : (BitVec.ofInt 32 (s.lut i q)).toInt = s.lut i q := by
  obtain ⟨-, -, -, ⟨hlo, hhi⟩, -⟩ := hp
  obtain ⟨hmin, hmax⟩ := State.lut_inRange (s := s) (by omega) i q
  have hpow : (2 : Int) ^ (s.params.pw - 1) ≤ 2 ^ 31 := pow_le_pow_right₀ (by norm_num) (by omega)
  exact BitVec.toInt_ofInt_eq_self (by norm_num) (by omega) (by omega)

theorem coeff_eq (g : GenSlot) (k : Nat) : g.coeff k = if k < g.coeffs.length then g.coeffs.getD k 0 else 0 := by
  unfold GenSlot.coeff
  split
  next => rfl
  next h => exact List.getD_eq_default _ _ (by omega)

/-- The bytes of a written XRAM word (rules R73, R76). -/
theorem xramByte_of_written {s : State} (h : Memory.wf s.xram = true) (off : Nat) (v : Word) {j : Nat} (hj : j < 4) :
    (s.writeXram off (wordBytes v)).xramByte (off + j) = v.extractLsb' (8 * j) 8 := by
  have hin : off ≤ off + j ∧ off + j < off + (wordBytes v).length := ⟨by omega, Nat.add_lt_add_left hj off⟩
  rw [State.xramByte_writeXram h, if_pos hin, Nat.add_sub_cancel_left, wordBytes_getD v hj]

/-- The bytes of every other XRAM word (rule R76). -/
theorem xramByte_of_unwritten {s : State} (h : Memory.wf s.xram = true) {k m : Nat} (hne : m ≠ k) (v : Word) {j : Nat}
    (hj : j < 4) : (s.writeXram (4 * k) (wordBytes v)).xramByte (4 * m + j) = s.xramByte (4 * m + j) := by
  have hout : ¬ (4 * k ≤ 4 * m + j ∧ 4 * m + j < 4 * k + (wordBytes v).length) := by
    rw [show (wordBytes v).length = 4 from rfl]
    omega
  rw [State.xramByte_writeXram h, if_neg hout]

/-- The word written to XRAM is read back (rule R76). -/
theorem busRead_of_written {s : State} (h : Memory.wf s.xram = true) (hp : s.params.Legal) (hb : s.busy = false) {k : Nat}
    (hk : 4 * k < s.params.xramBytes) (v : Word) :
    ((s.writeXram (4 * k) (wordBytes v)).busRead (BitVec.ofNat 20 (0x02000 + 4 * k))).busData = v := by
  rw [busRead_xram (s.writeXram (4 * k) (wordBytes v)) hp hb hk]
  refine word_ext fun j hj => ?_
  rw [windowWord_byte _ _ hj, xramByte_of_written h _ v hj]

/-- Every other word of the XRAM window reads as before (rule R76). -/
theorem busRead_of_unwritten {s : State} (h : Memory.wf s.xram = true) (hp : s.params.Legal) (hb : s.busy = false)
    {k m : Nat} (hm : 4 * m < s.params.xramBytes) (hne : m ≠ k) (v : Word) :
    ((s.writeXram (4 * k) (wordBytes v)).busRead (BitVec.ofNat 20 (0x02000 + 4 * m))).busData =
      (s.busRead (BitVec.ofNat 20 (0x02000 + 4 * m))).busData := by
  rw [busRead_xram (s.writeXram (4 * k) (wordBytes v)) hp hb hm, busRead_xram s hp hb hm]
  refine word_ext fun j hj => ?_
  rw [windowWord_byte _ _ hj, windowWord_byte _ _ hj, xramByte_of_unwritten h hne v hj]

/-- Settles O41: each window is read by its own lemma, and its word is taken apart into bytes (`windowWord_byte`). -/
theorem windowsReadTheirContents : Obligations.WindowsReadTheirContents := by
  refine ⟨fun s m hm => ⟨fun hinvalid => ?_, fun hvalid j hj => ?_, fun k => ⟨fun hinvalid => ?_, fun hvalid j hj => ?_⟩⟩,
    fun s i q => ⟨fun hinvalid hp => ?_, fun hvalid hp => ?_⟩, fun s k hp hb hk j hj => ?_,
    fun s k v hinv hp hb hk => ?_⟩
  · simp [busRead_power s hm, busRead_log s hm, hinvalid]
  · rw [busRead_power s hm, busRead_log s hm, if_pos hvalid, if_pos hvalid, windowWord_byte _ _ hj,
      windowWord_byte _ _ hj]
    exact ⟨rfl, rfl⟩
  · simp [busRead_gen s k hm, hinvalid]
  · rw [busRead_gen s k hm, if_pos hvalid, windowWord_byte _ _ hj, coeff_eq]
  · simp [busRead_lut s hp, hinvalid]
  · rw [busRead_lut s hp, if_pos hvalid, lut_toInt hp]
  · rw [busRead_xram s hp hb hk, windowWord_byte _ _ hj]
  · exact ⟨s.writeXram (4 * k) (wordBytes v), congrArg Host.Outcome.next (busWrite_xram s hp hb hk v), rfl,
      busRead_of_written hinv.canonical hp hb hk v, fun j => xramByte_of_written hinv.canonical (4 * k) v,
      fun m hne hm => busRead_of_unwritten hinv.canonical hp hb hm hne v⟩

end Sys2Proof.Machine
end

section
/-! SUPPORT and proof of `Obligations.ScanFindsSyncs` (O38; rules R80, R173 to R178, R182). The first part ties the names of
the statement to the model's own; the second frees the scan of its fuel; the third says what one scan position does, a lemma
for each outcome. -/

namespace Sys2Proof.Machine

/-! ### The rules' names and the model's -/

theorem packetBits_eq_bits (v : Variant) : Claims.packetBits v = v.bits := by cases v <;> rfl

/-- The bits in front are the pattern, bit 35 first (rule R80). -/
theorem matches_iff {S : SyncPattern} {bits : List Bool} :
    Claims.Matches S bits ↔ bits.take 36 = bits36 S := by
  have hpattern (k : Nat) (hk : k < 36) : (bits36 S)[k]? = some (S.getLsbD (35 - k)) := by simp [bits36, hk]
  constructor
  · refine fun h => List.ext_getElem? fun k => ?_
    by_cases hk : k < 36
    · rw [List.getElem?_take_of_lt hk, h k hk, hpattern k hk]
    · rw [List.getElem?_eq_none (by simp; omega), List.getElem?_eq_none (by simp [bits36]; omega)]
  · intro h k hk
    rw [← List.getElem?_take_of_lt hk, h, hpattern k hk]

theorem activeVariant_of_short {bits : List Bool} (h : bits.length < 5) : activeVariant bits = none := if_pos h

theorem activeVariant_of_known {bits : List Bool} (h : 5 ≤ bits.length) :
    activeVariant bits = some (Claims.activeKind bits) := by
  rw [activeVariant, if_neg (by omega)]
  exact (apply_ite some _ _ _).symm

theorem shortfall_none (env : WorkerEnv) (kind : SpillKind) (rest : List Bool) (w : WorkerState) :
    shortfall env kind rest none w = Claims.shortfallOutcome env.params.accCap kind rest .undet 384 w := by
  cases kind <;> rfl

theorem shortfall_some (env : WorkerEnv) (kind : SpillKind) (rest : List Bool) (v : Variant) (w : WorkerState) :
    shortfall env kind rest (some v) w =
      Claims.shortfallOutcome env.params.accCap kind rest (.pending v) v.bits w := by
  cases kind <;> rfl

/-- The tail is kept at a SEAM and discarded at a BREAK (rule R178). -/
theorem spillTail_seam {rest : List Bool} {w : WorkerState} (hc : w.framer.cont = .none) :
    spillTail .seam rest w = Claims.framed rest .none .searching w := by
  rw [spillTail, hc]
  rfl

theorem spillTail_brk {rest : List Bool} {w : WorkerState} (hc : w.framer.cont = .none) :
    spillTail .brk rest w = Claims.framed [] .none .searching w := by
  rw [spillTail, hc]
  rfl

/-- A dispatch neither reads nor writes the framer (rules R200 to R207). -/
theorem dispatchPacket_withFramer (env : WorkerEnv) (v : Variant) (bits : List Bool) (w : WorkerState) (f : Framer) :
    dispatchPacket env v bits { w with framer := f } = { dispatchPacket env v bits w with framer := f } := by
  simp only [dispatchPacket, rawEmit, validatePacket, WorkerState.emit]
  repeat' split
  all_goals rfl

/-- A packet runs through DISPATCHING to SEARCHING (rules R173, R179). -/
theorem dispatching_eq (env : WorkerEnv) (v : Variant) (bits : List Bool) (w : WorkerState) :
    dispatching env v bits w =
      { dispatchPacket env v bits w with framer := { w.framer with fstate := .searching } } := by
  simp only [dispatching, WorkerState.setFramerState, dispatchPacket_withFramer]

/-! ### The fuel of the scan -/

/-- Each pass drops at least one bit, so any fuel above the number of bits gives the same scan. -/
theorem scan_eq_of_fuel (env : WorkerEnv) (kind : SpillKind) :
    ∀ (n m : Nat) (rest : List Bool) (w : WorkerState), rest.length < n → rest.length < m →
      scan env kind n rest w = scan env kind m rest w := by
  intro n
  induction n with
  | zero => intro m rest w hn; omega
  | succ n ih =>
    intro m rest w hn hm
    cases m with
    | zero => omega
    | succ m =>
      unfold scan
      split
      · rfl
      next hlong =>
        rw [List.length_take] at hlong
        have hrec (k : Nat) (w' : WorkerState) :
            scan env kind n ((rest.drop 36).drop k) w' = scan env kind m ((rest.drop 36).drop k) w' :=
          ih m _ w' (by simp; omega) (by simp; omega)
        have hnext : scan env kind n (rest.drop 1) w = scan env kind m (rest.drop 1) w :=
          ih m _ w (by simp; omega) (by simp; omega)
        simp only [hrec, hnext]

theorem scan_eq_scanFrom {env : WorkerEnv} {kind : SpillKind} {fuel : Nat} {rest : List Bool} {w : WorkerState}
    (h : rest.length < fuel) : scan env kind fuel rest w = scanFrom env kind rest w :=
  scan_eq_of_fuel env kind _ _ rest w h (Nat.lt_succ_self _)

/-! ### One scan position -/

section
variable {env : WorkerEnv} {kind : SpillKind} {rest : List Bool} {w : WorkerState}

theorem scanFrom_tail (h : rest.length < 36) : scanFrom env kind rest w = .going (spillTail kind rest w) := by
  have hshort : (rest.take 36).length < 36 := by rw [List.length_take]; omega
  rw [scanFrom, scan, if_pos hshort]

theorem length_take_of_long (h : 36 ≤ rest.length) : ¬ (rest.take 36).length < 36 := by
  rw [List.length_take]
  omega

theorem scanFrom_active_undetermined (h : 36 ≤ rest.length) (hA : rest.take 36 = bits36 env.settings.syncA)
    (hv : activeVariant (rest.drop 36) = none) :
    scanFrom env kind rest w = shortfall env kind (rest.drop 36) none w.countSyncA := by
  rw [scanFrom, scan, if_neg (length_take_of_long h), if_pos hA, hv]

theorem scanFrom_active_short (h : 36 ≤ rest.length) (hA : rest.take 36 = bits36 env.settings.syncA) {v : Variant}
    (hv : activeVariant (rest.drop 36) = some v) (hlen : rest.length < 36 + v.bits) :
    scanFrom env kind rest w = shortfall env kind (rest.drop 36) (some v) w.countSyncA := by
  have hincomplete : ¬ v.bits ≤ (rest.drop 36).length := by rw [List.length_drop]; omega
  rw [scanFrom, scan, if_neg (length_take_of_long h), if_pos hA, hv]
  exact if_neg hincomplete

theorem scanFrom_active_complete (hA : rest.take 36 = bits36 env.settings.syncA) {v : Variant}
    (hv : activeVariant (rest.drop 36) = some v) (hlen : 36 + v.bits ≤ rest.length) :
    scanFrom env kind rest w = scanFrom env kind (rest.drop (36 + v.bits))
      (dispatching env v ((rest.drop 36).take v.bits) w.countSyncA) := by
  have hcomplete : v.bits ≤ (rest.drop 36).length := by rw [List.length_drop]; omega
  rw [scanFrom, scan, if_neg (length_take_of_long (by omega)), if_pos hA, hv]
  refine (if_pos hcomplete).trans ?_
  rw [List.drop_drop, scan_eq_scanFrom (by rw [List.length_drop]; omega)]

theorem scanFrom_uplink_short (h : 36 ≤ rest.length) (hA : rest.take 36 ≠ bits36 env.settings.syncA)
    (hU : rest.take 36 = bits36 env.settings.syncU) (hlen : rest.length < 36 + Variant.uplink.bits) :
    scanFrom env kind rest w = shortfall env kind (rest.drop 36) (some .uplink) w.countSyncU := by
  have hincomplete : ¬ Variant.uplink.bits ≤ (rest.drop 36).length := by rw [List.length_drop]; omega
  rw [scanFrom, scan, if_neg (length_take_of_long h), if_neg hA, if_pos hU, if_neg hincomplete]

theorem scanFrom_uplink_complete (hA : rest.take 36 ≠ bits36 env.settings.syncA)
    (hU : rest.take 36 = bits36 env.settings.syncU) (hlen : 36 + Variant.uplink.bits ≤ rest.length) :
    scanFrom env kind rest w = scanFrom env kind (rest.drop (36 + Variant.uplink.bits))
      (dispatching env .uplink ((rest.drop 36).take Variant.uplink.bits) w.countSyncU) := by
  have hcomplete : Variant.uplink.bits ≤ (rest.drop 36).length := by rw [List.length_drop]; omega
  rw [scanFrom, scan, if_neg (length_take_of_long (by omega)), if_neg hA, if_pos hU, if_pos hcomplete, List.drop_drop,
    scan_eq_scanFrom (by rw [List.length_drop]; omega)]

theorem scanFrom_advance (h : 36 ≤ rest.length) (hA : rest.take 36 ≠ bits36 env.settings.syncA)
    (hU : rest.take 36 ≠ bits36 env.settings.syncU) :
    scanFrom env kind rest w = scanFrom env kind (rest.drop 1) w := by
  rw [scanFrom, scan, if_neg (length_take_of_long h), if_neg hA, if_neg hU,
    scan_eq_scanFrom (by rw [List.length_drop]; omega)]

end

/-- Settles O38: at each scan position one of the lemmas above applies. -/
theorem scanFindsSyncs : Obligations.ScanFindsSyncs := by
  intro env kind rest w counted hcont
  refine ⟨fun htail => ?_, fun hlong hA hcounted => ?_, fun hlong hA hU hcounted => ?_, fun hlong hA hU => ?_⟩
  · rw [scanFrom_tail htail]
    cases kind with
    | seam => exact congrArg _ (spillTail_seam hcont)
    | brk => exact congrArg _ (spillTail_brk hcont)
  · subst hcounted
    rw [matches_iff] at hA
    have hdrop : (rest.drop 36).length = rest.length - 36 := List.length_drop
    refine ⟨fun hundet => ?_, fun v hknown hv hlen => ?_, fun v hknown hv hlen => ?_⟩
    · rw [scanFrom_active_undetermined hlong hA (activeVariant_of_short (by omega)), shortfall_none]
      rfl
    · subst hv
      rw [packetBits_eq_bits] at hlen ⊢
      rw [scanFrom_active_short hlong hA (activeVariant_of_known (by omega)) hlen, shortfall_some]
      rfl
    · subst hv
      rw [packetBits_eq_bits] at hlen ⊢
      rw [scanFrom_active_complete hA (activeVariant_of_known (by omega)) hlen, dispatching_eq]
      rfl
  · subst hcounted
    rw [matches_iff] at hA hU
    refine ⟨fun hlen => ?_, fun hlen => ?_⟩
    · rw [scanFrom_uplink_short hlong hA hU hlen, shortfall_some]
      rfl
    · refine (scanFrom_uplink_complete hA hU hlen).trans ?_
      rw [dispatching_eq]
      rfl
  · rw [matches_iff] at hA hU
    exact scanFrom_advance hlong hA hU

end Sys2Proof.Machine
end

section
/-! SUPPORT: a write to a register goes to that register's rule (rules R22, R72). With it the proof of
`Obligations.InterruptLineFollowsStatusAndEnable` (O46; rules R29, R30, R102, R259). -/

namespace Sys2Proof.Machine

theorem eventStep_busWrite_address (s : State) (v : Word) (r : Reg) :
    eventStep (.busWrite r.address v) s = .next (s.writeReg v r) := by
  simp only [eventStep, State.busWrite, target_address, State.writeTarget]

/-- A written 1 clears its bit and a written 0 leaves it (rule R29). -/
theorem clearIrq_getLsbD (s : State) (v : Word) {i : Nat} (hi : i < 5) :
    (s.clearIrq (v.setWidth 5)).irqStatus.getLsbD i = (s.irqStatus.getLsbD i && !v.getLsbD i) := by
  simp only [State.clearIrq_irqStatus, BitVec.getLsbD_and, BitVec.getLsbD_not, BitVec.getLsbD_setWidth, hi, decide_true,
    Bool.true_and]

/-- The line is the disjunction of the enabled status bits (rule R102). -/
theorem irqLine_iff (s : State) :
    s.irqLine = true ↔ ∃ i, i < 5 ∧ s.irqStatus.getLsbD i = true ∧ s.irqEn.getLsbD i = true := by
  rw [State.irqLine, bne_iff_ne]
  constructor
  · intro hne
    by_contra hnone
    refine hne (BitVec.eq_of_getLsbD_eq fun i hi => ?_)
    rw [BitVec.getLsbD_and]
    cases hstatus : s.irqStatus.getLsbD i <;> cases hen : s.irqEn.getLsbD i
    case true.true => exact absurd ⟨i, hi, hstatus, hen⟩ hnone
    all_goals exact BitVec.getLsbD_zero.symm
  · rintro ⟨i, -, hstatus, hen⟩ hzero
    have hbit : (s.irqStatus &&& s.irqEn).getLsbD i = true := by rw [BitVec.getLsbD_and, hstatus, hen, Bool.and_self]
    rw [hzero] at hbit
    exact absurd hbit (by simp)

/-- Settles O46: the two register writes, bit by bit, and the line. -/
theorem interruptLineFollowsStatusAndEnable : Obligations.InterruptLineFollowsStatusAndEnable := by
  intro s v
  refine ⟨⟨_, eventStep_busWrite_address s v .irqStatus, fun i hi => clearIrq_getLsbD s v hi⟩,
    ⟨_, eventStep_busWrite_address s v .irqEn, fun i hi => ?_⟩, irqLine_iff s⟩
  rw [BitVec.getLsbD_setWidth, decide_eq_true hi, Bool.true_and]

end Sys2Proof.Machine
end

section
/-! SUPPORT: the command unit (rules R90, R94, R95, R251, R252). The first part ties the rule's own next states to the model's;
the second says that every command answers and ends in a completion; the third what the command unit's step does with a word
that is no command. With them the proofs of `Obligations.CommandIssueAndCompletion` (O7) and of
`Obligations.UndecodableWordRaisesItsError` (O3). -/

namespace Sys2Proof.Machine

/-! ### The rules' next states and the model's -/

theorem refusedWrite_eq_raiseError (c : ErrCode) (s : State) : Claims.refusedWrite c s = s.raiseError c := rfl

/-- The rule sets the bits ERR and CMD_DONE together, the model one after the other. -/
theorem failedWith_eq_commandError (c : ErrCode) (s : State) : Claims.failedWith c s = s.commandError c := by
  have hbits : s.irqStatus ||| 0b00011 = s.irqStatus ||| Irq.err.mask ||| Irq.cmdDone.mask := by
    rw [BitVec.or_assoc]
    rfl
  rw [Claims.failedWith, hbits]
  rfl

/-! ### A command word written to CMD -/

theorem issueCommand_of_busy {s : State} (w : Word) (hb : s.busy = true) : s.issueCommand w = s.raiseError .busy := by
  rw [State.issueCommand, if_pos hb]

theorem issueCommand_of_free {s : State} (w : Word) (hb : s.busy = false) :
    s.issueCommand w = { s with cmd := w, busy := true } := by
  rw [State.issueCommand, if_neg (by simp [hb])]

/-! ### Every command answers, and completes -/

/-- The outcome is a next state: no fault and no refusal. -/
def Answers (o : Host.Outcome State Fault Refusal) : Prop := ∃ t, o = .next t

theorem Answers.next (t : State) : Answers (.next t) := ⟨t, rfl⟩

/-- A check that raises a command error answers if what follows it does. -/
theorem Answers.check {p : Prop} [Decidable p] {t : State} {o : Host.Outcome State Fault Refusal} (h : Answers o) :
    Answers (if p then .next t else o) := by
  split
  · exact .next t
  · exact h

/-- The checks of a command, in its own order, and then its effect. -/
theorem exec_answers (i : Instr) (s : State) : Answers (exec i s) := by
  cases i with
  | nop | gfAdd | clearStats => exact .next _
  | gfMul | demodInit | shutdown => exact .check (.next _)
  | deinterleave | run => exact .check (.check (.next _))
  | fieldBuild | genBuild | polyMul | remainder => exact .check (.check (.check (.next _)))
  | validate variant =>
    show Answers (execValidate variant s)
    unfold execValidate
    split
    · exact .next _
    · exact .next _

/-- The state is that of a command's completion (rule R90). -/
structure Completes (s t : State) : Prop where
  busy : t.busy = false
  cmdDone : t.irqStatus.getLsbD 0 = true
  cmd : t.cmd = s.cmd

theorem complete_completes {s u : State} (hcmd : u.cmd = s.cmd) : Completes s u.complete where
  busy := rfl
  cmdDone := by
    rw [State.complete_irqStatus, BitVec.getLsbD_or, Bool.or_eq_true]
    exact .inr rfl
  cmd := hcmd

theorem CommandEffect.completes {s t : State} (h : CommandEffect s t) : Completes s t := by
  cases h with
  | nothing | field | table | session | shutdown | statistics => exact complete_completes rfl
  | failed c => exact complete_completes (u := s.raiseError c) rfl
  | result w => exact complete_completes (u := s.setResult w) rfl
  | slot k start stop w => exact complete_completes (u := (s.setGen k _).setResult w) rfl
  | xram addr bytes w => exact complete_completes (u := (s.writeXram addr bytes).setResult w) rfl

theorem exec_completes (i : Instr) (s : State) : ∃ t, exec i s = .next t ∧ Completes s t := by
  obtain ⟨t, ht⟩ := exec_answers i s
  exact ⟨t, ht, (exec_effect ht).completes⟩

/-! ### The command unit's step -/

theorem commandStep_of_decoded {s : State} {i : Instr} (hb : s.busy = true) (hd : decode s.cmd = .ok i) :
    eventStep .command s = exec i s := by
  simp only [eventStep, commandStep, if_pos hb, hd]

theorem commandStep_of_undecodable {s : State} {e : DecodeError} (hb : s.busy = true) (hd : decode s.cmd = .error e) :
    eventStep .command s = .next (s.commandError (decodeErrCode e)) := by
  simp only [eventStep, commandStep, if_pos hb, hd]

theorem commandStep_completes {s : State} (hb : s.busy = true) :
    ∃ t, eventStep .command s = .next t ∧ Completes s t := by
  cases hd : decode s.cmd with
  | ok i => rw [commandStep_of_decoded hb hd]; exact exec_completes i s
  | error e => exact ⟨_, commandStep_of_undecodable hb hd, (CommandEffect.failed _).completes⟩

/-- Settles O7: the two cases of a write to CMD, and the completion that ends every command and every error. -/
theorem commandIssueAndCompletion : Obligations.CommandIssueAndCompletion := by
  refine ⟨fun s w hb => ?_, fun s w hb => ?_, fun i s => ?_, fun s hb => ?_⟩
  · rw [refusedWrite_eq_raiseError, ← issueCommand_of_busy w hb]
    exact eventStep_busWrite_address s w .cmd
  · rw [← issueCommand_of_free w hb]
    exact eventStep_busWrite_address s w .cmd
  · obtain ⟨t, ht, hbusy, hdone, hcmd⟩ := exec_completes i s
    exact ⟨t, ht, hbusy, hdone, hcmd⟩
  · obtain ⟨t, ht, hbusy, hdone, hcmd⟩ := commandStep_completes hb
    exact ⟨t, ht, hbusy, hdone, hcmd⟩

/-! ### Words that are no command -/

/-- The row an opcode selects has the opcode's mask; an opcode that selects none is in none of the 13 rows (rules R92, R93,
R95). -/
theorem opcodeRow_cases (w : Word) :
    (∃ format i, opcodeRow w = some (format, i) ∧ (opcodeField w, format.reservedMask) ∈ Claims.opcodeMasks) ∨
    (opcodeRow w = none ∧ ∀ row ∈ Claims.opcodeMasks, opcodeField w ≠ row.1) := by
  unfold opcodeRow
  split
  case h_14 =>
    refine .inr ⟨rfl, ?_⟩
    simp only [Claims.opcodeMasks, List.cons_append, List.nil_append, List.forall_mem_cons,
      List.not_mem_nil, IsEmpty.forall_iff, implies_true, and_true]
    and_intros <;> assumption
  all_goals
    rename_i hopcode
    exact .inl ⟨_, _, rfl, by rw [hopcode]; simp [Claims.opcodeMasks, Format.reservedMask]⟩

/-- No opcode stands in two rows. -/
theorem opcodeMasks_unique {row row' : Byte × Word} (h : row ∈ Claims.opcodeMasks) (h' : row' ∈ Claims.opcodeMasks)
    (heq : row.1 = row'.1) : row = row' :=
  List.inj_on_of_nodup_map (by decide : (Claims.opcodeMasks.map Prod.fst).Nodup) h h' heq

theorem decode_of_unlisted {w : Word} (h : ∀ row ∈ Claims.opcodeMasks, opcodeField w ≠ row.1) :
    decode w = .error .illegalOpcode := by
  rcases opcodeRow_cases w with ⟨format, i, -, hmem⟩ | ⟨hnone, -⟩
  · exact absurd rfl (h _ hmem)
  · rw [decode, hnone]

theorem decode_of_reserved {w : Word} {row : Byte × Word} (hrow : row ∈ Claims.opcodeMasks) (hopcode : opcodeField w = row.1)
    (hreserved : w &&& row.2 ≠ 0) : decode w = .error .reservedNonzero := by
  rcases opcodeRow_cases w with ⟨format, i, hsome, hmem⟩ | ⟨-, hunlisted⟩
  · have hmask : format.reservedMask = row.2 := congrArg Prod.snd (opcodeMasks_unique hmem hrow hopcode)
    simp only [decode, hsome, hmask, if_neg hreserved]
  · exact absurd hopcode (hunlisted row hrow)

/-- Settles O3: such a word decodes to its error, and the command unit's step raises it. -/
theorem undecodableWordRaisesItsError : Obligations.UndecodableWordRaisesItsError := by
  intro s hb
  refine ⟨fun hunlisted => ?_, fun row hrow hopcode hreserved => ?_⟩
  · rw [failedWith_eq_commandError]
    exact commandStep_of_undecodable hb (decode_of_unlisted hunlisted)
  · rw [failedWith_eq_commandError]
    exact commandStep_of_undecodable hb (decode_of_reserved hrow hopcode hreserved)

end Sys2Proof.Machine
end

section
/-! SUPPORT and proof of `Obligations.RecordWordsCarryTheRecord` (O33; rules R103, R106): the header is taken apart into its
fields as the composed register words are, and the data words into their bytes as the words of the byte windows are. -/

namespace Sys2Proof.Machine

theorem Variant.code_lt (v : Variant) : v.code < 4 := by cases v <;> decide

theorem variantNumber_eq_code (v : Variant) : Claims.variantNumber v = v.code := by cases v <;> rfl

/-- The header (rule R103) as placed values. -/
theorem header_eq_placed (r : Record) :
    r.header = placed r.tag.code 0 ||| placed r.raw.toNat 3 ||| placed r.ok.toNat 4 ||| placed (r.fails % 8) 5 |||
      placed (r.data.length % 1024) 16 := by
  simp only [Record.header, bitWord_eq_placed, placed_shiftLeft, Nat.zero_add]

theorem header_fields {r : Record} (hlen : r.data.length < 1024) (hfails : r.fails < 8) :
    (r.header.extractLsb' 0 2).toNat = r.tag.code ∧ r.header.getLsbD 2 = false ∧ r.header.getLsbD 3 = r.raw ∧
    r.header.getLsbD 4 = r.ok ∧ (r.header.extractLsb' 5 3).toNat = r.fails ∧ r.header.extractLsb' 8 8 = 0#8 ∧
    (r.header.extractLsb' 16 10).toNat = r.data.length ∧ r.header.extractLsb' 26 6 = 0#6 := by
  have htag := r.tag.code_lt
  rw [header_eq_placed, Nat.mod_eq_of_lt hfails, Nat.mod_eq_of_lt hlen]
  and_intros <;>
    simp (disch := omega) only [getLsbD_eq_field, BitVec.extractLsb'_or, placed_field_at, placed_field_below,
      placed_field_above, placed_flag_above, BitVec.or_zero, BitVec.zero_or, toNat_ofNat_of_lt, getLsbD_flag,
      BitVec.getLsbD_zero]

@[simp] theorem dataWords_length (r : Record) : r.dataWords.length = (r.data.length + 3) / 4 := by
  rw [Record.dataWords, List.length_map, List.length_range]

theorem dataWords_getD {r : Record} {m : Nat} (hm : m < (r.data.length + 3) / 4) :
    r.dataWords.getD m 0 = windowWord (fun k => r.data.getD k 0) (4 * m) := by
  simp [Record.dataWords, List.getD_eq_getElem?_getD, List.getElem?_range hm]

/-- Settles O33: the header's fields (`header_fields`), and the bytes of the data words (`windowWord_byte`). -/
theorem recordWordsCarryTheRecord : Obligations.RecordWordsCarryTheRecord := by
  intro r hlen hfails
  refine ⟨?_, ⟨r.header, rfl, ?_⟩, fun m j hm hj => ?_⟩
  · rw [Record.words, List.length_cons, dataWords_length, Nat.add_comm]
  · rw [variantNumber_eq_code]
    exact header_fields (by omega) (by omega)
  · rw [Record.words, List.getD_cons_succ, dataWords_getD hm]
    exact windowWord_byte _ _ hj

end Sys2Proof.Machine
end

section
/-! SUPPORT: the words the encoder writes decode to their commands (rules R91 to R95). A command word is an `|||` of values
`placed` at bit positions, so its fields are read as those of a composed register word are; that its reserved bits are 0 is
what the family EncodesRow says of it. -/

namespace Sys2Proof.Machine

open Laws

theorem setWidth_eq_placed {n : Nat} (x : BitVec n) : x.setWidth 32 = placed x.toNat 0 := by
  rw [placed, BitVec.shiftLeft_zero, BitVec.ofNat_toNat]

theorem ofNat_toNat_self {n : Nat} (x : BitVec n) : BitVec.ofNat n x.toNat = x := by
  rw [BitVec.ofNat_toNat, BitVec.setWidth_eq]

theorem commandWord_eq_placed (opc : Nat) (operands : Word) : commandWord opc operands = placed opc 24 ||| operands := rfl

theorem generatorOperands_eq_placed (slot : BitVec 2) (start stop : Byte) :
    generatorOperands slot start stop = placed start.toNat 16 ||| placed stop.toNat 8 ||| placed slot.toNat 0 := by
  simp only [generatorOperands, setWidth_eq_placed, placed_shiftLeft, Nat.zero_add]

theorem bytesOperands_eq_placed (a b : Byte) : bytesOperands a b = placed a.toNat 8 ||| placed b.toNat 0 := by
  simp only [bytesOperands, setWidth_eq_placed, placed_shiftLeft, Nat.zero_add]

/-- The opcode of a command word and the operand field of format P (rule R92). -/
theorem polyWord_fields (opc : Nat) (poly : BitVec 16) :
    opcodeField (commandWord opc (poly.setWidth 32)) = BitVec.ofNat 8 opc ∧
    polyField (commandWord opc (poly.setWidth 32)) = poly := by
  have hpoly := poly.isLt
  simp (disch := omega) only [opcodeField, polyField, commandWord_eq_placed, setWidth_eq_placed, BitVec.extractLsb'_or,
    placed_field_at, placed_field_below, placed_field_above, BitVec.or_zero, BitVec.zero_or, ofNat_toNat_self, and_self]

/-- The opcode of a command word and the operand field of formats S and V (rule R92). -/
theorem selectWord_fields (opc : Nat) (slot : BitVec 2) :
    opcodeField (commandWord opc (slot.setWidth 32)) = BitVec.ofNat 8 opc ∧
    selectField (commandWord opc (slot.setWidth 32)) = slot := by
  have hslot := slot.isLt
  simp (disch := omega) only [opcodeField, selectField, commandWord_eq_placed, setWidth_eq_placed, BitVec.extractLsb'_or,
    placed_field_at, placed_field_below, placed_field_above, BitVec.or_zero, BitVec.zero_or, ofNat_toNat_self, and_self]

/-- The opcode of a command word and the operand fields of format B (rule R92). -/
theorem bytesWord_fields (opc : Nat) (a b : Byte) :
    opcodeField (commandWord opc (bytesOperands a b)) = BitVec.ofNat 8 opc ∧
    middleField (commandWord opc (bytesOperands a b)) = a ∧
    lowField (commandWord opc (bytesOperands a b)) = b := by
  have ha := a.isLt
  have hb := b.isLt
  simp (disch := omega) only [opcodeField, middleField, lowField, commandWord_eq_placed, bytesOperands_eq_placed,
    BitVec.extractLsb'_or, placed_field_at, placed_field_below, placed_field_above, BitVec.or_zero, BitVec.zero_or,
    ofNat_toNat_self, and_self]

/-- The opcode of a command word and the operand fields of format G (rule R92). -/
theorem generatorWord_fields (opc : Nat) (slot : BitVec 2) (start stop : Byte) :
    opcodeField (commandWord opc (generatorOperands slot start stop)) = BitVec.ofNat 8 opc ∧
    selectField (commandWord opc (generatorOperands slot start stop)) = slot ∧
    startField (commandWord opc (generatorOperands slot start stop)) = start ∧
    middleField (commandWord opc (generatorOperands slot start stop)) = stop := by
  have hslot := slot.isLt
  have hstart := start.isLt
  have hstop := stop.isLt
  simp (disch := omega) only [opcodeField, selectField, startField, middleField, commandWord_eq_placed,
    generatorOperands_eq_placed, BitVec.extractLsb'_or, placed_field_at, placed_field_below, placed_field_above,
    BitVec.or_zero, BitVec.zero_or, ofNat_toNat_self, and_self]

/-- The operand format of a command's row (rule R93). -/
def rowFormat : Instr → Format
  | .fieldBuild _ => .poly
  | .genBuild _ _ _ => .generator
  | .gfAdd _ _ | .gfMul _ _ => .bytes
  | .remainder _ => .slot
  | .validate _ => .variant
  | .nop | .polyMul | .demodInit | .deinterleave | .run | .shutdown | .clearStats => .none

/-- The opcode of a command's word selects the command's row, and the operand fields hold its operands. -/
theorem opcodeRow_encode (i : Instr) : opcodeRow (encode i) = some (rowFormat i, i) := by
  cases i with
  | nop | polyMul | demodInit | deinterleave | run | shutdown | clearStats => rfl
  | fieldBuild poly =>
    obtain ⟨hopcode, hpoly⟩ := polyWord_fields 0x01 poly
    simp only [opcodeRow, encode, hopcode, hpoly, rowFormat]
  | genBuild slot start stop =>
    obtain ⟨hopcode, hslot, hstart, hstop⟩ := generatorWord_fields 0x02 slot start stop
    simp only [opcodeRow, encode, hopcode, hslot, hstart, hstop, rowFormat]
  | gfAdd a b =>
    obtain ⟨hopcode, ha, hb⟩ := bytesWord_fields 0x03 a b
    simp only [opcodeRow, encode, hopcode, ha, hb, rowFormat]
  | gfMul a b =>
    obtain ⟨hopcode, ha, hb⟩ := bytesWord_fields 0x04 a b
    simp only [opcodeRow, encode, hopcode, ha, hb, rowFormat]
  | remainder slot =>
    obtain ⟨hopcode, hslot⟩ := selectWord_fields 0x06 slot
    simp only [opcodeRow, encode, hopcode, hslot, rowFormat]
  | validate variant =>
    obtain ⟨hopcode, hvariant⟩ := selectWord_fields 0x0B variant
    simp only [opcodeRow, encode, hopcode, hvariant, rowFormat]

theorem encodesRow (i : Instr) : EncodesRow.Statement i := by
  cases i with
  | nop => exact EncodesRow.nop
  | fieldBuild poly => exact EncodesRow.fieldBuild poly
  | genBuild slot start stop => exact EncodesRow.genBuild slot start stop
  | gfAdd a b => exact EncodesRow.gfAdd a b
  | gfMul a b => exact EncodesRow.gfMul a b
  | polyMul => exact EncodesRow.polyMul
  | remainder slot => exact EncodesRow.remainder slot
  | demodInit => exact EncodesRow.demodInit
  | deinterleave => exact EncodesRow.deinterleave
  | validate variant => exact EncodesRow.validate variant
  | run => exact EncodesRow.run
  | shutdown => exact EncodesRow.shutdown
  | clearStats => exact EncodesRow.clearStats

/-- A row of the opcode table fixes the reserved bits of its format, and fixes them at 0 (rule R94). -/
theorem row_fixes_reserved (i : Instr) :
    EncodesRow.mask i &&& (rowFormat i).reservedMask = (rowFormat i).reservedMask ∧
    EncodesRow.pattern i &&& (rowFormat i).reservedMask = 0 := by
  cases i <;> simp only [EncodesRow.mask, EncodesRow.pattern, rowFormat, Format.reservedMask] <;> decide

theorem encode_reserved (i : Instr) : encode i &&& (rowFormat i).reservedMask = 0 := by
  obtain ⟨hmask, hpattern⟩ := row_fixes_reserved i
  have hrow : encode i &&& EncodesRow.mask i = EncodesRow.pattern i := encodesRow i
  rw [← hmask, ← BitVec.and_assoc, hrow, hpattern]

theorem decode_of_row {w : Word} {format : Format} {i : Instr} (hrow : opcodeRow w = some (format, i))
    (hreserved : w &&& format.reservedMask = 0) : decode w = .ok i := by
  simp only [decode, hrow, if_pos hreserved]

theorem decode_encode (i : Instr) : decode (encode i) = .ok i :=
  decode_of_row (opcodeRow_encode i) (encode_reserved i)

end Sys2Proof.Machine
end

section
/-! SUPPORT: polynomials coefficient by coefficient (rules R115, R117). `xorAligned` is the sum of two coefficient lists, and
`polyMul` is read by its coefficients; with them the proof of `Obligations.PolyMulIsConvolution` (O23). -/

namespace Sys2Proof.Machine

/-! ### The field product and the sum -/

theorem product_eq_gfMul (t : FieldTables) (a b : Byte) : Claims.product t a b = gfMul t a b := rfl

@[simp] theorem gfMul_zero_left (t : FieldTables) (b : Byte) : gfMul t 0 b = 0 := if_pos (.inl rfl)

@[simp] theorem gfMul_zero_right (t : FieldTables) (a : Byte) : gfMul t a 0 = 0 := if_pos (.inr rfl)

/-- The product adds the logarithms, in whatever tables (rule R115). -/
theorem gfMul_comm (t : FieldTables) (a b : Byte) : gfMul t a b = gfMul t b a := by
  simp only [gfMul, Or.comm (a := a = 0), Nat.add_comm (t.logAt a - 1)]

/-- Two coefficient lists of one length with the same coefficients. -/
theorem coeffs_ext {xs ys : List Byte} (hlen : xs.length = ys.length)
    (h : ∀ k, k < xs.length → xs.getD k 0 = ys.getD k 0) :
    xs = ys := by
  refine List.ext_getElem hlen fun k hx hy => ?_
  rw [← List.getD_eq_getElem xs 0 hx, ← List.getD_eq_getElem ys 0 hy, h k hx]

theorem xorAligned_getD (xs ys : List Byte) (k : Nat) :
    (xorAligned xs ys).getD k 0 = xs.getD k 0 ^^^ ys.getD k 0 := by
  induction xs generalizing ys k with
  | nil => simp
  | cons x xs ih =>
    cases ys with
    | nil => simp
    | cons y ys =>
      cases k with
      | zero => rfl
      | succ k => exact ih ys k

theorem map_gfMul_getD (t : FieldTables) (x : Byte) (b : List Byte) (k : Nat) :
    (b.map (gfMul t x)).getD k 0 = gfMul t x (b.getD k 0) := by
  have h := List.getD_map (n := k) (l := b) (d := (0 : Byte)) (gfMul t x)
  rwa [gfMul_zero_right] at h

/-! ### The product of polynomials -/

/-- The recursion of the product on the first factor; the product of an empty rest is no coefficient. -/
theorem polyMul_cons (t : FieldTables) (x : Byte) (xs : List Byte) {b : List Byte} (hb : b ≠ []) :
    polyMul t (x :: xs) b = xorAligned (b.map (gfMul t x)) (0x00 :: polyMul t xs b) := by
  cases xs with
  | cons y xs => exact polyMul_cons_cons t x y xs b
  | nil =>
    obtain ⟨c, b, rfl⟩ := List.exists_cons_of_ne_nil hb
    simp [polyMul, gfAdd]

theorem polyMul_length {a b : List Byte} (t : FieldTables) (ha : a ≠ []) :
    (polyMul t a b).length = a.length + b.length - 1 := by
  obtain ⟨x, xs, rfl⟩ := List.exists_cons_of_ne_nil ha
  rw [polyMul_cons_length, List.length_cons]
  omega

/-- The term of `a[i]` in coefficient `k` of the product (rule R117); beyond the end of `b` a coefficient is 0. -/
def convTerm (t : FieldTables) (a b : List Byte) (k i : Nat) : Byte :=
  if i ≤ k then gfMul t (a.getD i 0) (b.getD (k - i) 0) else 0

/-- Coefficient `k` of the product (rule R117). -/
def convCoeff (t : FieldTables) (a b : List Byte) (k : Nat) : Byte :=
  Claims.xorSum ((List.range a.length).map (convTerm t a b k))

theorem convolve_eq_map (t : FieldTables) (a b : List Byte) :
    Claims.convolve t a b = (List.range (a.length + b.length - 1)).map (convCoeff t a b) := by
  refine List.map_congr_left fun k _ => congrArg Claims.xorSum (List.map_congr_left fun i _ => ?_)
  rw [product_eq_gfMul, convTerm, ite_and]
  split_ifs with hik hlen
  · rfl
  · rw [List.getD_eq_default b 0 (Nat.le_of_not_lt hlen), gfMul_zero_right]
  · rfl

@[simp] theorem convolve_length (t : FieldTables) (a b : List Byte) :
    (Claims.convolve t a b).length = a.length + b.length - 1 := by
  rw [convolve_eq_map, List.length_map, List.length_range]

theorem convolve_getD (t : FieldTables) (a b : List Byte) {k : Nat} (hk : k < a.length + b.length - 1) :
    (Claims.convolve t a b).getD k 0 = convCoeff t a b k := by
  rw [convolve_eq_map, List.getD_eq_getElem _ _ (by simpa using hk), List.getElem_map, List.getElem_range]

theorem xorSum_cons (x : Byte) (l : List Byte) : Claims.xorSum (x :: l) = x ^^^ Claims.xorSum l := rfl

theorem xorSum_zeros (l : List Nat) : Claims.xorSum (l.map fun _ => 0) = 0 := by
  induction l with
  | nil => rfl
  | cons i l ih =>
    rw [List.map_cons, xorSum_cons, ih]
    exact BitVec.xor_zero

/-- The term of the leading coefficient, and the terms of the others. -/
theorem convCoeff_cons (t : FieldTables) (x : Byte) (xs b : List Byte) (k : Nat) :
    convCoeff t (x :: xs) b k =
      gfMul t x (b.getD k 0) ^^^ Claims.xorSum ((List.range xs.length).map fun i => convTerm t (x :: xs) b k (i + 1)) := by
  rw [convCoeff, List.length_cons, List.range_succ_eq_map, List.map_cons, List.map_map, xorSum_cons]
  rfl

theorem convCoeff_cons_zero (t : FieldTables) (x : Byte) (xs b : List Byte) :
    convCoeff t (x :: xs) b 0 = gfMul t x (b.getD 0 0) := by
  have hnone : (fun i => convTerm t (x :: xs) b 0 (i + 1)) = fun _ => 0 := funext fun i => if_neg (by omega)
  rw [convCoeff_cons, hnone, xorSum_zeros]
  exact BitVec.xor_zero

/-- The rest of `a` multiplies from one place down. -/
theorem convCoeff_cons_succ (t : FieldTables) (x : Byte) (xs b : List Byte) (k : Nat) :
    convCoeff t (x :: xs) b (k + 1) = gfMul t x (b.getD (k + 1) 0) ^^^ convCoeff t xs b k := by
  have hshift : (fun i => convTerm t (x :: xs) b (k + 1) (i + 1)) = convTerm t xs b k := by
    funext i
    simp only [convTerm, Nat.add_le_add_iff_right, Nat.add_sub_add_right, List.getD_cons_succ]
  rw [convCoeff_cons, hshift, convCoeff]

/-- The coefficients of the model's product, by its recursion on the first factor. -/
theorem polyMul_getD (t : FieldTables) (a : List Byte) {b : List Byte} (hb : b ≠ []) (k : Nat) :
    (polyMul t a b).getD k 0 = convCoeff t a b k := by
  induction a generalizing k with
  | nil => rfl
  | cons x xs ih =>
    rw [polyMul_cons t x xs hb, xorAligned_getD, map_gfMul_getD]
    cases k with
    | zero =>
      rw [convCoeff_cons_zero]
      exact BitVec.xor_zero
    | succ k => rw [List.getD_cons_succ, ih, convCoeff_cons_succ]

theorem polyMul_eq_convolve {a b : List Byte} (t : FieldTables) (ha : a ≠ []) (hb : b ≠ []) :
    polyMul t a b = Claims.convolve t a b := by
  have hlen : (polyMul t a b).length = (Claims.convolve t a b).length := by
    rw [polyMul_length t ha, convolve_length]
  refine coeffs_ext hlen fun k hk => ?_
  rw [polyMul_length t ha] at hk
  rw [polyMul_getD t a hb, convolve_getD t a b hk]

/-- Settles O23: the coefficients of the two agree, and so do their lengths. -/
theorem polyMulIsConvolution : Obligations.PolyMulIsConvolution :=
  fun t _ _ ha hb => ⟨polyMul_eq_convolve t ha hb, polyMul_length t ha⟩

end Sys2Proof.Machine
end

section
/-! SUPPORT and proof of `Obligations.RemainderIsRemainderOfDivision` (O25; rule R119). The model's division discards the
coefficient it has reduced, the rule's two loops keep it in place: `foldl_divisionPass` relates the two. That the division
leaves a remainder is read off `quotientDigits`, the coefficients it discards. -/

namespace Sys2Proof.Machine

/-! ### Sums of coefficient lists -/

theorem xorAligned_comm (xs ys : List Byte) : xorAligned xs ys = xorAligned ys xs := by
  refine coeffs_ext (by simp [max_comm]) fun k _ => ?_
  rw [xorAligned_getD, xorAligned_getD, BitVec.xor_comm]

theorem xorAligned_assoc (xs ys zs : List Byte) :
    xorAligned (xorAligned xs ys) zs = xorAligned xs (xorAligned ys zs) := by
  refine coeffs_ext (by simp [max_assoc]) fun k _ => ?_
  simp only [xorAligned_getD, BitVec.xor_assoc]

/-- A sum with a polynomial no longer than the other is undone by adding it again. -/
theorem xorAligned_cancel {xs ys : List Byte} (h : ys.length ≤ xs.length) : xorAligned ys (xorAligned xs ys) = xs := by
  refine coeffs_ext (by simp [h]) fun k _ => ?_
  rw [xorAligned_getD, xorAligned_getD, BitVec.xor_comm, BitVec.xor_assoc, BitVec.xor_self]
  exact BitVec.xor_zero

theorem xorAligned_zero_multiple {xs ys : List Byte} (t : FieldTables) (h : ys.length ≤ xs.length) :
    xorAligned xs (ys.map (gfMul t 0)) = xs := by
  refine coeffs_ext (by simp [h]) fun k _ => ?_
  rw [xorAligned_getD, map_gfMul_getD, gfMul_zero_left]
  exact BitVec.xor_zero

theorem xorAligned_multiple_length {xs ys : List Byte} (t : FieldTables) (f : Byte) (h : ys.length ≤ xs.length) :
    (xorAligned xs (ys.map (gfMul t f))).length = xs.length := by
  rw [xorAligned_length, List.length_map, max_eq_left h]

theorem xorAligned_eq_zipWith {xs ys : List Byte} (h : xs.length = ys.length) :
    xorAligned xs ys = List.zipWith (· ^^^ ·) xs ys := by
  induction xs generalizing ys with
  | nil => rw [List.eq_nil_of_length_eq_zero h.symm]; rfl
  | cons x xs ih =>
    cases ys with
    | nil => cases h
    | cons y ys => rw [xorAligned_cons, List.zipWith_cons_cons, ih (Nat.succ.inj h), gfAdd]

/-! ### One step of the division -/

/-- A step discards the leading coefficient and adds its multiple of the generator's tail, whether it is 0 or not. -/
theorem reduceSteps_cons {t : FieldTables} {tail r : List Byte} (f : Byte) (k : Nat) (h : tail.length ≤ r.length) :
    reduceSteps t tail (k + 1) (f :: r) = reduceSteps t tail k (xorAligned r (tail.map (gfMul t f))) := by
  rw [reduceSteps]
  split_ifs with hf
  · rw [hf, xorAligned_zero_multiple t h]
  · simp only [gfMul_comm t _ f]

theorem divisionPass_length (t : FieldTables) (g r : List Byte) (i : Nat) :
    (Claims.divisionPass t g r i).length = r.length := by
  rw [Claims.divisionPass]
  split_ifs <;> simp

/-- A pass leaves the coefficients up to its own. -/
theorem divisionPass_getD_le (t : FieldTables) (g r : List Byte) {i p : Nat} (hp : p ≤ i) :
    (Claims.divisionPass t g r i).getD p 0 = r.getD p 0 := by
  rw [Claims.divisionPass]
  split_ifs
  · rfl
  · simp [List.getD_eq_getElem?_getD, Nat.not_lt.mpr hp]

/-- A pass adds the generator's tail, multiplied by its coefficient, after it. -/
theorem divisionPass_getD_after (t : FieldTables) (g r : List Byte) (i : Nat) {j : Nat} (hj : i + 1 + j < r.length) :
    (Claims.divisionPass t g r i).getD (i + 1 + j) 0 =
      r.getD (i + 1 + j) 0 ^^^ gfMul t (r.getD i 0) (g.tail.getD j 0) := by
  have hoffset : i + 1 + j - i = j + 1 := by omega
  have htail : g.tail.getD j 0 = g.getD (j + 1) 0 := by cases g <;> rfl
  rw [Claims.divisionPass, htail]
  split_ifs with hzero
  · rw [hzero, gfMul_zero_left]
    exact BitVec.xor_zero.symm
  · rw [List.getD_eq_getElem _ 0 (by simpa using hj), List.getElem_mapIdx, hoffset, product_eq_gfMul, gfMul_comm,
      List.getD_eq_getElem r 0 hj]
    split_ifs with hlast
    · rfl
    · rw [List.getD_eq_default g 0 (by omega), gfMul_zero_right]
      exact BitVec.xor_zero.symm

/-- A pass at the leading coefficient `f` of a remainder `r`, the coefficients before it being done with. -/
theorem divisionPass_append {t : FieldTables} {g : List Byte} (done : List Byte) (f : Byte) {r : List Byte}
    (h : g.tail.length ≤ r.length) :
    Claims.divisionPass t g (done ++ f :: r) done.length =
      (done ++ [f]) ++ xorAligned r (g.tail.map (gfMul t f)) := by
  have hlead : (done ++ f :: r).getD done.length 0 = f := by simp
  have hrest (l : List Byte) (j : Nat) : ((done ++ [f]) ++ l).getD (done.length + 1 + j) 0 = l.getD j 0 := by
    rw [List.getD_append_right _ _ _ _ (by simp)]
    simp
  refine coeffs_ext ?_ fun k hk => ?_
  · rw [divisionPass_length, List.append_cons]
    simp only [List.length_append, xorAligned_multiple_length t f h]
  rw [divisionPass_length] at hk
  obtain hle | ⟨j, rfl⟩ : k ≤ done.length ∨ ∃ j, k = done.length + 1 + j := by
    rcases Nat.lt_or_ge done.length k with hlt | hle
    · exact .inr ⟨k - (done.length + 1), by omega⟩
    · exact .inl hle
  · have hk' : k < (done ++ [f]).length := by simpa using Nat.lt_succ_of_le hle
    rw [divisionPass_getD_le t g _ hle, List.append_cons, List.getD_append (done ++ [f]) r _ _ hk',
      List.getD_append (done ++ [f]) (xorAligned _ _) _ _ hk']
  · rw [divisionPass_getD_after t g _ _ hk, hlead, hrest, List.append_cons, hrest, xorAligned_getD, map_gfMul_getD]

/-- The loops from the coefficient after `done` on, `k` times, against `k` steps of the model's division. -/
theorem foldl_divisionPass (t : FieldTables) (g : List Byte) (k : Nat) (done : List Byte) {r : List Byte}
    (h : r.length = k + g.tail.length) :
    ((List.range' done.length k).foldl (Claims.divisionPass t g) (done ++ r)).drop (done.length + k) =
      reduceSteps t g.tail k r := by
  induction k generalizing done r with
  | zero => exact List.drop_left
  | succ k ih =>
    obtain ⟨f, r, rfl⟩ : ∃ f r', r = f :: r' := List.exists_cons_of_ne_nil (by rintro rfl; simp at h; omega)
    rw [List.length_cons] at h
    have hlen : g.tail.length ≤ r.length := by omega
    have hrec := ih (done ++ [f]) (by rw [xorAligned_multiple_length t f hlen]; omega)
    rw [List.length_append, List.length_singleton] at hrec
    rw [List.range'_succ, List.foldl_cons, divisionPass_append done f hlen, reduceSteps_cons f k hlen, ← hrec,
      Nat.add_assoc, Nat.add_comm 1 k]

theorem remainder_eq_longDivision (t : FieldTables) (m g : List Byte) : remainder t m g = Claims.longDivision t m g := by
  have h := foldl_divisionPass t g m.length [] (r := m ++ List.replicate (g.length - 1) 0) (by simp)
  rw [List.length_nil, List.nil_append, Nat.zero_add] at h
  rw [Claims.longDivision, List.range_eq_range', h, remainder]

/-! ### The quotient -/

/-- The leading coefficients that `k` steps of the division discard, for a generator with leading coefficient 1. -/
def quotientDigits (t : FieldTables) (tail : List Byte) : Nat → List Byte → List Byte
  | 0, _ => []
  | _ + 1, [] => []
  | k + 1, f :: r => f :: quotientDigits t tail k (xorAligned r (tail.map (gfMul t f)))

/-- `k` division steps, undone: the quotient times the generator, plus what the steps leave, is what they began with. -/
theorem quotient_mul_add_reduceSteps {t : FieldTables} (hone : ∀ f, gfMul t f 1 = f) (tail : List Byte) (k : Nat)
    {r : List Byte} (h : r.length = k + tail.length) :
    (quotientDigits t tail k r).length = k ∧
    xorAligned (polyMul t (quotientDigits t tail k r) (0x01 :: tail))
      (List.replicate k 0 ++ reduceSteps t tail k r) = r := by
  induction k generalizing r with
  | zero => exact ⟨rfl, rfl⟩
  | succ k ih =>
    obtain ⟨f, r, rfl⟩ : ∃ f r', r = f :: r' := List.exists_cons_of_ne_nil (by rintro rfl; simp at h; omega)
    rw [List.length_cons] at h
    have hlen : tail.length ≤ r.length := by omega
    obtain ⟨hq, hsum⟩ := ih (by rw [xorAligned_multiple_length t f hlen]; omega)
    refine ⟨by rw [quotientDigits, List.length_cons, hq], ?_⟩
    rw [quotientDigits, reduceSteps_cons f k hlen, polyMul_cons t f _ (List.cons_ne_nil _ _), List.map_cons, hone,
      xorAligned_cons, List.replicate_succ, List.cons_append, xorAligned_cons, xorAligned_assoc, hsum,
      xorAligned_cancel (by simpa using hlen)]
    simp [gfAdd]

/-! ### Multiplication by 1 -/

theorem mem_of_everyByteOnce {P : List Byte} (h : Claims.EveryByteOnce P) (v : Byte) : v ∈ P :=
  List.count_pos_iff.mp (by rw [h v]; exact Nat.one_pos)

/-- In a built field the logarithm inverts the power table (rule R113), so 1 is neutral (rules R115, R126). -/
theorem gfMul_one {poly : BitVec 16} {t : FieldTables} (h : Claims.BuiltField poly t) (f : Byte) : gfMul t f 1 = f := by
  obtain ⟨⟨hlen, hzero, hone, -⟩, honce, -, hlog⟩ := h
  by_cases hf : f = 0
  · rw [hf, gfMul_zero_left]
  · have hlogAt (k : Nat) (hk : k < 256) : t.logAt (t.power.getD k 0) = k := by
      rw [FieldTables.logAt, hlog k hk, BitVec.toNat_ofNat, Nat.mod_eq_of_lt hk]
    obtain ⟨k, hk, hkf⟩ := List.getElem_of_mem (mem_of_everyByteOnce honce f)
    rw [hlen] at hk
    rw [← List.getD_eq_getElem _ 0] at hkf
    have hk0 : k ≠ 0 := by
      rintro rfl
      exact hf (hkf ▸ hzero)
    have hlogf : t.logAt f = k := hkf ▸ hlogAt k hk
    have hlog1 : t.logAt 1 = 1 := hone ▸ hlogAt 1 (by decide)
    have hexp : (k - 1 + (1 - 1)) % 255 + 1 = k := by omega
    rw [gfMul, if_neg (not_or.mpr ⟨hf, by decide⟩), hlogf, hlog1, hexp, FieldTables.powerAt, hkf]

/-- Settles O25: the loops by `remainder_eq_longDivision`, the quotient by `quotient_mul_add_reduceSteps`. -/
theorem remainderIsRemainderOfDivision : Obligations.RemainderIsRemainderOfDivision := by
  refine ⟨fun t m g _ => remainder_eq_longDivision t m g, fun poly t m g hfield hm hg hlead => ?_⟩
  have hremainder : (remainder t m g).length = g.length - 1 := by rw [remainder_length_tail, List.length_tail]
  obtain ⟨tail, rfl⟩ : ∃ tail, g = 0x01 :: tail := List.head?_eq_some_iff.mp hlead
  obtain ⟨hq, hsum⟩ := quotient_mul_add_reduceSteps (gfMul_one hfield) tail m.length
    (r := m ++ List.replicate tail.length 0) (by simp)
  refine ⟨hremainder, _, hq, ?_⟩
  have hq0 : quotientDigits t tail m.length (m ++ List.replicate tail.length 0) ≠ [] :=
    List.ne_nil_of_length_pos (by rw [hq]; exact List.length_pos_iff.mpr hm)
  rw [← polyMul_eq_convolve t hq0 (List.cons_ne_nil _ _), ← xorAligned_eq_zipWith]
  · exact hsum.symm
  · rw [polyMul_length t hq0, hq, List.length_append, hremainder]
    simp

end Sys2Proof.Machine
end

section
/-! SUPPORT: the commands of the Field Engine that write RESULT or XRAM, GF_ADD, GF_MUL, POLY_MUL and REMAINDER (rules R121 to
R123, R125): their words, the range checks of rule R97, and what a destination reads as. With them the proofs of
`Obligations.GfAddWritesXor` (O10), `Obligations.GfMulWritesProduct` (O11), `Obligations.PolyMulWritesConvolution` (O12) and
`Obligations.RemainderWritesSyndrome` (O14). -/

namespace Sys2Proof.Machine

/-! ### The command words as the rules write them -/

theorem decode_gfAddWord (a b : Byte) :
    decode (0x03000000 ||| a.setWidth 32 <<< 8 ||| b.setWidth 32) = .ok (.gfAdd a b) := by
  rw [BitVec.or_assoc]
  exact decode_encode (.gfAdd a b)

theorem decode_gfMulWord (a b : Byte) :
    decode (0x04000000 ||| a.setWidth 32 <<< 8 ||| b.setWidth 32) = .ok (.gfMul a b) := by
  rw [BitVec.or_assoc]
  exact decode_encode (.gfMul a b)

theorem decode_remainderWord (slot : BitVec 2) : decode (0x06000000 ||| slot.setWidth 32) = .ok (.remainder slot) :=
  decode_encode (.remainder slot)

/-! ### GF_ADD and GF_MUL -/

/-- Settles O10: the word decodes to the command, and GF_ADD has no check. -/
theorem gfAddWritesXor : Obligations.GfAddWritesXor := fun a b _ => ⟨decode_gfAddWord a b, rfl⟩

/-- Settles O11: the one check of GF_MUL, and the product of rule R115. -/
theorem gfMulWritesProduct : Obligations.GfMulWritesProduct := by
  intro a b s
  refine ⟨decode_gfMulWord a b, fun hfield => ?_, fun hfield => ?_⟩
  · rw [failedWith_eq_commandError]
    exact if_pos hfield
  · rw [product_eq_gfMul]
    exact if_neg (by simp [hfield])

/-! ### Ranges of XRAM -/

theorem inBounds_iff (s : State) (addr n : Nat) : s.inBounds addr n = true ↔ Claims.InBounds s addr n := decide_eq_true_iff

theorem sourceInBounds_iff (s : State) (d : Word) :
    s.sourceInBounds d = true ↔ Claims.InBounds s (descAddr d) (descLen d) := decide_eq_true_iff

/-- A written destination range, and the rest of XRAM (rule R96). -/
theorem writesExactly_writeXram {s : State} (hwf : Memory.wf s.xram = true) (dest : Nat) (bytes : List Byte) :
    Claims.WritesExactly s (s.writeXram dest bytes).xram dest bytes :=
  fun a => State.xramByte_writeXram hwf dest bytes a

/-- The effect of a command that writes `bytes` to its destination and `w` to RESULT. -/
theorem succeed_writesExactly {s : State} {bytes : List Byte} {w : Word} {o : Host.Outcome State Fault Refusal}
    (hwf : Memory.wf s.xram = true) (h : o = .next ((s.writeXram s.destAddr bytes).succeed w)) :
    ∃ x, o = .next (Claims.completed { s with xram := x, result := w }) ∧ Claims.WritesExactly s x s.destAddr bytes :=
  ⟨(s.writeXram s.destAddr bytes).xram, h, writesExactly_writeXram hwf s.destAddr bytes⟩

theorem source_ne_nil (s : State) {d : Word} (h : 0 < descLen d) : s.source d ≠ [] :=
  List.ne_nil_of_length_pos (by rwa [State.source, State.xramRange_length])

/-! ### POLY_MUL and REMAINDER -/

/-- A field that is valid passes the first check of a command that needs one (rule R250). -/
theorem not_noField {s : State} (h : s.field.valid = true) : ¬ s.field.valid = false := by simp [h]

theorem execPolyMul_of_checks {s : State} (hfield : s.field.valid = true) (ha : 0 < descLen s.argA) (hb : 0 < descLen s.argB)
    (hsrcA : s.sourceInBounds s.argA = true) (hsrcB : s.sourceInBounds s.argB = true)
    (hdest : s.inBounds s.destAddr (descLen s.argA + descLen s.argB - 1) = true) :
    execPolyMul s = .next
      ((s.writeXram s.destAddr (polyMul s.field.tables (s.source s.argA) (s.source s.argB))).succeed
        (BitVec.ofNat 32 (descLen s.argA + descLen s.argB - 1))) :=
  (if_neg (not_noField hfield)).trans ((if_neg (by omega)).trans (if_neg (by simp [hsrcA, hsrcB, hdest])))

theorem execRemainder_of_checks {slot : BitVec 2} {s : State} (hfield : s.field.valid = true)
    (hgen : (s.gen (slotIndex slot)).valid = true) (hsrc : s.sourceInBounds s.argA = true)
    (hdest : s.inBounds s.destAddr ((s.gen (slotIndex slot)).len - 1) = true) :
    execRemainder slot s = .next
      ((s.writeXram s.destAddr (remainder s.field.tables (s.source s.argA) (s.gen (slotIndex slot)).coeffs)).succeed
        (BitVec.ofNat 32 ((s.gen (slotIndex slot)).len - 1))) :=
  (if_neg (not_noField hfield)).trans ((if_neg (by simp [hgen])).trans (if_neg (by simp [hsrc, hdest])))

/-- Settles O12: the checks in order (rule R123), then the product is the convolution and is what the destination holds. -/
theorem polyMulWritesConvolution : Obligations.PolyMulWritesConvolution := by
  intro s hwf
  refine ⟨decode_encode .polyMul, fun hfield => ?_, fun hfield hlen => ?_, fun hfield ha hb hrange => ?_,
    fun hfield ha hb hsrcA hsrcB hdest => ?_⟩
  · rw [failedWith_eq_commandError]
    exact if_pos hfield
  · rw [failedWith_eq_commandError]
    exact (if_neg (not_noField hfield)).trans (if_pos hlen)
  · rw [← sourceInBounds_iff, ← sourceInBounds_iff, ← inBounds_iff] at hrange
    rw [failedWith_eq_commandError]
    refine (if_neg (not_noField hfield)).trans ((if_neg (by omega)).trans (if_pos ?_))
    simpa [imp_iff_not_or, or_assoc] using hrange
  · rw [← sourceInBounds_iff] at hsrcA hsrcB
    rw [← inBounds_iff] at hdest
    have hproduct := polyMul_eq_convolve s.field.tables (source_ne_nil s ha) (source_ne_nil s hb)
    exact succeed_writesExactly hwf (hproduct ▸ execPolyMul_of_checks hfield ha hb hsrcA hsrcB hdest)

/-- Settles O14: the checks in order (rule R125), then the remainder is the one of the two loops and is what the destination
holds. -/
theorem remainderWritesSyndrome : Obligations.RemainderWritesSyndrome := by
  intro slot s hwf
  refine ⟨decode_remainderWord slot, rfl, fun hfield => ?_, fun hfield hgen => ?_, fun hfield hgen hrange => ?_,
    fun hfield hgen hsrc hdest => ?_⟩
  · rw [failedWith_eq_commandError]
    exact if_pos hfield
  · rw [failedWith_eq_commandError]
    exact (if_neg (not_noField hfield)).trans (if_pos hgen)
  · rw [← sourceInBounds_iff, ← inBounds_iff] at hrange
    rw [failedWith_eq_commandError]
    refine (if_neg (not_noField hfield)).trans ((if_neg (by simp [hgen])).trans (if_pos ?_))
    simpa [imp_iff_not_or, GenSlot.len] using hrange
  · rw [← sourceInBounds_iff] at hsrc
    rw [← inBounds_iff] at hdest
    have hremainder := remainder_eq_longDivision s.field.tables (s.source s.argA) (s.gen (slotIndex slot)).coeffs
    exact succeed_writesExactly hwf (hremainder ▸ execRemainder_of_checks hfield hgen hsrc hdest)

end Sys2Proof.Machine
end

section
/-! SUPPORT: the generator polynomial (rule R118) as the product of its factors, and a replaced generator slot. With them the
proof of `Obligations.GenBuildWritesGenerator` (O13; rule R124). -/

namespace Sys2Proof.Machine

@[simp] theorem generator_length (t : FieldTables) (start n : Nat) : (Claims.generator t start n).length = n + 1 := by
  induction n with
  | zero => rfl
  | succ n ih => rw [Claims.generator, convolve_length, ih]; rfl

/-- The factors multiplied in from the left, one more at a time. -/
theorem foldl_polyMul_eq_generator (t : FieldTables) (start n : Nat) :
    (List.range' start n).foldl (fun g i => polyMul t g [0x01, alphaPow t i]) [0x01] = Claims.generator t start n := by
  induction n with
  | zero => rfl
  | succ n ih =>
    have hne : Claims.generator t start n ≠ [] := List.ne_nil_of_length_pos (by simp)
    rw [List.range'_1_concat, List.foldl_concat, ih, polyMul_eq_convolve t hne (List.cons_ne_nil _ _)]
    rfl

theorem genPoly_eq_generator (t : FieldTables) {start stop : Nat} (h : start ≤ stop) :
    genPoly t start stop = Claims.generator t start (stop - start + 1) := by
  rw [genPoly, foldl_polyMul_eq_generator, Nat.sub_add_comm h]

theorem setGen_get (s : State) (slot : BitVec 2) (g : GenSlot) (k : Fin Config.ngen) :
    (s.setGen (slotIndex slot) g).gens.get k = if k.val = slot.toNat then g else s.gen k := by
  rw [State.setGen_gens, Vector.get_eq_getElem, Vector.getElem_set]
  exact if_congr eq_comm rfl rfl

theorem decode_genBuildWord (slot : BitVec 2) (start stop : Byte) :
    decode (0x02000000 ||| start.setWidth 32 <<< 16 ||| stop.setWidth 32 <<< 8 ||| slot.setWidth 32) =
      .ok (.genBuild slot start stop) := by
  rw [BitVec.or_assoc, BitVec.or_assoc, ← BitVec.or_assoc (start.setWidth 32 <<< 16)]
  exact decode_encode (.genBuild slot start stop)

/-- Settles O13: the checks in order (rule R124), then the slot holds the product of the factors. -/
theorem genBuildWritesGenerator : Obligations.GenBuildWritesGenerator := by
  intro slot start stop s
  refine ⟨decode_genBuildWord slot start stop, fun hpipe => ?_, fun hpipe hfield => ?_, fun hpipe hfield hrange => ?_,
    fun hpipe hfield hle hlt => ?_⟩
  · rw [failedWith_eq_commandError]
    exact if_pos hpipe
  · rw [failedWith_eq_commandError]
    exact (if_neg (not_not.mpr hpipe)).trans (if_pos hfield)
  · rw [failedWith_eq_commandError]
    exact (if_neg (not_not.mpr hpipe)).trans ((if_neg (not_noField hfield)).trans (if_pos (by bv_omega)))
  · have hgenerator := genPoly_eq_generator s.field.tables (BitVec.le_def.mp hle)
    refine ⟨(s.setGen (slotIndex slot) (builtSlot s.field.tables start stop)).gens, fun k => ?_, ?_⟩
    · rw [setGen_get, builtSlot, hgenerator]
    · exact (if_neg (not_not.mpr hpipe)).trans ((if_neg (not_noField hfield)).trans (if_neg (by bv_omega)))

end Sys2Proof.Machine
end

section
/-! SUPPORT: the tables of an accepted polynomial word (rules R111 to R113): the power table is determined by its recursion,
the permutation test by what it asks, the log table by inverting the power table. With them the proof of
`Obligations.FieldBuildCommitsOrRefuses` (O9; rule R120). -/

namespace Sys2Proof.Machine

/-! ### The power table -/

/-- The 9-bit shift of rule R111 is a shift within the byte, reduced where the byte's own top bit is set. -/
theorem nextPower_eq (poly : BitVec 16) (e : Byte) :
    nextPower poly e = if e.getLsbD 7 then (e <<< 1) ^^^ poly.setWidth 8 else e <<< 1 := by
  have htop : (e.setWidth 9 <<< 1).getLsbD 8 = e.getLsbD 7 := by simp
  have hlow : (e.setWidth 9 <<< 1).setWidth 8 = e <<< 1 := by bv_omega
  simp only [nextPower, htop, hlow]

/-- A table in which each entry is the next power of the one before it. -/
theorem eq_powersFrom {poly : BitVec 16} {l : List Byte} {e : Byte} (hhead : 0 < l.length → l.getD 0 0 = e)
    (hnext : ∀ k, k + 1 < l.length → l.getD (k + 1) 0 = nextPower poly (l.getD k 0)) :
    l = powersFrom poly l.length e := by
  induction l generalizing e with
  | nil => rfl
  | cons x l ih =>
    have hx : x = e := hhead (Nat.succ_pos _)
    have hrest : l = powersFrom poly l.length (nextPower poly x) :=
      ih (fun hl => hnext 0 (Nat.succ_lt_succ hl)) fun k hk => hnext (k + 1) (Nat.succ_lt_succ hk)
    rw [List.length_cons, powersFrom, ← hx, ← hrest]

theorem powerTable_eq_buildPower {poly : BitVec 16} {P : List Byte} (h : Claims.IsPowerTable poly P) :
    P = buildPower poly := by
  obtain ⟨hlen, hzero, hone, hstep⟩ := h
  obtain ⟨x, l, rfl⟩ := List.exists_cons_of_length_pos (by rw [hlen]; decide : 0 < P.length)
  have hl : l.length = 255 := Nat.succ.inj hlen
  have hpowers : l = powersFrom poly l.length 0x01 := by
    refine eq_powersFrom (fun _ => hone) fun k hk => ?_
    rw [nextPower_eq]
    exact hstep (k + 2) (by omega) (by omega)
  rw [buildPower, ← hl, ← hpowers]
  exact congrArg (· :: l) hzero

/-! ### The permutation test -/

/-- The test finds no entry twice and none that `seen` marks. -/
theorem noRepeat_iff (seen : Nat) (l : List Byte) :
    noRepeat seen l = true ↔ l.Nodup ∧ ∀ e ∈ l, seen.testBit e.toNat = false := by
  induction l generalizing seen with
  | nil => simp [noRepeat]
  | cons x l ih =>
    have hmark (e : Byte) : (seen ||| 1 <<< x.toNat).testBit e.toNat = false ↔ seen.testBit e.toNat = false ∧ e ≠ x := by
      rw [Nat.testBit_or, Nat.one_shiftLeft, Nat.testBit_two_pow, Bool.or_eq_false_iff, decide_eq_false_iff_not,
        BitVec.toNat_inj, eq_comm (a := x), Ne]
    simp only [noRepeat, Bool.and_eq_true, Bool.not_eq_true', ih, hmark, List.nodup_cons, List.forall_mem_cons]
    constructor
    · rintro ⟨hx, hnodup, hrest⟩
      exact ⟨⟨fun hmem => (hrest x hmem).2 rfl, hnodup⟩, hx, fun e he => (hrest e he).1⟩
    · rintro ⟨⟨hmem, hnodup⟩, hx, hrest⟩
      exact ⟨hx, hnodup, fun e he => ⟨hrest e he, fun hex => hmem (hex ▸ he)⟩⟩

/-- Of 256 distinct bytes none is missing. -/
theorem mem_of_nodup_of_length {P : List Byte} (hnodup : P.Nodup) (hlen : P.length = 256) (v : Byte) : v ∈ P := by
  by_contra hv
  have hvalues : ((v :: P).map BitVec.toNat).Nodup :=
    (List.nodup_cons.mpr ⟨hv, hnodup⟩).map fun _ _ => BitVec.eq_of_toNat_eq
  have hrange : (v :: P).map BitVec.toNat ⊆ List.range 256 := by
    simpa [List.subset_def] using ⟨v.isLt, fun e _ => e.isLt⟩
  have hle := (List.subperm_of_subset hvalues hrange).length_le
  rw [List.length_map, List.length_cons, List.length_range] at hle
  omega

theorem isPermutation_iff {P : List Byte} (hlen : P.length = 256) : isPermutation P = true ↔ Claims.EveryByteOnce P := by
  have hnodup : isPermutation P = true ↔ P.Nodup := by simp [isPermutation, hlen, noRepeat_iff]
  rw [hnodup]
  constructor
  · exact fun h v => List.count_eq_one_of_mem h (mem_of_nodup_of_length h hlen v)
  · exact fun h => List.nodup_iff_count_le_one.mpr fun v => (h v).le

/-! ### The log table -/

theorem logTable_eq_buildLog {P L : List Byte} (honce : Claims.EveryByteOnce P) (hlen : P.length = 256)
    (hlog : Claims.IsLogTable P L) : L = buildLog P := by
  obtain ⟨hlenL, hinv⟩ := hlog
  refine coeffs_ext (by simp [buildLog, hlenL]) fun e he => ?_
  rw [hlenL] at he
  have hk : P.idxOf (BitVec.ofNat 8 e) < 256 := hlen ▸ List.idxOf_lt_length_of_mem (mem_of_everyByteOnce honce _)
  have hentry : P.getD (P.idxOf (BitVec.ofNat 8 e)) 0 = BitVec.ofNat 8 e := by
    rw [List.getD_eq_getElem _ 0 (hlen ▸ hk), List.getElem_idxOf]
  have hslot := hinv _ hk
  rw [hentry, toNat_ofNat_of_lt he] at hslot
  rw [hslot]
  simp [buildLog, List.getD_eq_getElem?_getD, he]

/-! ### FIELD_BUILD -/

theorem decode_fieldBuildWord (poly : BitVec 16) :
    decode (0x01000000 ||| poly.setWidth 32) = .ok (.fieldBuild poly) :=
  decode_encode (.fieldBuild poly)

/-- A committed field leaves every slot invalid (rule R120). -/
theorem commitField_gens_get (poly : BitVec 16) (s : State) (k : Fin Config.ngen) :
    (s.commitField poly).gens.get k = GenSlot.empty := by
  simp [State.commitField, Vector.get_eq_getElem]

/-- Settles O9: the checks in order (rule R120), the last of them by `isPermutation_iff`, and the tables, which the rules
determine. -/
theorem fieldBuildCommitsOrRefuses : Obligations.FieldBuildCommitsOrRefuses := by
  intro poly s
  refine ⟨decode_fieldBuildWord poly, fun hpipe => ?_, fun hpipe hbit => ?_, fun P hpipe hbit hP hrepeat => ?_,
    fun P L hpipe hbit hP honce hL => ?_⟩
  · rw [failedWith_eq_commandError]
    exact if_pos hpipe
  · rw [failedWith_eq_commandError]
    exact (if_neg (not_not.mpr hpipe)).trans (if_pos hbit)
  · have hpower := powerTable_eq_buildPower hP
    have hfails : isPermutation (buildPower poly) = false := by
      rwa [← isPermutation_iff hP.1, hpower, Bool.not_eq_true] at hrepeat
    rw [failedWith_eq_commandError]
    exact (if_neg (not_not.mpr hpipe)).trans ((if_neg (by simp [hbit])).trans (if_pos hfails))
  · have hlen := hP.1
    have hlog := logTable_eq_buildLog honce hlen hL
    have hpasses := (isPermutation_iff hlen).mpr honce
    obtain rfl := powerTable_eq_buildPower hP
    obtain rfl := hlog
    refine ⟨(s.commitField poly).gens, fun k => ?_, ?_⟩
    · rw [commitField_gens_get]
      exact ⟨rfl, rfl⟩
    · exact (if_neg (not_not.mpr hpipe)).trans ((if_neg (by simp [hbit])).trans (if_neg (by simp [hpasses])))

end Sys2Proof.Machine
end

section
/-! SUPPORT: the phases of a received buffer by their positions, and the demodulator's table under DEMOD_INIT and under host
writes. With them the proofs of `Obligations.DemodulateLooksUpPairs` (O29; rule R145) and `Obligations.DemodInitBuildsTable`
(O15; rule R144). -/

namespace Sys2Proof.Machine

/-! ### Demodulation -/

@[simp] theorem demodulate_length (s : State) : ∀ b : List Byte, (demodulate s b).length = b.length / 2
  | [] => rfl
  | [_] => by simp [demodulate]
  | i :: q :: rest => by
    have ih := demodulate_length s rest
    simp only [demodulate, List.length_cons, ih]
    omega

/-- Each phase is made of its own pair: a pair in front of `rest` shifts the phases by one and the bytes by two. -/
theorem demodulate_getElem? (s : State) : ∀ (b : List Byte) {k : Nat}, k < b.length / 2 →
    (demodulate s b)[k]? = some (s.lut (b.getD (2 * k) 0) (b.getD (2 * k + 1) 0))
  | [], _, hk | [_], _, hk => by simp at hk
  | _ :: _ :: _, 0, _ => rfl
  | _ :: _ :: rest, k + 1, hk => by
    have hrest : k < rest.length / 2 := by
      simp only [List.length_cons] at hk
      omega
    exact demodulate_getElem? s rest hrest

/-- Settles O29: the number of phases (`demodulate_length`) and the phase at each position (`demodulate_getElem?`). -/
theorem demodulateLooksUpPairs : Obligations.DemodulateLooksUpPairs :=
  fun s b => ⟨demodulate_length s b, fun _ hk => demodulate_getElem? s b hk⟩

/-! ### The table -/

/-- An entry depends on the width PW and on the centre the table was built for, and on nothing else (rule R142). -/
theorem lut_congr {s t : State} (hparams : t.params = s.params) (hphase : t.phase = s.phase) (i q : Byte) :
    t.lut i q = s.lut i q := by
  rw [State.lut, State.lut, hparams, hphase]

/-- No host write reaches the table (rules R71, R144), a write to CENTER included. -/
theorem WriteEffect.lut_eq {s t : State} (h : WriteEffect s t) (i q : Byte) : t.lut i q = s.lut i q := by
  cases h <;> exact lut_congr rfl rfl i q

theorem lut_commitLut (s : State) (i q : Byte) :
    s.commitLut.complete.lut i q = lutEntry s.params.pw s.settings.center i q := by
  rw [State.lut, State.complete_params, State.complete_phase, State.commitLut_params, State.commitLut_phase]

theorem execDemodInit_of_idle {s : State} (hpipe : s.pipe = .idle) : exec .demodInit s = .next s.commitLut.complete :=
  if_neg (not_not.mpr hpipe)

/-- Settles O15: the check of IDLE and the committed table (rule R144), then a host write, which does not reach it. -/
theorem demodInitBuildsTable : Obligations.DemodInitBuildsTable := by
  intro s
  refine ⟨decode_encode .demodInit, fun hpipe => ?_, fun hpipe => ⟨execDemodInit_of_idle hpipe, fun t i q ht => ?_⟩,
    fun v t i q ht => ?_⟩
  · rw [failedWith_eq_commandError]
    exact if_pos hpipe
  · rw [execDemodInit_of_idle hpipe] at ht
    rw [next_inj ht, lut_commitLut]
  · rw [next_inj ht]
    exact (busWrite_effect s 0x4C v).lut_eq i q

end Sys2Proof.Machine
end

section
/-! SUPPORT: the bits of an assembled byte, by their weight. With them the proof of
`Obligations.PackIsMostSignificantFirst` (O32; rules R79, R183). -/

namespace Sys2Proof.Machine

/-- The last of the bits is bit 0 (rule R79), so bit i is the i-th from the back. -/
theorem byteOfBits_getLsbD (bits : List Bool) {i : Nat} (hi : i < 8) :
    (byteOfBits bits).getLsbD i = bits.reverse.getD i false := by
  induction bits using List.reverseRecOn generalizing i with
  | nil => exact BitVec.getLsbD_zero
  | append_singleton front b ih =>
    have hshift : byteOfBits (front ++ [b]) = byteOfBits front <<< 1 ||| (if b then 1 else 0) := List.foldl_concat ..
    rw [hshift, List.reverse_concat]
    cases i with
    | zero => cases b <;> simp
    | succ i =>
      have hlast : (if b then 1 else 0 : Byte).getLsbD (i + 1) = false := by cases b <;> simp
      rw [BitVec.getLsbD_or, hlast, Bool.or_false, BitVec.getLsbD_shiftLeft, List.getD_cons_succ,
        ← ih (Nat.lt_of_succ_lt hi)]
      simp [hi]

/-- Of eight bits the j-th received has weight 7 - j. -/
theorem byteOfBits_getLsbD_of_length {bits : List Bool} (hlen : bits.length = 8) {j : Nat} (hj : j < 8) :
    (byteOfBits bits).getLsbD (7 - j) = bits.getD j false := by
  rw [byteOfBits_getLsbD bits (by omega), List.getD_eq_getElem?_getD, List.getElem?_reverse (by omega), hlen,
    List.getD_eq_getElem?_getD, show 8 - 1 - (7 - j) = j by omega]

@[simp] theorem pack_length (bits : List Bool) : (pack bits).length = bits.length / 8 := by simp [pack]

theorem pack_getD {bits : List Bool} {k : Nat} (hk : k < bits.length / 8) :
    (pack bits).getD k 0 = byteOfBits (sliceOf bits (8 * k) 8) := by
  simp [pack, hk]

theorem sliceOf_getD {bits : List Bool} {a n j : Nat} (hj : j < n) :
    (sliceOf bits a n).getD j false = bits.getD (a + j) false := by
  simp only [sliceOf, List.getD_eq_getElem?_getD, List.getElem?_take_of_lt hj, List.getElem?_drop]

/-- Settles O32: byte k is made of the eight bits from 8k on (`pack_getD`), the first of them its top bit. -/
theorem packIsMostSignificantFirst : Obligations.PackIsMostSignificantFirst := by
  intro bits m hbits
  have hbytes : bits.length / 8 = m := by omega
  refine ⟨by rw [pack_length, hbytes], fun k j hk hj => ?_⟩
  have hlen : (sliceOf bits (8 * k) 8).length = 8 := by
    rw [sliceOf, List.length_take, List.length_drop]
    omega
  rw [pack_getD (hbytes ▸ hk), byteOfBits_getLsbD_of_length hlen hj, sliceOf_getD hj]

end Sys2Proof.Machine
end

section
/-! SUPPORT: what `spill` does with a pending continuation, a lemma for each outcome. With them the proof of
`Obligations.SpillServesPendingContinuation` (O37; rules R171, R172). -/

namespace Sys2Proof.Machine

section
variable {env : WorkerEnv} {kind : SpillKind} {w : WorkerState}

/-! ### CONT_KIND after the first test -/

theorem resolvedCont_of_ne_undet {f : Framer} (h : f.cont ≠ .undet) : resolvedCont f = f.cont := by
  unfold resolvedCont
  cases hcont : f.cont with
  | undet => exact absurd hcont h
  | none | pending v => rfl

theorem resolvedCont_of_undet {f : Framer} (h : f.cont = .undet) : resolvedCont f = contOf (activeVariant f.acc) := by
  rw [resolvedCont, h]
  cases activeVariant f.acc <;> rfl

/-! ### The outcomes of step 1 -/

theorem spill_none (h : resolvedCont w.framer = .none) : spill env kind w = scanFrom env kind w.framer.acc w := by
  rw [spill, h]

theorem spill_undet (h : resolvedCont w.framer = .undet) :
    spill env kind w = .going (awaitOrTruncate kind .undet w) := by
  rw [spill, h]

theorem spill_pending_incomplete {v : Variant} (h : resolvedCont w.framer = .pending v)
    (hlen : w.framer.acc.length < v.bits) : spill env kind w = .going (awaitOrTruncate kind (.pending v) w) := by
  rw [spill, h]
  exact if_neg hlen.not_ge

theorem spill_pending_complete {v : Variant} (h : resolvedCont w.framer = .pending v)
    (hlen : v.bits ≤ w.framer.acc.length) :
    spill env kind w = scanFrom env kind (w.framer.acc.drop v.bits)
      { dispatchPacket env v (w.framer.acc.take v.bits) w with
        framer := { w.framer with cont := .none, fstate := .searching } } := by
  rw [spill, h]
  refine (if_pos hlen).trans ?_
  rw [dispatching_eq]

/-- A continuation whose variant step 1 finds is served as one that was pending with it. -/
theorem spill_resolved {v : Variant} (h : resolvedCont w.framer = .pending v) :
    spill env kind w = spill env kind { w with framer := { w.framer with cont := .pending v } } := by
  obtain hlen | hlen := Nat.lt_or_ge w.framer.acc.length v.bits
  · refine (spill_pending_incomplete h hlen).trans (.trans ?_ (.symm (spill_pending_incomplete rfl hlen)))
    cases kind <;> rfl
  · refine (spill_pending_complete h hlen).trans (.trans ?_ (.symm (spill_pending_complete rfl hlen)))
    simp only [dispatchPacket_withFramer]

/-! ### Waiting and truncation -/

/-- The continuation that waits is the one that was there. -/
theorem awaitOrTruncate_seam {cont : ContKind} (h : w.framer.cont = cont) :
    awaitOrTruncate .seam cont w = { w with framer := { w.framer with fstate := .awaitingContinuation } } := by
  subst h
  rfl

theorem awaitOrTruncate_brk (cont : ContKind) (w : WorkerState) :
    awaitOrTruncate .brk cont w = Claims.truncated w := rfl

end

/-- Settles O37: CONT_KIND as the first test leaves it says which of the outcomes above is met. -/
theorem spillServesPendingContinuation : Obligations.SpillServesPendingContinuation := by
  intro env kind w
  have hpending {v : Variant} (hc : w.framer.cont = .pending v) : resolvedCont w.framer = .pending v :=
    (resolvedCont_of_ne_undet (by simp [hc])).trans hc
  refine ⟨fun hc hlen => spill_resolved ?_, fun hc hlen => ?_, fun v hc hlen => ?_, fun v hc hlen => ?_,
    fun hc => spill_none ((resolvedCont_of_ne_undet (by simp [hc])).trans hc)⟩
  · rw [resolvedCont_of_undet hc, activeVariant_of_known hlen]
    rfl
  · have hundet : resolvedCont w.framer = .undet := by
      rw [resolvedCont_of_undet hc, activeVariant_of_short hlen]
      rfl
    rw [spill_undet hundet]
    cases kind with
    | seam => exact congrArg _ (awaitOrTruncate_seam hc)
    | brk => exact congrArg _ (awaitOrTruncate_brk _ w)
  · rw [packetBits_eq_bits] at hlen
    rw [spill_pending_incomplete (hpending hc) hlen]
    cases kind with
    | seam => exact congrArg _ (awaitOrTruncate_seam hc)
    | brk => exact congrArg _ (awaitOrTruncate_brk _ w)
  · rw [packetBits_eq_bits] at hlen ⊢
    exact spill_pending_complete (hpending hc) hlen

end Sys2Proof.Machine
end

section
/-! SUPPORT: the end of a run and the append, as the rules say them. With them the proof of
`Obligations.SliceAppendsOrBreaks` (O36; rules R163 to R167, R180, R181). -/

namespace Sys2Proof.Machine

/-- `break_run()` (rule R167): a BREAK spill unless nothing is there to spill, then RUN_LEN <- 0. -/
theorem breakRun_eq (env : WorkerEnv) (w : WorkerState) :
    breakRun env w =
      (if w.framer.acc = [] ∧ w.framer.cont = .none then Progress.going w else spill env .brk w).andThen fun u =>
        .going u.clearRun := by
  have hempty : (0 < w.framer.acc.length ∨ w.framer.cont ≠ .none) ↔ ¬ (w.framer.acc = [] ∧ w.framer.cont = .none) := by
    rw [List.length_pos_iff, not_and_or]
  rw [breakRun]
  by_cases h : w.framer.acc = [] ∧ w.framer.cont = .none
  · rw [if_neg (mt hempty.mp (not_not.mpr h)), if_pos h, Progress.going_andThen]
  · rw [if_pos (hempty.mpr h), if_neg h]

theorem wordMax_eq (a b : Word) : wordMax a b = if a < b then b else a := by
  unfold wordMax
  split <;> split <;> bv_omega

theorem append_eq (b : Bool) (w : WorkerState) :
    w.append b =
      { w with
        framer := { w.framer with acc := w.framer.acc ++ [b], runLen := w.framer.runLen + 1 }
        counters := { w.counters with
          validBits := w.counters.validBits + 1
          maxRun := if w.counters.maxRun < w.framer.runLen + 1 then w.framer.runLen + 1 else w.counters.maxRun } } := by
  rw [WorkerState.append, wordMax_eq]

theorem validDelta_iff (c : Settings) (d : Phase) :
    validDelta c d = true ↔ c.devMin.toNat ≤ d.natAbs ∧ d.natAbs ≤ c.devMax.toNat := decide_eq_true_iff

section
variable {env : WorkerEnv} {d : Phase} {w : WorkerState}

theorem slice_of_invalid (h : validDelta env.settings d ≠ true) : slice env d w = breakRun env w := if_neg h

theorem slice_of_room (h : validDelta env.settings d = true) (hroom : w.framer.acc.length ≠ env.params.accCap) :
    slice env d w = .going (w.append (bitOf d)) := (if_pos h).trans (if_neg hroom)

theorem slice_of_full (h : validDelta env.settings d = true) (hfull : w.framer.acc.length = env.params.accCap) :
    slice env d w = (spill env .seam w).andThen (appendOrOverflow env (bitOf d)) := (if_pos h).trans (if_pos hfull)

end

/-- Settles O36: the delta is outside the window, or it is valid and the accumulator has room, or is full. -/
theorem sliceAppendsOrBreaks : Obligations.SliceAppendsOrBreaks := by
  rintro env d w append rfl
  refine ⟨fun houtside => ?_, fun hmin hmax hroom => ?_, fun hmin hmax hfull => ?_⟩
  · have hinvalid : validDelta env.settings d ≠ true := by
      rw [Ne, validDelta_iff]
      omega
    rw [slice_of_invalid hinvalid, breakRun_eq]
    rfl
  · rw [slice_of_room ((validDelta_iff _ _).mpr ⟨hmin, hmax⟩) hroom, append_eq, bitOf]
  · rw [slice_of_full ((validDelta_iff _ _).mpr ⟨hmin, hmax⟩) hfull]
    refine congrArg _ (funext fun u => ?_)
    rw [appendOrOverflow, append_eq, bitOf]

end Sys2Proof.Machine
end

section
/-! SUPPORT: the samples of an entry as a fold, and what a sample does for each pair stride. With them the proof of
`Obligations.EntryIsBrokenSampledAndSpilled` (O35; rules R160, R161, R226, R227, R256). -/

namespace Sys2Proof.Machine

/-! ### An entry -/

theorem Progress.andThen_assoc (p : Progress) (f g : WorkerState → Progress) :
    (p.andThen f).andThen g = p.andThen fun w => (f w).andThen g := by
  cases p <;> rfl

theorem samples_eq_foldl (env : WorkerEnv) (phases : List Phase) (p : Progress) :
    p.andThen (samples env phases) = phases.foldl (fun p φ => p.andThen (sample env φ)) p := by
  induction phases generalizing p with
  | nil => cases p <;> rfl
  | cons φ rest ih =>
    rw [List.foldl_cons, ← ih, Progress.andThen_assoc]
    rfl

/-- The start of an entry that follows a drop (rules R160, R167, R168). -/
theorem discontinuity_eq (env : WorkerEnv) (discont : Bool) (w : WorkerState) :
    discontinuity env discont w =
      if discont then
        (if w.framer.acc = [] ∧ w.framer.cont = .none then Progress.going w else spill env .brk w).andThen fun u =>
          .going { u with framer := { u.framer with runLen := 0, prevValid := false, pairPhase := false } }
      else .going w := by
  rw [discontinuity, breakRun_eq, Progress.andThen_assoc]
  rfl

theorem processEntry_eq (env : WorkerEnv) (e : FifoEntry) (w : WorkerState) :
    processEntry env e w =
      ((discontinuity env e.discont w).andThen fun u =>
        e.phases.foldl (fun p φ => p.andThen (sample env φ)) (.going u)).andThen (spill env .seam) := by
  rw [processEntry]
  congr 2
  exact funext fun u => samples_eq_foldl env e.phases (.going u)

/-! ### The worker step -/

theorem eventStep_worker_of_entry {s : State} (henabled : s.workerEnabled = true)
    (hflag : s.fifo.shutdownFlag = false) : eventStep .worker s = .next s.processFront := by
  simp only [eventStep, State.workerStep, henabled, hflag, if_true, Bool.false_eq_true, if_false]

theorem processFront_of_progress {s : State} {p : Progress}
    (h : processEntry s.workerEnv s.fifo.front s.workerState = p) :
    s.processFront = { s with fifo := s.fifo.pop s.params.qcap }.afterWorker p := by
  rw [State.processFront, h]

/-! ### A sample -/

/-- With PAIR_STRIDE = 1 a delta is formed with every known previous phase (rule R161). -/
theorem sample_stride_one {env : WorkerEnv} (h : env.params.pairStride = 1) (φ : Phase) (w : WorkerState) :
    sample env φ w =
      (if w.framer.prevValid then slice env (deltaOf env.params w.framer.prev φ) w.countSample
        else .going w.countSample).andThen fun u => .going (u.setPrev φ) := if_pos h

/-- With PAIR_STRIDE = 2 a delta is formed with every second phase (rule R161). -/
theorem sample_stride_two {env : WorkerEnv} (h : env.params.pairStride = 2) (φ : Phase) (w : WorkerState) :
    sample env φ w =
      (if w.framer.pairPhase then slice env (deltaOf env.params w.framer.prev φ) w.countSample
        else .going w.countSample).andThen fun u => .going (u.togglePair.setPrev φ) := if_neg (by omega)

/-- Settles O35: an entry is `processEntry_eq`, the worker step takes the front entry (`eventStep_worker_of_entry`), and
a sample is split by the pair stride and by whether a pair is complete. -/
theorem entryIsBrokenSampledAndSpilled : Obligations.EntryIsBrokenSampledAndSpilled := by
  refine ⟨fun c u f => ⟨rfl, rfl⟩, fun env e w => ?_, fun s henabled hflag => ⟨fun w hw => ?_, fun c w hw => ?_⟩, ?_⟩
  · rw [processEntry_eq, discontinuity_eq]
  · rw [eventStep_worker_of_entry henabled hflag, processFront_of_progress hw]
    rfl
  · rw [eventStep_worker_of_entry henabled hflag, processFront_of_progress hw]
    rfl
  · rintro env φ w counted rfl
    refine ⟨fun hstride hprev => ?_, fun hstride hprev => ?_, fun hstride hpair => ?_, fun hstride hpair => ?_⟩
    · rw [sample_stride_one hstride, hprev]
      rfl
    · rw [sample_stride_one hstride, hprev]
      rfl
    · rw [sample_stride_two hstride, hpair, if_neg Bool.false_ne_true, Progress.going_andThen, WorkerState.togglePair,
        WorkerState.countSample_pairPhase, hpair]
      rfl
    · rw [sample_stride_two hstride, hpair]
      rfl

end Sys2Proof.Machine
end

section
/-! SUPPORT: the packet constants by the rules' names (rules R16, R43), the codewords byte by byte (rule R202), and the count of
failing codewords (rules R204, R205). The commands and the dispatch that follow cite these. -/

namespace Sys2Proof.Machine

/-! ### The rules' names and the model's -/

theorem variantSlot_eq_slot (v : Variant) : Claims.variantSlot v = v.slot := by cases v <;> rfl

theorem totalBytes_eq_bytes (v : Variant) : Claims.totalBytes v = v.bytes := by cases v <;> rfl

theorem parityBytes_eq_codewordParity (v : Variant) : Claims.parityBytes v = v.codewordParity := by cases v <;> rfl

/-! ### The codewords of an uplink packet -/

theorem codeword_getD (packet : List Byte) (c : Nat) {j : Nat} (hj : j < 92) :
    (codeword packet c).getD j 0 = packet.getD (6 * j + c) 0 := by
  simp [codeword, hj]

theorem deinterleave_getD (packet : List Byte) {c : Nat} (hc : c < 6) :
    (deinterleave packet).getD c [] = codeword packet c := by
  simp [deinterleave, hc]

theorem length_of_mem_deinterleave {packet cw : List Byte} (h : cw ∈ deinterleave packet) : cw.length = 92 := by
  obtain ⟨c, -, rfl⟩ := List.mem_map.mp h
  exact codeword_length packet c

theorem codeword_take_data (packet : List Byte) (c : Nat) :
    (codeword packet c).take 72 = (List.range 72).map fun j => packet.getD (6 * j + c) 0 := by
  rw [codeword, ← List.map_take, List.take_range]
  rfl

theorem codeword_slice_parity (packet : List Byte) (c : Nat) :
    sliceOf (codeword packet c) 72 20 = (List.range 20).map fun j => packet.getD (6 * (72 + j) + c) 0 := by
  rw [sliceOf, codeword, ← List.map_drop, ← List.map_take]
  exact List.map_map (l := List.range 20) (f := (72 + ·)) (g := fun j => packet.getD (6 * j + c) 0)

/-! ### Codewords one after another -/

/-- Byte `j` of block `c`, where the blocks have one length and stand one after another. -/
theorem flatten_getD_of_uniform {m : Nat} {blocks : List (List Byte)} (h : ∀ b ∈ blocks, b.length = m) (c : Nat) {j : Nat}
    (hj : j < m) : blocks.flatten.getD (m * c + j) 0 = (blocks.getD c []).getD j 0 := by
  induction blocks generalizing c with
  | nil => rfl
  | cons b rest ih =>
    have hb : b.length = m := h b List.mem_cons_self
    cases c with
    | zero =>
      rw [List.flatten_cons, Nat.mul_zero, Nat.zero_add, List.getD_append _ _ _ _ (hb ▸ hj)]
      rfl
    | succ c =>
      have hrest : m * (c + 1) + j - b.length = m * c + j := by rw [hb, Nat.mul_succ]; omega
      rw [List.flatten_cons, List.getD_append_right _ _ _ _ (by rw [hb, Nat.mul_succ]; omega), hrest,
        ih (fun b' hb' => h b' (List.mem_cons_of_mem b hb')) c]
      rfl

/-- Codeword `c` stands at offset 92c of what DEINTERLEAVE writes (rule R208). -/
theorem codewordMajor_getD (packet : List Byte) {c j : Nat} (hc : c < 6) (hj : j < 92) :
    (codewordMajor packet).getD (92 * c + j) 0 = packet.getD (6 * j + c) 0 := by
  rw [codewordMajor, flatten_getD_of_uniform (fun _ => length_of_mem_deinterleave) c hj, deinterleave_getD packet hc,
    codeword_getD packet c hj]

/-- A passing uplink packet delivers its data codeword by codeword, 72 bytes of each (rule R205). -/
theorem packetData_uplink (packet : List Byte) :
    packetData .uplink packet = (List.range 432).map fun k => packet.getD (6 * (k % 72) + k / 72) 0 := by
  have hblocks : packetData .uplink packet = ((List.range 6).map fun c => (codeword packet c).take 72).flatten := by
    rw [packetData, deinterleave, List.flatMap_def, List.map_map]
    rfl
  have huniform : ∀ b ∈ (List.range 6).map fun c => (codeword packet c).take 72, b.length = 72 := by simp
  have hlen : (packetData .uplink packet).length = 432 := by
    rw [hblocks, List.length_flatten, List.map_map]
    simp [List.range_succ]
  refine coeffs_ext (by simp [hlen]) fun k hk => ?_
  rw [hlen] at hk
  have hc : k / 72 < 6 := by omega
  have hj : k % 72 < 72 := Nat.mod_lt k (by decide)
  have hbyte := flatten_getD_of_uniform huniform (k / 72) hj
  rw [Nat.div_add_mod, ← hblocks] at hbyte
  rw [hbyte]
  simp [hc, hj, hk, codeword_take_data]

/-! ### The count of failing codewords -/

theorem codewordOk_iff (t : FieldTables) (g : List Byte) (data parity : Nat) (cw : List Byte) :
    codewordOk t g data parity cw = true ↔ Claims.longDivision t (cw.take data) g = sliceOf cw data parity := by
  rw [codewordOk, beq_iff_eq, remainder_eq_longDivision]

theorem failures_uplink (t : FieldTables) (g packet : List Byte) :
    Claims.failures t g .uplink packet = (List.range 6).countP fun c => !codewordOk t g 72 20 (codeword packet c) := by
  rw [Claims.failures, ← List.countP_eq_length_filter]
  refine List.countP_congr fun c _ => ?_
  rw [decide_eq_true_iff, Bool.not_eq_true', ← Bool.not_eq_true, codewordOk_iff, codeword_take_data,
    codeword_slice_parity]

/-- The model counts what the rules count, in a packet of any length. -/
theorem failingCodewords_eq_failures (t : FieldTables) (g : List Byte) (v : Variant) (packet : List Byte) :
    failingCodewords t g v packet = Claims.failures t g v packet := by
  cases v with
  | short => exact if_congr (codewordOk_iff t g 18 12 packet) rfl rfl
  | long => exact if_congr (codewordOk_iff t g 34 14 packet) rfl rfl
  | uplink => rw [failures_uplink, failingCodewords, deinterleave, List.countP_map]; rfl

theorem failures_le_six (t : FieldTables) (g : List Byte) (v : Variant) (packet : List Byte) :
    Claims.failures t g v packet ≤ 6 := by
  cases v with
  | uplink =>
    rw [failures_uplink]
    exact List.countP_le_length.trans_eq List.length_range
  | short | long =>
    show (if _ then 0 else 1) ≤ 6
    split_ifs <;> decide

end Sys2Proof.Machine
end

section
/-! SUPPORT: DEINTERLEAVE and VALIDATE (rules R208, R209), the checks of each and what it does when they pass. With them the
proofs of `Obligations.DeinterleaveMovesBytes` (O16) and `Obligations.ValidateCountsFailingCodewords` (O17). -/

namespace Sys2Proof.Machine

/-! ### DEINTERLEAVE -/

theorem execDeinterleave_of_checks {s : State} (hlen : descLen s.argA = 552)
    (hsrc : s.inBounds (descAddr s.argA) 552 = true) (hdest : s.inBounds s.destAddr 552 = true) :
    execDeinterleave s = .next
      ((s.writeXram s.destAddr (codewordMajor (s.xramRange (descAddr s.argA) 552))).succeed (BitVec.ofNat 32 552)) :=
  (if_neg (not_not.mpr hlen)).trans (if_neg (by simp [hsrc, hdest]))

/-- Settles O16: the checks in order (rule R208); a destination byte is then found by `codewordMajor_getD`. -/
theorem deinterleaveMovesBytes : Obligations.DeinterleaveMovesBytes := by
  intro s hwf
  refine ⟨decode_encode .deinterleave, fun hlen => ?_, fun hlen hrange => ?_, fun hlen hsrc hdest => ?_⟩
  · rw [failedWith_eq_commandError]
    exact if_pos hlen
  · rw [← inBounds_iff, ← inBounds_iff] at hrange
    rw [failedWith_eq_commandError]
    refine (if_neg (not_not.mpr hlen)).trans (if_pos ?_)
    simpa [imp_iff_not_or] using hrange
  · rw [← inBounds_iff] at hsrc hdest
    obtain ⟨x, hexec, hx⟩ := succeed_writesExactly hwf (execDeinterleave_of_checks hlen hsrc hdest)
    rw [Claims.WritesExactly, codewordMajor_length] at hx
    refine ⟨x, hexec, fun c j hc hj => ?_, fun a ha => ?_⟩
    · have hoffset : s.destAddr + 92 * c + j - s.destAddr = 92 * c + j := by omega
      rw [hx, if_pos (by omega), hoffset, codewordMajor_getD _ hc hj, State.xramRange_getD s _ _ _ (by omega)]
    · rw [hx, if_neg (by omega)]

/-! ### VALIDATE -/

theorem decode_validateWord (variant : BitVec 2) : decode (0x0B000000 ||| variant.setWidth 32) = .ok (.validate variant) :=
  decode_encode (.validate variant)

theorem exec_validate_variantNumber (v : Variant) (s : State) :
    exec (.validate (BitVec.ofNat 2 (Claims.variantNumber v))) s = .next (validateVariant v s) := by
  cases v <;> rfl

/-- The fields of RESULT (rule R209) as one number: OK lies below FAIL_COUNT. -/
theorem validateResult_eq (f : Nat) : validateResult f = BitVec.ofNat 32 (256 * f + if f = 0 then 1 else 0) := by
  by_cases hf : f = 0
  · rw [hf]
    rfl
  · rw [validateResult, if_neg hf, if_neg hf, placed]
    apply BitVec.eq_of_toNat_eq
    simp [Nat.shiftLeft_eq, Nat.mul_comm]

section
variable {v : Variant} {s : State}

theorem validateVariant_noField (hfield : s.field.valid = false) : validateVariant v s = s.commandError .noField :=
  if_pos hfield

theorem validateVariant_noGen (hfield : s.field.valid = true) (hgen : (s.gen v.slot).valid = false) :
    validateVariant v s = s.commandError .noGen :=
  (if_neg (not_noField hfield)).trans (if_pos hgen)

/-- The checks that remain once the field and the variant's slot are valid. -/
theorem validateVariant_of_valid (hfield : s.field.valid = true) (hgen : (s.gen v.slot).valid = true) :
    validateVariant v s =
      if (s.gen v.slot).len ≠ v.codewordParity + 1 then s.commandError .notReady
      else if descLen s.argA ≠ v.bytes then s.commandError .badLength
      else if !s.inBounds (descAddr s.argA) v.bytes then s.commandError .xramRange
      else s.succeed (validateResult
        (failingCodewords s.field.tables (s.gen v.slot).coeffs v (s.xramRange (descAddr s.argA) v.bytes))) :=
  (if_neg (not_noField hfield)).trans (if_neg (by simp [hgen]))

/-- The last two checks, of a field and a slot that are ready for the variant, and the effect. -/
theorem validateVariant_of_ready (hfield : s.field.valid = true) (hgen : (s.gen v.slot).valid = true)
    (hready : (s.gen v.slot).len = v.codewordParity + 1) :
    validateVariant v s =
      if descLen s.argA ≠ v.bytes then s.commandError .badLength
      else if !s.inBounds (descAddr s.argA) v.bytes then s.commandError .xramRange
      else s.succeed (validateResult
        (failingCodewords s.field.tables (s.gen v.slot).coeffs v (s.xramRange (descAddr s.argA) v.bytes))) :=
  (validateVariant_of_valid hfield hgen).trans (if_neg (not_not.mpr hready))

end

/-- Settles O17: the checks in order (rule R209), then the model's count is the rule's (`failingCodewords_eq_failures`) and
RESULT its two fields (`validateResult_eq`). -/
theorem validateCountsFailingCodewords : Obligations.ValidateCountsFailingCodewords := by
  intro s
  refine ⟨decode_validateWord, ?_, fun v => ?_⟩
  · rw [failedWith_eq_commandError]
    rfl
  simp only [exec_validate_variantNumber, variantSlot_eq_slot, parityBytes_eq_codewordParity, totalBytes_eq_bytes,
    failedWith_eq_commandError, ← inBounds_iff]
  refine ⟨fun hfield => congrArg _ (validateVariant_noField hfield),
    fun hfield hgen => congrArg _ (validateVariant_noGen hfield hgen),
    fun hfield hgen hunready => congrArg _ ((validateVariant_of_valid hfield hgen).trans (if_pos hunready)),
    fun hfield hgen hready hlen => congrArg _ ((validateVariant_of_ready hfield hgen hready).trans (if_pos hlen)),
    fun hfield hgen hready hlen hsrc => congrArg _ ?_,
    fun hfield hgen hready hlen hsrc => ⟨_, rfl, failures_le_six _ _ _ _, congrArg _ ?_⟩⟩
  · rw [validateVariant_of_ready hfield hgen hready, if_neg (not_not.mpr hlen), if_pos (by simpa using hsrc)]
  · rw [validateVariant_of_ready hfield hgen hready, if_neg (not_not.mpr hlen), if_neg (by simp [hsrc]),
      failingCodewords_eq_failures, validateResult_eq]
    rfl

end Sys2Proof.Machine
end

section
/-! SUPPORT: the dispatch in each of its cases (rules R200, R203 to R207). With them the proof of
`Obligations.DispatchValidatesAndReports` (O34). -/

namespace Sys2Proof.Machine

/-- The coefficients a validator divides by (rules R204, R205). -/
theorem generator_eq_map_coeff (env : WorkerEnv) (v : Variant) :
    (List.range (Claims.parityBytes v + 1)).map env.gens[(Claims.variantSlot v).val].coeff = env.generator v := by
  cases v <;> rfl

section
variable {env : WorkerEnv} {v : Variant} {bits : List Bool} {w : WorkerState}

theorem dispatchPacket_of_raw (h : env.settings.rawMode = true) : dispatchPacket env v bits w = rawEmit v (pack bits) w :=
  if_pos h

theorem dispatchPacket_of_decoded (h : env.settings.rawMode = false) :
    dispatchPacket env v bits w = validatePacket env v (pack bits) w :=
  if_neg (by simp [h])

end

section
variable {env : WorkerEnv} {v : Variant} {packet : List Byte} {w : WorkerState}

theorem validatePacket_of_pass (h : Claims.failures env.tables (env.generator v) v packet = 0) :
    validatePacket env v packet w = { w with counters := w.counters.countOk v }.emit (okRecord v packet) :=
  if_pos ((failingCodewords_eq_failures _ _ _ _).trans h)

/-- A failing packet is counted, whether it is reported or not. -/
theorem validatePacket_of_fail (h : Claims.failures env.tables (env.generator v) v packet ≠ 0) :
    validatePacket env v packet w =
      { w with
        counters := w.counters.countFail v
        outTrace := w.outTrace ++
          if env.settings.reportFail then [failRecord v (Claims.failures env.tables (env.generator v) v packet)] else [] } := by
  rw [← failingCodewords_eq_failures] at h ⊢
  refine (if_neg h).trans ?_
  cases env.settings.reportFail with
  | true => rfl
  | false => exact congrArg (WorkerState.mk _ _) (List.append_nil _).symm

end

/-- Settles O34: raw mode, or the validator with no failing codeword, or with some; the count is the rule's
(`failingCodewords_eq_failures`). -/
theorem dispatchValidatesAndReports : Obligations.DispatchValidatesAndReports := by
  intro env v bits w
  refine ⟨fun hraw => dispatchPacket_of_raw hraw, fun hdecoded _ f hf => ?_⟩
  rw [generator_eq_map_coeff] at hf
  subst hf
  refine ⟨fun hpass => ?_, fun hfail => ?_, dispatchPacket_framer env v bits w⟩
  · rw [dispatchPacket_of_decoded hdecoded, validatePacket_of_pass hpass]
    cases v with
    | short | long => exact ⟨rfl, rfl⟩
    | uplink => rw [okRecord, packetData_uplink]; exact ⟨rfl, rfl⟩
  · rw [dispatchPacket_of_decoded hdecoded, validatePacket_of_fail hfail]
    cases v <;> exact ⟨rfl, rfl⟩

end Sys2Proof.Machine
end

section
/-! SUPPORT: the producer's and the worker's steps (rules R223, R226, R228, R236), one equation for each outcome. With them the
proofs of `Obligations.ProducerStepCountsDropsOrPushes` (O49) and of `Obligations.WorkerStopsAtObservationPoint` (O51). -/

namespace Sys2Proof.Machine

/-! ### The producer -/

theorem demodulate_congr {s t : State} (hparams : t.params = s.params) (hphase : t.phase = s.phase) :
    ∀ b : List Byte, demodulate t b = demodulate s b
  | [] | [_] => rfl
  | i :: q :: rest => by
    rw [demodulate, demodulate, lut_congr hparams hphase, demodulate_congr hparams hphase rest]

/-- The buffer is demodulated as it would be before it is counted and taken by the estimator (rule R223). -/
theorem demodulate_receive (s : State) (b : List Byte) : demodulate (s.receive b) b = demodulate s b :=
  demodulate_congr (State.receive_params s b) (State.receive_phase s b) b

section
variable {s : State} {b : List Byte}

theorem producerStep_of_not_running (h : s.pipe ≠ .running) : s.producerStep b = s := if_pos h

theorem producerStep_of_oversize (h : s.pipe = .running) (hsize : s.params.slotBytes < b.length) :
    s.producerStep b = (s.receive b).dropOversize :=
  (if_neg (not_not.mpr h)).trans (if_pos hsize)

/-- A buffer that fits a slot leaves the producer the check of the FIFO (rule R223). -/
theorem producerStep_of_fits (h : s.pipe = .running) (hsize : b.length ≤ s.params.slotBytes) :
    s.producerStep b =
      if s.fifo.count = s.params.qcap then (s.receive b).dropFull else (s.receive b).enqueue b :=
  (if_neg (not_not.mpr h)).trans (if_neg (Nat.not_lt.mpr hsize))

end

/-- Settles O49: the checks in order (rules R223, R236), and each outcome of the model is the rule's by its fields; a pushed
buffer's phases by `demodulate_receive`. -/
theorem producerStepCountsDropsOrPushes : Obligations.ProducerStepCountsDropsOrPushes := by
  intro s b
  refine ⟨fun hpipe => congrArg Host.Outcome.next (producerStep_of_not_running hpipe),
    fun hpipe hsize => congrArg Host.Outcome.next (producerStep_of_oversize hpipe hsize),
    fun hpipe hsize hfull => congrArg Host.Outcome.next ?_, fun hpipe hsize hroom => congrArg Host.Outcome.next ?_⟩
  · exact (producerStep_of_fits hpipe hsize).trans (if_pos hfull)
  · rw [producerStep_of_fits hpipe hsize, if_neg hroom, State.enqueue, demodulate_receive]
    rfl

/-! ### The worker -/

theorem workerStep_of_disabled {s : State} (h : s.workerEnabled = false) : s.workerStep = s := if_neg (by simp [h])

/-- The observation point (rules R226, R228): with SHUTDOWN_FLAG = 1 an enabled worker stops, whatever is queued. -/
theorem workerStep_of_flag {s : State} (h : s.workerEnabled = true) (hflag : s.fifo.shutdownFlag = true) :
    s.workerStep = s.stop :=
  (if_pos h).trans (if_pos hflag)

/-- Settles O51: enabledness is `workerEnabled_iff`, and `stop()` is the rule's by its fields. -/
theorem workerStopsAtObservationPoint : Obligations.WorkerStopsAtObservationPoint := fun s =>
  ⟨workerEnabled_iff s, fun hdisabled => congrArg Host.Outcome.next (workerStep_of_disabled hdisabled),
    fun henabled hflag => congrArg Host.Outcome.next (workerStep_of_flag henabled hflag)⟩

end Sys2Proof.Machine
end

section
/-! SUPPORT: RUN's readiness test in the rule's terms (rule R129), and the outcomes of RUN and SHUTDOWN (rules R229, R230). With
them the proofs of `Obligations.NopOnlyCompletes` (O8), `Obligations.RunStartsSession` (O18), `Obligations.ShutdownRequestsStop`
(O19) and `Obligations.ClearStatsZeroesCounters` (O20). -/

namespace Sys2Proof.Machine

/-! ### NOP and CLEAR_STATS -/

/-- Settles O8: the word decodes to the command, and NOP has no check. -/
theorem nopOnlyCompletes : Obligations.NopOnlyCompletes := ⟨decode_encode .nop, fun _ => rfl⟩

/-- Settles O20: the word decodes to the command, and CLEAR_STATS has no check. -/
theorem clearStatsZeroesCounters : Obligations.ClearStatsZeroesCounters := fun _ => ⟨decode_encode .clearStats, rfl⟩

/-! ### RUN -/

theorem conformant_iff (g : GenSlot) (v : Variant) :
    g.conformant v = true ↔ g.valid = true ∧ g.coeffs.length = v.codewordParity + 1 := by
  simp [GenSlot.conformant, GenSlot.len]

/-- The readiness test walks the three variants; the rule names their slots and their generators' lengths. -/
theorem ready_iff (s : State) :
    s.ready = true ↔ s.field.valid = true ∧ s.phase.valid = true ∧ Claims.Conformant s := by
  simp [State.ready, Claims.Conformant, conformant_iff, Variant.slot, Variant.codewordParity, and_assoc]

theorem execRun_of_ready {s : State} (hpipe : s.pipe = .idle) (hready : s.ready = true) :
    execRun s = .next s.startSession.complete :=
  (if_neg (not_not.mpr hpipe)).trans (if_neg (by simp [hready]))

/-- Settles O18: the checks in order (rule R229), the second one by `ready_iff`. -/
theorem runStartsSession : Obligations.RunStartsSession := by
  intro s
  refine ⟨decode_encode .run, fun hpipe => ?_, fun hpipe hunready => ?_, fun hpipe hfield hlut hslots => ?_⟩
  · rw [failedWith_eq_commandError]
    exact if_pos hpipe
  · rw [← ready_iff, Bool.not_eq_true] at hunready
    rw [failedWith_eq_commandError]
    exact (if_neg (not_not.mpr hpipe)).trans (if_pos hunready)
  · exact execRun_of_ready hpipe ((ready_iff s).mpr ⟨hfield, hlut, hslots⟩)

/-! ### SHUTDOWN -/

theorem execShutdown_of_running {s : State} (hpipe : s.pipe = .running) :
    execShutdown s = .next s.requestStop.complete :=
  if_neg (not_not.mpr hpipe)

/-- A requested stop enables the worker, with or without an entry queued, and `stop()` is its next step (rules R226, R230). -/
theorem workerStep_of_requestStop (s : State) : s.requestStop.complete.workerStep = s.requestStop.complete.stop :=
  workerStep_of_flag ((workerEnabled_iff _).mpr ⟨.inr rfl, .inl rfl⟩) rfl

/-- IRQ_STATUS.STOPPED is bit 3 (rules R29, R228). -/
theorem stop_sets_stopped (s : State) : s.stop.irqStatus.getLsbD 3 = true := by
  have hmask : Irq.stopped.mask.getLsbD 3 = true := by decide
  rw [State.stop_irqStatus, BitVec.getLsbD_or, hmask, Bool.or_true]

/-- Settles O19: the check (rule R230); after a request PIPE_STATE is STOPPING, so that the producer discards its buffer and the
worker stops. -/
theorem shutdownRequestsStop : Obligations.ShutdownRequestsStop := by
  intro s
  refine ⟨decode_encode .shutdown, fun hpipe => ?_, execShutdown_of_running, fun hpipe t hexec => ?_⟩
  · rw [failedWith_eq_commandError]
    exact if_pos hpipe
  · obtain rfl : t = s.requestStop.complete := next_inj ((execShutdown_of_running hpipe).symm.trans hexec)
    have hstopping : s.requestStop.complete.pipe ≠ .running := by simp
    exact ⟨fun _ => congrArg Host.Outcome.next (producerStep_of_not_running hstopping), s.requestStop.complete.stop,
      congrArg Host.Outcome.next (workerStep_of_requestStop s), rfl, stop_sets_stopped _⟩

end Sys2Proof.Machine
end

section
/-! SUPPORT: a command word is determined by its fields (rules R91, R92). With it the proofs of
`Obligations.DecodeEncodeRoundTrip` (O1), `Obligations.EncodeDecodeRoundTrip` (O2) and
`Obligations.SpecWordsDecodeToTheirCommands` (O4). -/

namespace Sys2Proof.Machine

/-- Settles O1: the encoder's word selects the command's row (`opcodeRow_encode`) and its reserved bits are 0
(`encode_reserved`). -/
theorem decodeEncodeRoundTrip : Obligations.DecodeEncodeRoundTrip := decode_encode

/-! ### The fields of a format determine the word -/

/-- A field that the reserved mask covers is 0 in a word that passes the mask (rule R94). -/
theorem field_eq_zero_of_reserved {w mask : Word} {lo n : Nat} (h : w &&& mask = 0)
    (hmask : mask.extractLsb' lo n = BitVec.allOnes n) : w.extractLsb' lo n = 0#n := by
  have hfield : (w &&& mask).extractLsb' lo n = w.extractLsb' lo n := by
    rw [BitVec.extractLsb'_and, hmask, BitVec.and_allOnes]
  rw [← hfield, h]
  exact BitVec.extractLsb'_zero

/-- Words that agree in a field, in the terms of their numbers. -/
theorem toNat_field_congr {v w : Word} {lo n : Nat} (h : v.extractLsb' lo n = w.extractLsb' lo n) :
    v.toNat / 2 ^ lo % 2 ^ n = w.toNat / 2 ^ lo % 2 ^ n := by
  simpa [Nat.shiftRight_eq_div_pow] using congrArg BitVec.toNat h

section
variable {v w : Word}

/-- A field reserved in both words. -/
theorem reserved_field_congr {mask : Word} {lo n : Nat} (hv : v &&& mask = 0) (hw : w &&& mask = 0)
    (hmask : mask.extractLsb' lo n = BitVec.allOnes n) : v.extractLsb' lo n = w.extractLsb' lo n :=
  (field_eq_zero_of_reserved hv hmask).trans (field_eq_zero_of_reserved hw hmask).symm

theorem word_eq_of_opcode (hopcode : opcodeField v = opcodeField w) (hv : v &&& Format.none.reservedMask = 0)
    (hw : w &&& Format.none.reservedMask = 0) : v = w := by
  have hrest := toNat_field_congr (reserved_field_congr (lo := 0) (n := 24) hv hw (by decide))
  have hopcode := toNat_field_congr hopcode
  bv_omega

theorem word_eq_of_poly (hopcode : opcodeField v = opcodeField w) (hpoly : polyField v = polyField w)
    (hv : v &&& Format.poly.reservedMask = 0) (hw : w &&& Format.poly.reservedMask = 0) : v = w := by
  have hrest := toNat_field_congr (reserved_field_congr (lo := 16) (n := 8) hv hw (by decide))
  have hopcode := toNat_field_congr hopcode
  have hpoly := toNat_field_congr hpoly
  bv_omega

theorem word_eq_of_bytes (hopcode : opcodeField v = opcodeField w) (hmiddle : middleField v = middleField w)
    (hlow : lowField v = lowField w) (hv : v &&& Format.bytes.reservedMask = 0)
    (hw : w &&& Format.bytes.reservedMask = 0) : v = w := by
  have hrest := toNat_field_congr (reserved_field_congr (lo := 16) (n := 8) hv hw (by decide))
  have hopcode := toNat_field_congr hopcode
  have hmiddle := toNat_field_congr hmiddle
  have hlow := toNat_field_congr hlow
  bv_omega

theorem word_eq_of_generator (hopcode : opcodeField v = opcodeField w) (hselect : selectField v = selectField w)
    (hstart : startField v = startField w) (hmiddle : middleField v = middleField w)
    (hv : v &&& Format.generator.reservedMask = 0) (hw : w &&& Format.generator.reservedMask = 0) : v = w := by
  have hrest := toNat_field_congr (reserved_field_congr (lo := 2) (n := 6) hv hw (by decide))
  have hopcode := toNat_field_congr hopcode
  have hselect := toNat_field_congr hselect
  have hstart := toNat_field_congr hstart
  have hmiddle := toNat_field_congr hmiddle
  bv_omega

/-- Formats S and V have one mask (rule R92). -/
theorem word_eq_of_select (hopcode : opcodeField v = opcodeField w) (hselect : selectField v = selectField w)
    (hv : v &&& Format.slot.reservedMask = 0) (hw : w &&& Format.slot.reservedMask = 0) : v = w := by
  have hrest := toNat_field_congr (reserved_field_congr (lo := 2) (n := 22) hv hw (by decide))
  have hopcode := toNat_field_congr hopcode
  have hselect := toNat_field_congr hselect
  bv_omega

end

/-! ### The word that decodes to a command -/

theorem decode_ok {w : Word} {i : Instr} (h : decode w = .ok i) :
    ∃ format, opcodeRow w = some (format, i) ∧ w &&& format.reservedMask = 0 := by
  unfold decode at h
  split at h
  · cases h
  · rename_i format j hrow
    split at h
    · rename_i hreserved
      cases h
      exact ⟨format, hrow, hreserved⟩
    · cases h

/-- The encoder writes the row's opcode and the fields the row was read with. -/
theorem encode_of_row {w : Word} {format : Format} {i : Instr} (hrow : opcodeRow w = some (format, i))
    (hw : w &&& format.reservedMask = 0) : encode i = w := by
  have hv := encode_reserved i
  unfold opcodeRow at hrow
  split at hrow
  case h_14 => cases hrow
  all_goals
    rename_i hopcode
    cases hrow
  case h_1 | h_6 | h_8 | h_9 | h_11 | h_12 | h_13 => exact word_eq_of_opcode (hopcode ▸ by decide) hv hw
  case h_2 =>
    obtain ⟨hop, hpoly⟩ := polyWord_fields 0x01 (polyField w)
    exact word_eq_of_poly (hop.trans hopcode.symm) hpoly hv hw
  case h_3 =>
    obtain ⟨hop, hselect, hstart, hmiddle⟩ := generatorWord_fields 0x02 (selectField w) (startField w) (middleField w)
    exact word_eq_of_generator (hop.trans hopcode.symm) hselect hstart hmiddle hv hw
  case h_4 =>
    obtain ⟨hop, hmiddle, hlow⟩ := bytesWord_fields 0x03 (middleField w) (lowField w)
    exact word_eq_of_bytes (hop.trans hopcode.symm) hmiddle hlow hv hw
  case h_5 =>
    obtain ⟨hop, hmiddle, hlow⟩ := bytesWord_fields 0x04 (middleField w) (lowField w)
    exact word_eq_of_bytes (hop.trans hopcode.symm) hmiddle hlow hv hw
  case h_7 =>
    obtain ⟨hop, hselect⟩ := selectWord_fields 0x06 (selectField w)
    exact word_eq_of_select (hop.trans hopcode.symm) hselect hv hw
  case h_10 =>
    obtain ⟨hop, hselect⟩ := selectWord_fields 0x0B (selectField w)
    exact word_eq_of_select (hop.trans hopcode.symm) hselect hv hw

/-- Settles O2: the word and the encoder's word have the same opcode, the same operand fields and the same reserved bits. -/
theorem encodeDecodeRoundTrip : Obligations.EncodeDecodeRoundTrip := by
  intro w i h
  obtain ⟨format, hrow, hreserved⟩ := decode_ok h
  exact encode_of_row hrow hreserved

/-- Settles O4: each of the words is the encoder's. -/
theorem specWordsDecodeToTheirCommands : Obligations.SpecWordsDecodeToTheirCommands :=
  ⟨decode_encode (.fieldBuild 0x187), decode_encode (.genBuild 1 120 133), decode_encode (.gfAdd 0x53 0xCA),
    decode_encode (.gfMul 0x53 0xCA), decode_encode (.remainder 3), decode_encode (.validate 2), decode_encode .run,
    decode_encode .demodInit⟩

end Sys2Proof.Machine
end

section
/-! SUPPORT: one step as one event, and an invariant of a step as an invariant of its event. With them the proofs of
`Obligations.StepRunsDecodedCommand` (O5), `Obligations.EveryStepAnswersAndKeepsParameters` (O6) and
`Obligations.ResetInputRestoresResetState` (O48). -/

namespace Sys2Proof.Machine

/-! ### The step and its event -/

theorem step_of_event {s : State} {e : Event} (h : s.nextEvent = some e) : step s = eventStep e s.takeEvent := by
  rw [step, machineStep, h]

theorem step_of_no_event {s : State} (h : s.nextEvent = none) : step s = .next s := by
  rw [step, machineStep, h]

theorem nextEvent_of_scheduled {s : State} {e : Event} {rest : List Event} (h : s.schedule = e :: rest) :
    s.nextEvent = some e := by
  rw [State.nextEvent, h]

/-- What every event keeps, every step keeps. -/
theorem step_keeps {P : State → Prop} (htake : ∀ s, P s → P s.takeEvent)
    (hevent : ∀ s e t, P s → eventStep e s = .next t → P t) {s t : State} (hs : P s) (h : step s = .next t) : P t := by
  cases he : s.nextEvent with
  | none =>
    rw [step_of_no_event he] at h
    exact next_inj h ▸ hs
  | some e =>
    rw [step_of_event he] at h
    exact hevent _ e t (htake s hs) h

/-- With nothing scheduled the command unit moves first (log entry 1). -/
theorem nextEvent_command {s : State} (hb : s.busy = true) (h : s.schedule = [] ∨ s.schedule.head? = some .command) :
    s.nextEvent = some .command := by
  rcases h with hnil | hhead
  · rw [State.nextEvent, hnil]
    exact if_pos hb
  · obtain ⟨rest, hrest⟩ := List.head?_eq_some_iff.mp hhead
    exact nextEvent_of_scheduled hrest

/-- Settles O5: the step is the command unit's (`nextEvent_command`), which executes what the word decodes to. -/
theorem stepRunsDecodedCommand : Obligations.StepRunsDecodedCommand := by
  intro s i hb hnext hdecode
  rw [step_of_event (nextEvent_command hb hnext)]
  exact commandStep_of_decoded (s := s.takeEvent) hb hdecode

/-! ### Every step answers -/

theorem eventStep_answers (e : Event) (s : State) : Answers (eventStep e s) := by
  cases e with
  | busRead | busWrite | input | worker | reset => exact .next _
  | command =>
    by_cases hb : s.busy = true
    · obtain ⟨t, ht, -⟩ := commandStep_completes hb
      exact ⟨t, ht⟩
    · exact ⟨s, if_neg hb⟩

theorem step_answers (s : State) : Answers (step s) := by
  cases h : s.nextEvent with
  | none => rw [step_of_no_event h]; exact .next s
  | some e => rw [step_of_event h]; exact eventStep_answers e _

/-- No event changes the build parameters (log entry 9). -/
theorem EventEffect.params {s t : State} {e : Event} (h : EventEffect s e t) : t.params = s.params := by
  cases h with
  | read | idle | reset => rfl
  | write _ _ hw => cases hw <;> rfl
  | command _ hc => cases hc <;> rfl
  | input _ hi => cases hi <;> rfl
  | worker hw => cases hw <;> rfl

theorem step_params {s t : State} (h : step s = .next t) : t.params = s.params :=
  step_keeps (P := fun u => u.params = s.params) (fun _ hu => hu) (fun _ _ _ hu he => (eventStep_effect he).params.trans hu) rfl h

/-- Settles O6. -/
theorem everyStepAnswersAndKeepsParameters : Obligations.EveryStepAnswersAndKeepsParameters := by
  intro s
  obtain ⟨t, ht⟩ := step_answers s
  exact ⟨t, ht, step_params ht⟩

/-- Settles O48: the reset input is the reset state of the configuration by its definition. -/
theorem resetInputRestoresResetState : Obligations.ResetInputRestoresResetState := fun s =>
  ⟨s.resetInput, rfl, rfl, rfl, rfl, rfl, rfl, rfl, rfl, rfl⟩

end Sys2Proof.Machine
end

section
/-! SUPPORT and proof of `Obligations.StepKeepsMemoryInv` (O56; rules R45, R76, R97): XRAM is written by a command, inside its
checked range, and by the host, a whole word at a multiple of 4; every other event leaves it as it is. -/

namespace Sys2Proof.Machine

section
variable {s t : State}

theorem State.MemoryInv.congr (h : s.MemoryInv) (hparams : t.params = s.params) (hxram : t.xram = s.xram) :
    t.MemoryInv where
  size := hparams ▸ h.size
  canonical := hxram ▸ h.canonical
  bounded := by rw [hparams, hxram]; exact h.bounded

/-- A write inside XRAM keeps its canonical form and its size (rules R96, R97). -/
theorem State.MemoryInv.writeXram (h : s.MemoryInv) {addr : Nat} {bytes : List Byte}
    (hrange : addr + bytes.length ≤ s.params.xramBytes) : (s.writeXram addr bytes).MemoryInv where
  size := h.size
  canonical := Memory.wf_writeAll bytes addr h.canonical
  bounded := Memory.bounded_writeAll bytes addr hrange h.bounded

theorem WriteEffect.memoryInv (hw : WriteEffect s t) (h : s.MemoryInv) : t.MemoryInv := by
  cases hw
  case xram off w _ h4 hlt =>
    have hsize := h.size
    have hlen : (wordBytes w).length = 4 := rfl
    exact h.writeXram (by omega)
  all_goals exact h.congr rfl rfl

theorem CommandEffect.memoryInv (hc : CommandEffect s t) (h : s.MemoryInv) : t.MemoryInv := by
  cases hc
  case xram addr bytes w hrange => exact (h.writeXram hrange).congr rfl rfl
  all_goals exact h.congr rfl rfl

theorem State.MemoryInv.resetInput (h : s.MemoryInv) : s.resetInput.MemoryInv where
  size := h.size
  canonical := rfl
  bounded := by simp

theorem EventEffect.memoryInv {e : Event} (he : EventEffect s e t) (h : s.MemoryInv) : t.MemoryInv := by
  cases he with
  | read | idle => exact h.congr rfl rfl
  | write _ _ hw => exact hw.memoryInv h
  | command _ hc => exact hc.memoryInv h
  | input _ hi => cases hi <;> exact h.congr rfl rfl
  | worker hw => cases hw <;> exact h.congr rfl rfl
  | reset => exact h.resetInput

end

/-- Settles O56. -/
theorem stepKeepsMemoryInv : Obligations.StepKeepsMemoryInv := fun _ _ =>
  step_keeps (fun _ h => h.congr rfl rfl) fun _ _ _ h he => (eventStep_effect he).memoryInv h

end Sys2Proof.Machine
end

section
/-! SUPPORT and proof of `Obligations.StepKeepsTablesInv` (O57; rules R42, R43, R118, R120, R124): the field tables are written by
FIELD_BUILD, which empties the slots, and a slot by GEN_BUILD, over the field that is there. -/

namespace Sys2Proof.Machine

section
variable {s t : State}

theorem State.TablesInv.congr (h : s.TablesInv) (hfield : t.field = s.field) (hgens : t.gens = s.gens) : t.TablesInv := by
  have hgen (k : Fin Config.ngen) : t.gen k = s.gen k := by rw [State.gen, hgens, State.gen]
  exact
    { field_built := by rw [hfield]; exact h.field_built
      slot_needs_field := fun k => by rw [hgen, hfield]; exact h.slot_needs_field k
      slot_built := fun k => by rw [hgen, hfield]; exact h.slot_built k }

/-- No slot is valid in a state whose slots are all empty. -/
theorem gen_valid_of_empty (hgens : s.gens = Vector.replicate Config.ngen GenSlot.empty) (k : Fin Config.ngen) :
    (s.gen k).valid = false := by
  simp [State.gen, hgens, GenSlot.empty]

theorem State.TablesInv.of_empty (hgens : s.gens = Vector.replicate Config.ngen GenSlot.empty)
    (hfield : s.field.valid = true → s.field.poly.getLsbD 8 = true ∧ isPermutation (buildPower s.field.poly) = true ∧
      s.field.tables = buildTables s.field.poly) : s.TablesInv where
  field_built := hfield
  slot_needs_field k hk := by simp [gen_valid_of_empty hgens] at hk
  slot_built k hk := by simp [gen_valid_of_empty hgens] at hk

theorem setGen_gen (s : State) (slot k : Fin Config.ngen) (g : GenSlot) :
    (s.setGen slot g).gen k = if k = slot then g else s.gen k := by
  rw [State.gen, State.setGen_gens, Vector.getElem_set]
  exact if_congr (by rw [eq_comm, Fin.ext_iff]) rfl rfl

theorem State.TablesInv.setGen (h : s.TablesInv) (slot : Fin Config.ngen) {start stop : Byte}
    (hfield : s.field.valid = true) (hle : start.toNat ≤ stop.toNat) (hlt : stop.toNat ≤ 254) :
    (s.setGen slot (builtSlot s.field.tables start stop)).TablesInv where
  field_built := h.field_built
  slot_needs_field _ _ := hfield
  slot_built k := by
    rw [setGen_gen]
    split
    · exact fun _ => ⟨hle, hlt, rfl⟩
    · exact h.slot_built k

theorem CommandEffect.tablesInv (hc : CommandEffect s t) (h : s.TablesInv) : t.TablesInv := by
  cases hc
  case field poly _ h8 hperm => exact .of_empty rfl fun _ => ⟨h8, hperm, rfl⟩
  case slot k start stop w _ hfield hle hlt => exact (h.setGen k hfield hle hlt).congr rfl rfl
  all_goals exact h.congr rfl rfl

theorem EventEffect.tablesInv {e : Event} (he : EventEffect s e t) (h : s.TablesInv) : t.TablesInv := by
  cases he with
  | read | idle => exact h.congr rfl rfl
  | write _ _ hw => cases hw <;> exact h.congr rfl rfl
  | command _ hc => exact hc.tablesInv h
  | input _ hi => cases hi <;> exact h.congr rfl rfl
  | worker hw => cases hw <;> exact h.congr rfl rfl
  | reset => exact .of_empty rfl fun hvalid => by cases hvalid

end

/-- Settles O57. -/
theorem stepKeepsTablesInv : Obligations.StepKeepsTablesInv := fun _ _ =>
  step_keeps (fun _ h => h.congr rfl rfl) fun _ _ _ h he => (eventStep_effect he).tablesInv h

end Sys2Proof.Machine
end

section
/-! SUPPORT and proof of `Obligations.StepKeepsRangeInv` (O59; rules R33, R34, R47, R49, R141): PREV takes the value of a phase,
a phase is a table entry, and the estimator's window is cut to its size. -/

namespace Sys2Proof.Machine

section
variable {s t : State}

theorem State.RangeInv.congr (h : s.RangeInv) (hparams : t.params = s.params) (hsettings : t.settings = s.settings)
    (hprev : t.framer.prev = s.framer.prev) (hslots : t.fifo.slots = s.fifo.slots) (hwin : t.bias.win = s.bias.win) :
    t.RangeInv where
  width := by rw [hparams]; exact h.width
  devMin := by rw [hparams, hsettings]; exact h.devMin
  devMax := by rw [hparams, hsettings]; exact h.devMax
  prev := by rw [hparams, hprev]; exact h.prev
  phases := by rw [hparams, hslots]; exact h.phases
  entries := by rw [hparams, hslots]; exact h.entries
  window := by rw [hparams, hwin]; exact h.window

theorem WriteEffect.rangeInv (hw : WriteEffect s t) (h : s.RangeInv) : t.RangeInv := by
  cases hw
  case settings c _ _ hmin hmax =>
    exact
      { h with
        devMin := hmin.elim (fun heq => heq ▸ h.devMin) id
        devMax := hmax.elim (fun heq => heq ▸ h.devMax) id }
  all_goals exact h.congr rfl rfl rfl rfl rfl

theorem CommandEffect.rangeInv (hc : CommandEffect s t) (h : s.RangeInv) : t.RangeInv := by
  cases hc
  case session => exact { h with window := Nat.zero_le _ }
  all_goals exact h.congr rfl rfl rfl rfl rfl

/-! ### The producer -/

theorem update_win_length_le (p : Config.Params) (b : List Byte) (u : BiasUnit) : (u.update p b).win.length ≤ p.biasN := by
  rw [BiasUnit.update, lastN_length]
  exact Nat.min_le_left _ _

theorem State.RangeInv.receive (h : s.RangeInv) (b : List Byte) : (s.receive b).RangeInv :=
  { h with window := update_win_length_le s.params b s.bias }

theorem State.RangeInv.enqueue (h : s.RangeInv) {b : List Byte} (hsize : b.length ≤ s.params.slotBytes) :
    (s.enqueue b).RangeInv where
  width := h.width
  devMin := h.devMin
  devMax := h.devMax
  prev := h.prev
  phases e he := by
    rcases List.mem_or_eq_of_mem_set he with hold | rfl
    · exact h.phases e hold
    · exact demodulate_inRange h.width b
  entries e he := by
    rcases List.mem_or_eq_of_mem_set he with hold | rfl
    · exact h.entries e hold
    · rw [demodulate_length]
      exact Nat.div_le_div_right hsize
  window := h.window

theorem ProducerEffect.rangeInv {b : List Byte} (hi : ProducerEffect s b t) (h : s.RangeInv) : t.RangeInv := by
  have hreceived := h.receive b
  cases hi with
  | discarded => exact h
  | oversize => exact hreceived.congr rfl rfl rfl rfl rfl
  | full => exact hreceived.congr rfl rfl rfl rfl rfl
  | pushed _ hsize => exact hreceived.enqueue hsize

/-! ### The worker -/

/-- The front entry is in a slot, or it is the empty entry that no legal state reaches (log entry 23). -/
theorem front_phases_inRange (h : s.RangeInv) : ∀ x ∈ s.fifo.front.phases, PhaseInRange s.params.pw x := by
  rw [Fifo.front, List.getD_eq_getElem?_getD]
  cases hfront : s.fifo.slots[s.fifo.head]? with
  | none => simp
  | some e => exact h.phases e (List.mem_of_getElem? hfront)

theorem processEntry_prev_inRange (h : s.RangeInv) :
    PhaseInRange s.params.pw (processEntry s.workerEnv s.fifo.front s.workerState).worker.framer.prev := by
  rcases processEntry_prev s.workerEnv s.fifo.front s.workerState with hphase | hprev
  · exact front_phases_inRange h _ hphase
  · rw [hprev]
    exact h.prev

theorem WorkerEffect.rangeInv (hw : WorkerEffect s t) (h : s.RangeInv) : t.RangeInv := by
  have hprev := processEntry_prev_inRange h
  cases hw with
  | waiting => exact h
  | stopped => exact h.congr rfl rfl rfl rfl rfl
  | processed w _ _ hp | faulted c w _ _ hp =>
    rw [hp] at hprev
    exact { h with prev := hprev }

/-! ### The reset input -/

theorem deviationReset_toNat_lt (p : Config.Params) (hz : Nat) :
    (BitVec.ofNat 32 (deviationReset p hz)).toNat < 2 ^ p.pw := by
  rw [BitVec.toNat_ofNat]
  exact Nat.lt_of_le_of_lt (Nat.mod_le _ _) (Nat.mod_lt _ (Nat.two_pow_pos _))

theorem resetWith_rangeInv {p : Config.Params} (hp : 1 ≤ p.pw) : (State.resetWith p).RangeInv where
  width := hp
  devMin := deviationReset_toNat_lt p 150000
  devMax := deviationReset_toNat_lt p 500000
  prev := by
    have hpos : (0 : Int) < 2 ^ (p.pw - 1) := by positivity
    exact ⟨neg_nonpos.mpr hpos.le, hpos⟩
  phases e he x hx := by
    obtain rfl := List.eq_of_mem_replicate he
    cases hx
  entries e he := by
    obtain rfl := List.eq_of_mem_replicate he
    exact Nat.zero_le _
  window := Nat.zero_le _

theorem EventEffect.rangeInv {e : Event} (he : EventEffect s e t) (h : s.RangeInv) : t.RangeInv := by
  cases he with
  | read => exact h.congr rfl rfl rfl rfl rfl
  | idle => exact h
  | write _ _ hw => exact hw.rangeInv h
  | command _ hc => exact hc.rangeInv h
  | input _ hi => exact hi.rangeInv h
  | worker hw => exact hw.rangeInv h
  | reset => exact (resetWith_rangeInv h.width).congr rfl rfl rfl rfl rfl

end

/-- Settles O59. -/
theorem stepKeepsRangeInv : Obligations.StepKeepsRangeInv := fun _ _ =>
  step_keeps (fun _ h => h.congr rfl rfl rfl rfl rfl) fun _ _ _ h he => (eventStep_effect he).rangeInv h

end Sys2Proof.Machine
end

section
/-! SUPPORT: what each event does to the pipeline (rules R223 to R237), the command words of RUN and SHUTDOWN named. With it the
proofs of `Obligations.StepKeepsPipelineInv` (O58; rules R184, R220 to R222, R226 to R230, R257), of
`Obligations.PipeStateTransitions` (O54; rule R233), of `Obligations.FatalEntersFault` (O52; rule R256) and of
`Obligations.OnlyResetLeavesFaultOrAnEndedRun` (O53; rules R237, R256, R296). -/

namespace Sys2Proof.Machine

/-- The session's state is the same: PIPE_STATE, the fatal code, the FIFO, the framer and the output trace. -/
structure SamePipeline (s t : State) : Prop where
  params : t.params = s.params
  pipe : t.pipe = s.pipe
  fatal : t.err.fatalCode = s.err.fatalCode
  fifo : t.fifo = s.fifo
  framer : t.framer = s.framer
  outTrace : t.outTrace = s.outTrace

theorem SamePipeline.refl (s : State) : SamePipeline s s := ⟨rfl, rfl, rfl, rfl, rfl, rfl⟩

/-- Everything an event can do to the pipeline: nothing, or what RUN, SHUTDOWN, a buffer, the worker or the reset input does. -/
inductive PipelineEffect (s : State) : Event → State → Prop where
  | quiet {e : Event} {t : State} (he : e ≠ .reset) (h : SamePipeline s t) : PipelineEffect s e t
  | started (hb : s.busy = true) (hcmd : s.cmd = 0x10000000) (hp : s.pipe = .idle) (hr : s.ready = true) :
      PipelineEffect s .command s.startSession.complete
  | stopRequested (hb : s.busy = true) (hcmd : s.cmd = 0x11000000) (hp : s.pipe = .running) :
      PipelineEffect s .command s.requestStop.complete
  | input (b : List Byte) {t : State} (h : ProducerEffect s b t) : PipelineEffect s (.input b) t
  | worker {t : State} (h : WorkerEffect s t) : PipelineEffect s .worker t
  | reset : PipelineEffect s .reset s.resetInput

section
variable {s t : State}

theorem WriteEffect.samePipeline (h : WriteEffect s t) : SamePipeline s t := by
  cases h <;> exact ⟨rfl, rfl, rfl, rfl, rfl, rfl⟩

/-- The outcome is a next state with the same pipeline. -/
def Quiet (s : State) (o : Host.Outcome State Fault Refusal) : Prop := ∃ t, o = .next t ∧ SamePipeline s t

theorem Quiet.next (h : SamePipeline s t) : Quiet s (.next t) := ⟨t, rfl, h⟩

theorem SamePipeline.commandError (s : State) (c : ErrCode) : SamePipeline s (s.commandError c) :=
  ⟨rfl, rfl, rfl, rfl, rfl, rfl⟩

theorem SamePipeline.writeXram (s : State) (addr : Nat) (bytes : List Byte) (w : Word) :
    SamePipeline s ((s.writeXram addr bytes).succeed w) :=
  ⟨rfl, rfl, rfl, rfl, rfl, rfl⟩

/-- A check that raises a command error leaves the pipeline alone if what follows it does. -/
theorem Quiet.check {p : Prop} [Decidable p] {c : ErrCode} {o : Host.Outcome State Fault Refusal} (h : Quiet s o) :
    Quiet s (if p then .next (s.commandError c) else o) := by
  split
  · exact .next (.commandError s c)
  · exact h

/-- RUN and SHUTDOWN are the only commands that reach the pipeline. -/
theorem exec_quiet {i : Instr} (hrun : i ≠ .run) (hshutdown : i ≠ .shutdown) (s : State) : Quiet s (exec i s) := by
  cases i with
  | run => exact absurd rfl hrun
  | shutdown => exact absurd rfl hshutdown
  | nop | gfAdd | clearStats => exact .next ⟨rfl, rfl, rfl, rfl, rfl, rfl⟩
  | gfMul | demodInit => exact .check (.next ⟨rfl, rfl, rfl, rfl, rfl, rfl⟩)
  | deinterleave => exact .check (.check (.next (.writeXram s _ _ _)))
  | polyMul | remainder => exact .check (.check (.check (.next (.writeXram s _ _ _))))
  | fieldBuild | genBuild =>
    exact .check (.check (.check (.next ⟨rfl, rfl, rfl, rfl, rfl, rfl⟩)))
  | validate variant =>
    obtain ⟨t, ht⟩ := exec_answers (.validate variant) s
    refine ⟨t, ht, ?_⟩
    obtain ⟨c, rfl⟩ | ⟨_, -, -, -, -, -, -, rfl⟩ := execValidate_cases ht
    · exact .commandError s c
    · exact ⟨rfl, rfl, rfl, rfl, rfl, rfl⟩

theorem exec_pipelineEffect {i : Instr} (hb : s.busy = true) (hcmd : encode i = s.cmd) (h : exec i s = .next t) :
    PipelineEffect s .command t := by
  by_cases hrun : i = .run
  · subst hrun
    obtain ⟨c, rfl⟩ | ⟨hp, hr, rfl⟩ := execRun_cases h
    · exact .quiet (by nofun) (.commandError s c)
    · exact .started hb (hcmd.symm.trans (by decide)) hp hr
  · by_cases hshutdown : i = .shutdown
    · subst hshutdown
      obtain ⟨c, rfl⟩ | ⟨hp, rfl⟩ := execShutdown_cases h
      · exact .quiet (by nofun) (.commandError s c)
      · exact .stopRequested hb (hcmd.symm.trans (by decide)) hp
    · obtain ⟨u, hu, hsame⟩ := exec_quiet hrun hshutdown s
      obtain rfl := next_inj (hu.symm.trans h)
      exact .quiet (by nofun) hsame

theorem eventStep_pipelineEffect {e : Event} (h : eventStep e s = .next t) : PipelineEffect s e t := by
  cases eventStep_effect h with
  | read | idle => exact .quiet (by nofun) ⟨rfl, rfl, rfl, rfl, rfl, rfl⟩
  | write _ _ hw => exact .quiet (by nofun) hw.samePipeline
  | input b hi => exact .input b hi
  | worker hw => exact .worker hw
  | reset => exact .reset
  | command hb _ =>
    cases hdecode : decode s.cmd with
    | ok i =>
      rw [commandStep_of_decoded hb hdecode] at h
      exact exec_pipelineEffect hb (encodeDecodeRoundTrip _ _ hdecode) h
    | error e =>
      rw [commandStep_of_undecodable hb hdecode] at h
      obtain rfl := next_inj h
      exact .quiet (by nofun) ⟨rfl, rfl, rfl, rfl, rfl, rfl⟩

theorem step_pipelineEffect (h : step s = .next t) :
    (s.nextEvent = none ∧ t = s) ∨ ∃ e, s.nextEvent = some e ∧ PipelineEffect s.takeEvent e t := by
  cases he : s.nextEvent with
  | none => rw [step_of_no_event he] at h; exact .inl ⟨rfl, next_inj h⟩
  | some e => rw [step_of_event he] at h; exact .inr ⟨e, rfl, eventStep_pipelineEffect h⟩

/-! ### An enabled worker -/

theorem pipe_of_enabled (h : s.workerEnabled = true) : s.pipe = .running ∨ s.pipe = .stopping :=
  ((workerEnabled_iff s).mp h).1

/-- The worker with nothing to stop has an entry to take (rule R226). -/
theorem count_pos_of_enabled (h : s.workerEnabled = true) (hflag : s.fifo.shutdownFlag = false) : 0 < s.fifo.count :=
  ((workerEnabled_iff s).mp h).2.resolve_left (by simp [hflag])

theorem not_enabled_of_pipe (h : s.pipe = .idle ∨ s.pipe = .fault) : s.workerEnabled = false := by
  rcases h with h | h <;> simp [State.workerEnabled, h]

end

/-- Settles O52: the second case of the worker step that O35 describes. -/
theorem fatalEntersFault : Obligations.FatalEntersFault := by
  intro s c w henabled hflag hfatal
  rw [eventStep_worker_of_entry henabled hflag, processFront_of_progress hfatal]
  rfl

end Sys2Proof.Machine
end

section
/-! SUPPORT: the fatal codes an entry can end with, and what the FIFO's ring is after each event. With them the proofs of
`Obligations.PipeStateTransitions` (O54; rule R233), `Obligations.OnlyResetLeavesFaultOrAnEndedRun` (O53; rules R237, R256,
R296) and `Obligations.StepKeepsPipelineInv` (O58; rules R184, R220 to R222, R226 to R230, R257). -/

namespace Sys2Proof.Machine

/-! ### A Fatal has a code -/

/-- A Fatal, if there is one, carries one of the codes CONT_TOO_LONG and ACC_OVERFLOW (rule R257). -/
def Progress.NamesFatal (p : Progress) : Prop := ∀ c w, p = .fatal c w → c ≠ .none

theorem Progress.NamesFatal.going (w : WorkerState) : (Progress.going w).NamesFatal :=
  fun _ _ h => Progress.noConfusion h

theorem Progress.NamesFatal.fatal {c : FatalCode} (hc : c ≠ .none) (w : WorkerState) : (Progress.fatal c w).NamesFatal := by
  rintro _ _ ⟨⟩
  exact hc

theorem Progress.NamesFatal.andThen {p : Progress} {f : WorkerState → Progress} (hp : p.NamesFatal)
    (hf : ∀ w, (f w).NamesFatal) : (p.andThen f).NamesFatal := by
  cases p with
  | going w => exact hf w
  | fatal c w => exact hp

section
variable (env : WorkerEnv)

theorem shortfall_namesFatal (kind : SpillKind) (rest : List Bool) (v : Option Variant) (w : WorkerState) :
    (shortfall env kind rest v w).NamesFatal := by
  unfold shortfall
  split
  · split
    · exact .fatal (by decide) w
    · exact .going _
  · exact .going _

theorem scan_namesFatal (kind : SpillKind) (fuel : Nat) (rest : List Bool) (w : WorkerState) :
    (scan env kind fuel rest w).NamesFatal := by
  induction fuel generalizing rest w with
  | zero => exact .going _
  | succ fuel ih =>
    unfold scan
    split
    · exact .going _
    · split
      · split
        · exact shortfall_namesFatal env kind _ _ _
        · split
          · exact ih _ _
          · exact shortfall_namesFatal env kind _ _ _
      · split
        · split
          · exact ih _ _
          · exact shortfall_namesFatal env kind _ _ _
        · exact ih _ _

theorem spill_namesFatal (kind : SpillKind) (w : WorkerState) : (spill env kind w).NamesFatal := by
  unfold spill scanFrom
  split
  · exact scan_namesFatal env kind _ _ _
  · exact .going _
  · split
    · exact scan_namesFatal env kind _ _ _
    · exact .going _

theorem breakRun_namesFatal (w : WorkerState) : (breakRun env w).NamesFatal := by
  unfold breakRun
  split
  · exact (spill_namesFatal env .brk w).andThen fun _ => .going _
  · exact .going _

theorem appendOrOverflow_namesFatal (b : Bool) (w : WorkerState) : (appendOrOverflow env b w).NamesFatal := by
  unfold appendOrOverflow
  split
  · exact .fatal (by decide) w
  · exact .going _

theorem slice_namesFatal (d : Phase) (w : WorkerState) : (slice env d w).NamesFatal := by
  unfold slice
  split
  · split
    · exact (spill_namesFatal env .seam w).andThen (appendOrOverflow_namesFatal env _)
    · exact .going _
  · exact breakRun_namesFatal env w

theorem sample_namesFatal (φ : Phase) (w : WorkerState) : (sample env φ w).NamesFatal := by
  have hdelta (p : Prop) [Decidable p] (d : Phase) (u : WorkerState) :
      (if p then slice env d u else .going u).NamesFatal := by
    split
    · exact slice_namesFatal env d u
    · exact .going u
  simp only [sample]
  split
  · exact (hdelta _ _ _).andThen fun _ => .going _
  · exact (hdelta _ _ _).andThen fun _ => .going _

theorem samples_namesFatal (phases : List Phase) (w : WorkerState) : (samples env phases w).NamesFatal := by
  induction phases generalizing w with
  | nil => exact .going w
  | cons φ rest ih => exact (sample_namesFatal env φ w).andThen ih

theorem processEntry_namesFatal (e : FifoEntry) (w : WorkerState) : (processEntry env e w).NamesFatal := by
  have hstart : (discontinuity env e.discont w).NamesFatal := by
    unfold discontinuity
    split
    · exact (breakRun_namesFatal env w).andThen fun _ => .going _
    · exact .going w
  exact (hstart.andThen (samples_namesFatal env e.phases)).andThen (spill_namesFatal env .seam)

end

/-! ### PIPE_STATE -/

section
variable {s t : State}

/-- SHUTDOWN_FLAG is 1 exactly in STOPPING (rules R228 to R230). -/
def FlagInv (s : State) : Prop := s.fifo.shutdownFlag = true ↔ s.pipe = .stopping

theorem FlagInv.congr (h : FlagInv s) (hflag : t.fifo.shutdownFlag = s.fifo.shutdownFlag) (hpipe : t.pipe = s.pipe) :
    FlagInv t := by
  rw [FlagInv, hflag, hpipe]
  exact h

/-- A state outside STOPPING has the flag down. -/
theorem FlagInv.of_down (hflag : t.fifo.shutdownFlag = false) (hpipe : t.pipe ≠ .stopping) : FlagInv t := by
  simp [FlagInv, hflag, hpipe]

theorem FlagInv.down (h : FlagInv s) (hpipe : s.pipe ≠ .stopping) : s.fifo.shutdownFlag = false := by
  simpa using mt h.mp hpipe

theorem ProducerEffect.pipe {b : List Byte} (h : ProducerEffect s b t) : t.pipe = s.pipe := by cases h <;> rfl

theorem ProducerEffect.shutdownFlag {b : List Byte} (h : ProducerEffect s b t) :
    t.fifo.shutdownFlag = s.fifo.shutdownFlag := by cases h <;> rfl

theorem WorkerEffect.flagInv (hw : WorkerEffect s t) (h : FlagInv s) : FlagInv t := by
  cases hw with
  | waiting => exact h
  | stopped => exact .of_down rfl nofun
  | processed => exact h.congr rfl rfl
  | faulted c w _ hflag => exact .of_down hflag nofun

theorem PipelineEffect.flagInv {e : Event} (he : PipelineEffect s e t) (h : FlagInv s) : FlagInv t := by
  cases he with
  | quiet _ hsame => exact h.congr (by rw [hsame.fifo]) hsame.pipe
  | started => exact .of_down rfl nofun
  | stopRequested => exact ⟨fun _ => rfl, fun _ => rfl⟩
  | input b hi => exact h.congr hi.shutdownFlag hi.pipe
  | worker hw => exact hw.flagInv h
  | reset => exact .of_down rfl nofun

theorem FlagInv.step (h : FlagInv s) (hstep : step s = .next t) : FlagInv t :=
  step_keeps (P := FlagInv) (fun _ h => h) (fun _ _ _ h he => (eventStep_pipelineEffect he).flagInv h) h hstep

/-- Settles O54: of all effects only those of RUN, SHUTDOWN, the worker and the reset input move PIPE_STATE. -/
theorem pipeStateTransitions : Obligations.PipeStateTransitions := by
  intro s t hinv hstep
  refine ⟨FlagInv.step hinv hstep, fun hmoved => ?_⟩
  obtain ⟨-, rfl⟩ | ⟨e, he, heffect⟩ := step_pipelineEffect hstep
  · exact absurd rfl hmoved
  cases heffect with
  | quiet _ hsame => exact absurd hsame.pipe hmoved
  | started _ hcmd hp _ => exact .inl ⟨hp, rfl, he, hcmd⟩
  | stopRequested _ hcmd hp => exact .inr (.inl ⟨hp, rfl, he, hcmd⟩)
  | input b hi => exact absurd hi.pipe hmoved
  | reset => exact .inr (.inr (.inr (.inr ⟨rfl, he⟩)))
  | worker hw =>
    cases hw with
    | waiting => exact absurd rfl hmoved
    | processed => exact absurd rfl hmoved
    | stopped _ hflag => exact .inr (.inr (.inl ⟨hinv.mp hflag, rfl, he, hflag⟩))
    | faulted c w henabled _ hp =>
      exact .inr (.inr (.inr (.inl ⟨pipe_of_enabled henabled, rfl, he, processEntry_namesFatal _ _ _ c w hp⟩)))

/-! ### FAULT and the end of a run -/

/-- In FAULT no event but the reset input reaches the pipeline (rules R230, R236, R237). -/
theorem PipelineEffect.of_fault {e : Event} (h : PipelineEffect s e t) (hfault : s.pipe = .fault) (he : e ≠ .reset) :
    SamePipeline s t := by
  cases h with
  | quiet _ hsame => exact hsame
  | started _ _ hp => simp [hfault] at hp
  | stopRequested _ _ hp => simp [hfault] at hp
  | reset => exact absurd rfl he
  | input b hi =>
    cases hi with
    | discarded => exact .refl s
    | oversize hp => simp [hfault] at hp
    | full hp => simp [hfault] at hp
    | pushed hp => simp [hfault] at hp
  | worker hw =>
    have hdisabled := not_enabled_of_pipe (.inr hfault)
    cases hw with
    | waiting => exact .refl s
    | stopped henabled => simp [hdisabled] at henabled
    | processed _ henabled => simp [hdisabled] at henabled
    | faulted _ _ henabled => simp [hdisabled] at henabled

theorem step_of_fault (hfault : s.pipe = .fault) (hreset : s.nextEvent ≠ some .reset) (h : step s = .next t) :
    SamePipeline s t := by
  obtain ⟨-, rfl⟩ | ⟨e, he, heffect⟩ := step_pipelineEffect h
  · exact .refl _
  · obtain ⟨hparams, hpipe, hfatal, hfifo, hframer, htrace⟩ :=
      heffect.of_fault hfault fun heq => hreset (heq ▸ he)
    exact ⟨hparams, hpipe, hfatal, hfifo, hframer, htrace⟩

/-- In FAULT the fatal code is one of rule R257. -/
def FaultNamed (s : State) : Prop := s.pipe = .fault → s.err.fatalCode ≠ .none

theorem PipelineEffect.faultNamed {e : Event} (he : PipelineEffect s e t) (h : FaultNamed s) : FaultNamed t := by
  cases he with
  | quiet _ hsame => rw [FaultNamed, hsame.pipe, hsame.fatal]; exact h
  | started | stopRequested | reset => exact nofun
  | input b hi => cases hi <;> exact h
  | worker hw =>
    cases hw with
    | waiting | processed => exact h
    | stopped => exact nofun
    | faulted c w _ _ hp => exact fun _ => processEntry_namesFatal _ _ _ c w hp

/-- At the end of a run no agent but the reset input has a step (rule R296). -/
theorem step_of_runEnded (h : s.RunEnded) (hreset : s.nextEvent ≠ some .reset) :
    step s = .next { s with schedule := s.schedule.tail } := by
  obtain ⟨hbusy, hpipe, hquiet⟩ := h
  have hdisabled := not_enabled_of_pipe hpipe
  cases hschedule : s.schedule with
  | nil =>
    have hnone : s.nextEvent = none := by simp [State.nextEvent, hschedule, hbusy, hdisabled]
    rw [step_of_no_event hnone, List.tail_nil, ← hschedule]
  | cons e rest =>
    have hnext := nextEvent_of_scheduled hschedule
    have he : e.isAccessOrBuffer = false := hquiet e (by simp [hschedule])
    rw [step_of_event hnext, List.tail_cons, State.takeEvent, hschedule, List.tail_cons]
    cases e with
    | busRead | busWrite | input => cases he
    | reset => exact absurd hnext hreset
    | command => exact if_neg (by simp [hbusy])
    | worker => exact congrArg Host.Outcome.next (workerStep_of_disabled hdisabled)

/-- Settles O53: in FAULT by `step_of_fault`, the code by `PipelineEffect.faultNamed`, the end of a run by
`step_of_runEnded`. -/
theorem onlyResetLeavesFaultOrAnEndedRun : Obligations.OnlyResetLeavesFaultOrAnEndedRun := by
  refine ⟨fun s t hfault hreset hstep => ?_, fun s t hnamed hstep => ?_, fun s hended hreset => ?_⟩
  · obtain ⟨-, hpipe, hfatal, hfifo, hframer, htrace⟩ := step_of_fault hfault hreset hstep
    exact ⟨hpipe.trans hfault, hfatal, hfifo, hframer, htrace⟩
  · exact step_keeps (P := FaultNamed) (fun _ h => h)
      (fun _ _ _ h he => (eventStep_pipelineEffect he).faultNamed h) hnamed hstep
  · obtain ⟨hbusy, hpipe, hquiet⟩ := hended
    exact ⟨step_of_runEnded ⟨hbusy, hpipe, hquiet⟩ hreset, hbusy, hpipe, fun e he => hquiet e (List.mem_of_mem_tail he)⟩

/-! ### The ring -/

/-- SHUTDOWN_FLAG and DROP_PENDING are no part of the ring. -/
theorem FifoInv.congr {p : Config.Params} {f g : Fifo} (h : FifoInv p f) (hslots : g.slots = f.slots)
    (hhead : g.head = f.head) (htail : g.tail = f.tail) (hcount : g.count = f.count) : FifoInv p g where
  slots := by rw [hslots]; exact h.slots
  head := by rw [hhead]; exact h.head
  count := by rw [hcount]; exact h.count
  tail := by rw [hhead, htail, hcount]; exact h.tail

theorem initial_fifoInv {p : Config.Params} (h : 0 < p.qcap) : FifoInv p (Fifo.initial p) where
  slots := List.length_replicate
  head := h
  count := Nat.zero_le _
  tail := (Nat.zero_mod _).symm

theorem ProducerEffect.fifoInv {b : List Byte} (hi : ProducerEffect s b t) (h : FifoInv s.params s.fifo) :
    FifoInv t.params t.fifo := by
  cases hi with
  | discarded => exact h
  | oversize => exact h.congr rfl rfl rfl rfl
  | full => exact h.congr rfl rfl rfl rfl
  | pushed _ _ hroom =>
    exact (Fifo.push_keeps s.params _ h (Nat.lt_of_le_of_ne h.count hroom)).congr rfl rfl rfl rfl

theorem WorkerEffect.fifoInv (hw : WorkerEffect s t) (h : FifoInv s.params s.fifo) : FifoInv t.params t.fifo := by
  cases hw with
  | waiting => exact h
  | stopped => exact Fifo.cleared_keeps s.params h
  | processed _ henabled hflag => exact Fifo.pop_keeps s.params h (count_pos_of_enabled henabled hflag)
  | faulted _ _ henabled hflag => exact Fifo.pop_keeps s.params h (count_pos_of_enabled henabled hflag)

theorem PipelineEffect.fifoInv {e : Event} (he : PipelineEffect s e t) (h : FifoInv s.params s.fifo) :
    FifoInv t.params t.fifo := by
  cases he with
  | quiet _ hsame => rw [hsame.params, hsame.fifo]; exact h
  | started => exact Fifo.cleared_keeps s.params h
  | stopRequested => exact h.congr rfl rfl rfl rfl
  | input b hi => exact hi.fifoInv h
  | worker hw => exact hw.fifoInv h
  | reset => exact initial_fifoInv (Nat.zero_lt_of_lt h.head)

/-! ### The pipeline's invariant -/

theorem ready_congr (h : SameTables s t) : t.ready = s.ready := by
  simp only [State.ready, State.gen, h.field, h.phase, h.gens]

theorem initial_framerInv (p : Config.Params) : FramerInv p Framer.initial := Framer.cleared_inv p Framer.initial

theorem resetWith_pipelineInv {p : Config.Params} (hp : p.Legal) : (State.resetWith p).PipelineInv where
  legal := hp
  framer := initial_framerInv p
  fifo := by
    obtain ⟨⟨hqcap, -⟩, -⟩ := hp
    exact initial_fifoInv (Nat.lt_of_lt_of_le (by decide) hqcap)
  flag := FlagInv.of_down rfl nofun
  idle _ := ⟨rfl, rfl, rfl⟩
  ready h := absurd rfl h
  noFatal := ⟨nofun, rfl⟩

/-- With a legal ACC_CAP the entry is processed to its end, and the framer's invariant holds after it (rules R184, R257). -/
theorem State.PipelineInv.processEntry (h : s.PipelineInv) :
    ∃ w, processEntry s.workerEnv s.fifo.front s.workerState = .going w ∧ FramerInv s.params w.framer := by
  obtain ⟨-, -, hcap, -⟩ := h.legal
  obtain ⟨w, hgoing, hsettled⟩ :=
    processEntry_settles (env := s.workerEnv) hcap.1 s.fifo.front (w := s.workerState) h.framer.midway
  exact ⟨w, hgoing, hsettled.inv⟩

theorem ProducerEffect.pipelineInv {b : List Byte} (hi : ProducerEffect s b t) (h : s.PipelineInv) : t.PipelineInv := by
  have hfifo := hi.fifoInv h.fifo
  cases hi with
  | discarded => exact h
  | oversize hp => exact { h with fifo := hfifo, idle := fun hidle => by simp [hp] at hidle }
  | full hp => exact { h with fifo := hfifo, idle := fun hidle => by simp [hp] at hidle }
  | pushed hp => exact { h with fifo := hfifo, idle := fun hidle => by simp [hp] at hidle }

theorem WorkerEffect.pipelineInv (hw : WorkerEffect s t) (h : s.PipelineInv) : t.PipelineInv := by
  have hfifo := hw.fifoInv h.fifo
  have hflag := hw.flagInv h.flag
  obtain ⟨u, hgoing, hframer⟩ := h.processEntry
  cases hw with
  | waiting => exact h
  | stopped =>
    exact
      { h with
        framer := Framer.cleared_inv s.params s.framer
        fifo := hfifo
        flag := hflag
        idle := fun _ => ⟨rfl, rfl, rfl⟩
        ready := fun hpipe => absurd rfl hpipe
        noFatal := ⟨nofun, h.noFatal.2⟩ }
  | processed w henabled _ hp =>
    obtain rfl : u = w := by simpa [hgoing] using hp
    refine { h with framer := hframer, fifo := hfifo, idle := fun hidle => ?_ }
    rcases pipe_of_enabled henabled with hpipe | hpipe <;> simp [hpipe] at hidle
  | faulted c w _ _ hp => simp [hgoing] at hp

theorem PipelineEffect.pipelineInv {e : Event} (he : PipelineEffect s e t) (h : s.PipelineInv)
    (htables : s.pipe ≠ .idle → e ≠ .reset → SameTables s t) : t.PipelineInv := by
  have hfifo := he.fifoInv h.fifo
  have hflag := he.flagInv h.flag
  cases he with
  | quiet hreset hsame =>
    exact
      { legal := hsame.params ▸ h.legal
        framer := by rw [hsame.params, hsame.framer]; exact h.framer
        fifo := hfifo
        flag := hflag
        idle := by rw [hsame.pipe, hsame.fifo, hsame.framer]; exact h.idle
        ready := by
          rw [hsame.pipe]
          exact fun hpipe => (ready_congr (htables hpipe hreset)).trans (h.ready hpipe)
        noFatal := by rw [State.NoFatal, hsame.pipe, hsame.fatal]; exact h.noFatal }
  | started _ _ _ hready =>
    exact
      { h with
        framer := Framer.cleared_inv s.params s.framer
        fifo := hfifo
        flag := hflag
        idle := nofun
        ready := fun _ => hready
        noFatal := ⟨nofun, h.noFatal.2⟩ }
  | stopRequested _ _ hp =>
    exact
      { h with
        fifo := hfifo
        flag := hflag
        idle := nofun
        ready := fun _ => h.ready (by simp [hp])
        noFatal := ⟨nofun, h.noFatal.2⟩ }
  | input b hi => exact hi.pipelineInv h
  | worker hw => exact hw.pipelineInv h
  | reset =>
    exact { resetWith_pipelineInv h.legal with }

end

/-- Settles O58: each event's effect on the pipeline keeps the invariant; that the session stays ready is
`EventEffect.sameTables`, that no entry faults is `State.PipelineInv.processEntry`. -/
theorem stepKeepsPipelineInv : Obligations.StepKeepsPipelineInv := fun _ _ =>
  step_keeps (fun _ h => { h with }) fun _ _ _ h he =>
    (eventStep_pipelineEffect he).pipelineInv h fun hpipe hreset => (eventStep_effect he).sameTables hpipe hreset

end Sys2Proof.Machine
end

section
/-! SUPPORT: the FIFO's ring seen as the queue of its entries (rules R47, R220 to R222). With it the proof of
`Obligations.FifoIsAQueue` (O50; rules R84, R221, R222, R228, R229, R234). -/

namespace Sys2Proof.Machine

/-! ### The queue of a ring -/

/-- The entry of FIFO slot `i`. -/
def Fifo.slotAt (f : Fifo) (i : Nat) : FifoEntry := f.slots.getD i { phases := [], discont := false }

theorem queue_eq_map (qcap : Nat) (f : Fifo) :
    Claims.queue qcap f = (List.range f.count).map fun k => f.slotAt ((f.head + k) % qcap) := rfl

theorem queue_of_empty {qcap : Nat} {f : Fifo} (h : f.count = 0) : Claims.queue qcap f = [] := by
  rw [queue_eq_map, h, List.range_zero, List.map_nil]

/-- SHUTDOWN_FLAG, DROP_PENDING and TAIL are no part of the queue. -/
theorem queue_congr (qcap : Nat) {f g : Fifo} (hslots : g.slots = f.slots) (hhead : g.head = f.head)
    (hcount : g.count = f.count) : Claims.queue qcap g = Claims.queue qcap f := by
  simp only [Claims.queue, hslots, hhead, hcount]

section
variable {p : Config.Params} {f : Fifo}

/-- The entries before the tail are in other slots than the tail's (rule R221). -/
theorem tail_ne_of_queued (h : FifoInv p f) (hroom : f.count < p.qcap) {k : Nat} (hk : k < f.count) :
    f.tail ≠ (f.head + k) % p.qcap := by
  rw [h.tail]
  intro heq
  have hmod : f.count ≡ k [MOD p.qcap] := Nat.ModEq.add_left_cancel' f.head heq
  have : f.count = k := by rwa [Nat.ModEq, Nat.mod_eq_of_lt hroom, Nat.mod_eq_of_lt (by omega)] at hmod
  omega

theorem tail_lt (h : FifoInv p f) : f.tail < f.slots.length := by
  rw [h.tail, h.slots]
  exact Nat.mod_lt _ (Nat.zero_lt_of_lt h.head)

theorem push_slotAt_tail (h : FifoInv p f) (e : FifoEntry) : (f.push p.qcap e).slotAt f.tail = e := by
  simp [Fifo.slotAt, Fifo.push, tail_lt h]

theorem push_slotAt_of_ne (e : FifoEntry) {i : Nat} (hi : f.tail ≠ i) : (f.push p.qcap e).slotAt i = f.slotAt i := by
  simp [Fifo.slotAt, Fifo.push, List.getD_eq_getElem?_getD, List.getElem?_set_ne hi]

/-- A push lengthens the queue at its end (rule R221). -/
theorem queue_push (h : FifoInv p f) (hroom : f.count < p.qcap) (e : FifoEntry) :
    Claims.queue p.qcap (f.push p.qcap e) = Claims.queue p.qcap f ++ [e] := by
  have hlast : (f.push p.qcap e).slotAt ((f.head + f.count) % p.qcap) = e := h.tail ▸ push_slotAt_tail h e
  rw [queue_eq_map, queue_eq_map]
  show (List.range (f.count + 1)).map (fun k => (f.push p.qcap e).slotAt ((f.head + k) % p.qcap)) = _
  rw [List.range_succ, List.map_append, List.map_singleton, hlast]
  refine congrArg (· ++ [e]) (List.map_congr_left fun k hk => ?_)
  exact push_slotAt_of_ne e (tail_ne_of_queued h hroom (List.mem_range.mp hk))

/-- A pop takes the oldest entry from the queue (rule R222). -/
theorem queue_pop (h : FifoInv p f) (hcount : 0 < f.count) :
    Claims.queue p.qcap f = f.front :: Claims.queue p.qcap (f.pop p.qcap) := by
  obtain ⟨n, hn⟩ := Nat.exists_eq_add_of_le' hcount
  have hfront : f.slotAt ((f.head + 0) % p.qcap) = f.front := by rw [Nat.add_zero, Nat.mod_eq_of_lt h.head]; rfl
  have hpop : (f.pop p.qcap).count = n := by rw [Fifo.pop, hn, Nat.add_sub_cancel]
  rw [queue_eq_map, queue_eq_map, hpop, hn, List.range_succ_eq_map, List.map_cons, List.map_map, hfront]
  refine congrArg (f.front :: ·) (List.map_congr_left fun k _ => ?_)
  show f.slotAt ((f.head + (k + 1)) % p.qcap) = f.slotAt (((f.head + 1) % p.qcap + k) % p.qcap)
  rw [Nat.mod_add_mod, Nat.add_assoc, Nat.add_comm 1 k]

end

/-! ### The queue after an event -/

section
variable {s t : State}

theorem queue_enqueue (h : FifoInv s.params s.fifo) (hroom : s.fifo.count < s.params.qcap) (b : List Byte) :
    Claims.queue s.params.qcap ((s.receive b).enqueue b).fifo =
      Claims.queue s.params.qcap s.fifo ++ [{ phases := demodulate s b, discont := s.fifo.dropPending }] := by
  rw [← queue_push h hroom, ← demodulate_receive]
  exact queue_congr _ rfl rfl rfl

/-- A buffer that is not enqueued leaves the queue as it is (rules R223, R236). -/
theorem ProducerEffect.queue_eq {b : List Byte} (hi : ProducerEffect s b t)
    (hdrop : s.pipe ≠ .running ∨ s.params.slotBytes < b.length ∨ s.fifo.count = s.params.qcap) :
    Claims.queue t.params.qcap t.fifo = Claims.queue s.params.qcap s.fifo := by
  cases hi with
  | discarded => rfl
  | oversize => exact queue_congr _ rfl rfl rfl
  | full => exact queue_congr _ rfl rfl rfl
  | pushed hp hsize hroom =>
    rcases hdrop with hpipe | hlong | hfull
    · exact absurd hp hpipe
    · omega
    · exact absurd hfull hroom

theorem processFront_params (s : State) : s.processFront.params = s.params := by
  unfold State.processFront State.afterWorker
  split <;> rfl

theorem processFront_fifo (s : State) : s.processFront.fifo = s.fifo.pop s.params.qcap := by
  unfold State.processFront State.afterWorker
  split <;> rfl

/-- The events that change the queue, each under its condition; every other event leaves it as it is. -/
theorem PipelineEffect.queue_cases {e : Event} (he : PipelineEffect s e t) (h : FifoInv s.params s.fifo) :
    Claims.queue t.params.qcap t.fifo = Claims.queue s.params.qcap s.fifo ∨
    (∃ b, e = .input b ∧ s.pipe = .running ∧ b.length ≤ s.params.slotBytes ∧ s.fifo.count < s.params.qcap) ∨
    (e = .worker ∧ s.workerEnabled = true) ∨
    (Claims.queue t.params.qcap t.fifo = [] ∧
      (e = .reset ∨ e = .command ∧ s.busy = true ∧ s.cmd = 0x10000000 ∧ s.pipe = .idle)) := by
  cases he with
  | quiet _ hsame => exact .inl (by rw [hsame.params, hsame.fifo])
  | started hb hcmd hp => exact .inr (.inr (.inr ⟨queue_of_empty rfl, .inr ⟨rfl, hb, hcmd, hp⟩⟩))
  | stopRequested => exact .inl (queue_congr _ rfl rfl rfl)
  | reset => exact .inr (.inr (.inr ⟨queue_of_empty rfl, .inl rfl⟩))
  | input b hi =>
    by_cases hdrop : s.pipe ≠ .running ∨ s.params.slotBytes < b.length ∨ s.fifo.count = s.params.qcap
    · exact .inl (hi.queue_eq hdrop)
    · simp only [not_or, not_not, Nat.not_lt] at hdrop
      obtain ⟨hp, hsize, hroom⟩ := hdrop
      exact .inr (.inl ⟨b, rfl, hp, hsize, Nat.lt_of_le_of_ne h.count hroom⟩)
  | worker hw =>
    cases hw with
    | waiting => exact .inl rfl
    | stopped henabled => exact .inr (.inr (.inl ⟨rfl, henabled⟩))
    | processed _ henabled => exact .inr (.inr (.inl ⟨rfl, henabled⟩))
    | faulted _ _ henabled => exact .inr (.inr (.inl ⟨rfl, henabled⟩))

end

/-- Settles O50: `queue_enqueue` for an accepted buffer, `queue_pop` for the worker's entry, `queue_cases` for the rest, and the
ring by `PipelineEffect.fifoInv`. -/
theorem fifoIsAQueue : Obligations.FifoIsAQueue := by
  intro s h
  refine ⟨fun b hp hsize hroom => ?_, fun b hdrop => ?_, fun hcount henabled hflag => ?_, fun henabled hflag => ?_,
    fun e t hstep => ⟨(eventStep_pipelineEffect hstep).fifoInv h, (eventStep_pipelineEffect hstep).queue_cases h⟩⟩
  · have hpushed : s.producerStep b = (s.receive b).enqueue b :=
      (producerStep_of_fits hp hsize).trans (if_neg (Nat.ne_of_lt hroom))
    refine ⟨_, congrArg Host.Outcome.next hpushed, ?_, queue_enqueue h hroom b⟩
    exact (ProducerEffect.pushed hp hsize (Nat.ne_of_lt hroom)).fifoInv h
  · exact ⟨_, rfl, (producerStep_effect s b).queue_eq hdrop⟩
  · refine ⟨s.processFront, s.fifo.front, eventStep_worker_of_entry henabled hflag, ?_, ?_, fun w hw => ?_, fun c w hw => ?_⟩
    · rw [processFront_params, processFront_fifo]
      exact Fifo.pop_keeps s.params h hcount
    · rw [processFront_params, processFront_fifo]
      exact queue_pop h hcount
    · rw [processFront_of_progress hw]
      rfl
    · rw [processFront_of_progress hw]
      rfl
  · exact ⟨s.stop, congrArg Host.Outcome.next (workerStep_of_flag henabled hflag), queue_of_empty rfl⟩

end Sys2Proof.Machine
end

section
/-! SUPPORT and proof of `Obligations.ResetMeetsTheInvariants` (O60; rules R281, R296, R297). -/

namespace Sys2Proof.Machine

theorem resetWith_memoryInv {p : Config.Params} (hp : p.Legal) : (State.resetWith p).MemoryInv where
  size := by
    obtain ⟨-, -, -, -, -, ⟨hsize, -⟩, -⟩ := hp
    exact hsize
  canonical := rfl
  bounded := nofun

theorem resetWith_tablesInv (p : Config.Params) : (State.resetWith p).TablesInv := .of_empty rfl nofun

theorem pw_pos_of_legal {p : Config.Params} (hp : p.Legal) : 1 ≤ p.pw := by
  obtain ⟨-, -, -, ⟨hpw, -⟩, -⟩ := hp
  omega

/-- Settles O60: each invariant at reset, and the rest by the fields of the reset state. -/
theorem resetMeetsTheInvariants : Obligations.ResetMeetsTheInvariants := by
  refine ⟨fun p hp => ?_, by decide, rfl⟩
  exact ⟨resetWith_memoryInv hp, resetWith_tablesInv p, resetWith_pipelineInv hp, resetWith_rangeInv (pw_pos_of_legal hp),
    rfl, ⟨nofun, rfl⟩, ⟨rfl, .inl rfl, nofun⟩, rfl⟩

end Sys2Proof.Machine
end

section
/-! SUPPORT: host accesses that reach one word, one register or nothing (rules R24, R70, R253). With it the proofs of
`Obligations.BusAccessIgnoresLowAddressBits` (O40), `Obligations.RegisterWritesAreLocked` (O42), `Obligations.ErrReadsAndClears`
(O45) and `Obligations.ResetRegistersReadTheirValues` (O47). -/

namespace Sys2Proof.Machine

/-! ### Address bits [1:0] -/

/-- The mask clears the two low bits and keeps the word's number (rule R70). -/
theorem wordAddress_masked (addr : BusAddr) : wordAddress (addr &&& 0xFFFFC) = wordAddress addr := by
  have hword : (addr.toNat &&& 0xFFFFC) / 4 = addr.toNat / 4 := by
    have hshift : (addr.toNat &&& 0xFFFFC) >>> 2 = addr.toNat >>> 2 &&& (2 ^ 18 - 1) := Nat.shiftRight_and_distrib
    rw [Nat.and_two_pow_sub_one_eq_mod, Nat.shiftRight_eq_div_pow, Nat.shiftRight_eq_div_pow] at hshift
    have hlt := addr.isLt
    omega
  rw [wordAddress, wordAddress, BitVec.toNat_and]
  exact congrArg (· * 4) hword

theorem target_masked (s : State) (addr : BusAddr) : s.target (addr &&& 0xFFFFC) = s.target addr := by
  rw [State.target, State.target, wordAddress_masked]

/-- Only a read while BUSY = 1 can take a draw (rules R25, R76). -/
theorem targetWord_of_free {s : State} (hb : s.busy = false) (t : Target) : ∃ w, s.targetWord t = some w := by
  cases t <;> simp [State.targetWord, hb]

theorem busRead_of_free {s : State} (hb : s.busy = false) (addr : BusAddr) :
    ∃ w, s.busRead addr = { s with busData := w } := by
  obtain ⟨w, hw⟩ := targetWord_of_free hb (s.target addr)
  exact ⟨w, by rw [State.busRead, hw]⟩

theorem busRead_effect (s : State) (addr : BusAddr) :
    ∃ w n, s.busRead addr = { s with busData := w, draws := n } ∧ (s.busy = false → n = s.draws) := by
  by_cases hb : s.busy = true
  · obtain ⟨w, n, h⟩ := busRead_cases s addr
    exact ⟨w, n, h, by simp [hb]⟩
  · obtain ⟨w, h⟩ := busRead_of_free (Bool.eq_false_of_not_eq_true hb) addr
    exact ⟨w, s.draws, h, fun _ => rfl⟩

/-- Settles O40: a read by `busRead_effect`; an access goes by its word address. -/
theorem busAccessIgnoresLowAddressBits : Obligations.BusAccessIgnoresLowAddressBits := by
  intro s addr
  obtain ⟨w, n, hread, hdraws⟩ := busRead_effect s addr
  refine ⟨⟨w, n, congrArg Host.Outcome.next hread, hdraws⟩, ?_, fun v => ?_⟩
  · simp only [eventStep, State.busRead, target_masked]
  · simp only [eventStep, State.busWrite, target_masked]

/-! ### Locked registers -/

section
variable {s : State}

theorem unlessBusy_of_busy (hb : s.busy = true) (t : State) : s.unlessBusy t = Claims.refusedWrite .writeWhileBusy s := by
  rw [State.unlessBusy, if_pos hb, refusedWrite_eq_raiseError]

theorem unlessBusy_of_free (hb : s.busy = false) (t : State) : s.unlessBusy t = t := if_neg (by simp [hb])

theorem unlessLocked_of_busy (hb : s.busy = true) (c : Settings) :
    s.unlessLocked c = Claims.refusedWrite .writeWhileBusy s := by
  rw [State.unlessLocked, if_pos hb, refusedWrite_eq_raiseError]

theorem unlessLocked_of_session (hb : s.busy = false) (hp : s.pipe ≠ .idle) (c : Settings) :
    s.unlessLocked c = Claims.refusedWrite .locked s := by
  rw [State.unlessLocked, if_neg (by simp [hb]), if_pos hp, refusedWrite_eq_raiseError]

theorem unlessLocked_of_idle (hb : s.busy = false) (hp : s.pipe = .idle) (c : Settings) :
    s.unlessLocked c = { s with settings := c } := by
  rw [State.unlessLocked, if_neg (by simp [hb]), if_neg (not_not.mpr hp)]

/-- The registers that a command's execution locks (rule R253, first case). -/
def descriptors : List Reg := [.argA, .argB, .argD]

/-- The registers that a session locks too (rule R253, second case). -/
def configuration : List Reg := [.ctrl, .center, .devMin, .devMax, .syncALo, .syncAHi, .syncULo, .syncUHi]

theorem writeReg_of_descriptor {r : Reg} (hr : r ∈ descriptors) (v : Word) : ∃ t, s.writeReg v r = s.unlessBusy t := by
  simp only [descriptors, List.mem_cons, List.not_mem_nil, or_false] at hr
  rcases hr with rfl | rfl | rfl <;> exact ⟨_, rfl⟩

theorem writeReg_of_configuration {r : Reg} (hr : r ∈ configuration) (v : Word) :
    ∃ c, s.writeReg v r = s.unlessLocked c := by
  simp only [configuration, List.mem_cons, List.not_mem_nil, or_false] at hr
  rcases hr with rfl | rfl | rfl | rfl | rfl | rfl | rfl | rfl <;> exact ⟨_, rfl⟩

theorem descriptors_addresses : descriptors.map Reg.address = [0x30, 0x34, 0x38] := by decide

theorem configuration_addresses :
    configuration.map Reg.address = [0x3C, 0x4C, 0x50, 0x54, 0x58, 0x5C, 0x60, 0x64] := by decide

theorem eventStep_busWrite_busy_xram (hp : s.params.Legal) {k : Nat} (hk : 4 * k < s.params.xramBytes) (hb : s.busy = true)
    (v : Word) :
    eventStep (.busWrite (BitVec.ofNat 20 (0x02000 + 4 * k)) v) s = .next (Claims.refusedWrite .writeWhileBusy s) := by
  have htarget := State.target_of_reaches (reaches_xram s hp hk)
  simp only [eventStep, State.busWrite, htarget, State.writeTarget, unlessBusy_of_busy hb]

end

/-- Settles O42: every write goes to its register's rule (`eventStep_busWrite_address`), and a locked one is refused whatever
it would write. -/
theorem registerWritesAreLocked : Obligations.RegisterWritesAreLocked := by
  intro s v
  refine ⟨fun a ha hb => ?_, fun k hp hk hb => eventStep_busWrite_busy_xram hp hk hb v, fun a ha => ⟨fun hb => ?_, fun hb hp => ?_⟩,
    fun hb => ?_, fun hb hp => ?_⟩
  · rw [← descriptors_addresses] at ha
    obtain ⟨r, hr, rfl⟩ := List.mem_map.mp ha
    obtain ⟨t, ht⟩ := writeReg_of_descriptor hr v
    rw [eventStep_busWrite_address, ht, unlessBusy_of_busy hb]
  · rw [← configuration_addresses] at ha
    obtain ⟨r, hr, rfl⟩ := List.mem_map.mp ha
    obtain ⟨c, hc⟩ := writeReg_of_configuration hr v
    rw [eventStep_busWrite_address, hc, unlessLocked_of_busy hb]
  · rw [← configuration_addresses] at ha
    obtain ⟨r, hr, rfl⟩ := List.mem_map.mp ha
    obtain ⟨c, hc⟩ := writeReg_of_configuration hr v
    rw [eventStep_busWrite_address, hc, unlessLocked_of_session hb hp]
  · have hwrite (r : Reg) (t : State) (hr : s.writeReg v r = s.unlessBusy t) :
        eventStep (.busWrite r.address v) s = .next t := by
      rw [eventStep_busWrite_address, hr, unlessBusy_of_free hb]
    exact ⟨hwrite .argA _ rfl, hwrite .argB _ rfl, hwrite .argD _ rfl⟩
  · have hwrite (r : Reg) (c : Settings) (hr : s.writeReg v r = s.unlessLocked c) :
        eventStep (.busWrite r.address v) s = .next { s with settings := c } := by
      rw [eventStep_busWrite_address, hr, unlessLocked_of_idle hb hp]
    exact ⟨hwrite .ctrl _ rfl, hwrite .center _ rfl, hwrite .devMin _ rfl, hwrite .devMax _ rfl, hwrite .syncALo _ rfl,
      hwrite .syncAHi _ rfl, hwrite .syncULo _ rfl, hwrite .syncUHi _ rfl⟩

/-! ### ERR -/

theorem errNumber_eq_code (c : ErrCode) : Claims.errNumber c = c.code := by cases c <;> rfl

theorem fatalNumber_eq_code (c : FatalCode) : Claims.fatalNumber c = c.code := by cases c <;> rfl

theorem ErrCode.code_lt (c : ErrCode) : c.code < 16 := by cases c <;> decide

theorem FatalCode.code_lt (c : FatalCode) : c.code < 3 := by cases c <;> decide

theorem errWord_eq_placed (e : ErrReg) :
    e.word = placed e.code.code 0 ||| placed e.sticky.toNat 8 ||| placed e.fatalCode.code 16 := by
  simp only [ErrReg.word, bitWord_eq_placed, placed_shiftLeft, Nat.zero_add]

/-- ERR field by field (rule R24). -/
theorem errWord_fields (e : ErrReg) :
    (e.word.extractLsb' 0 8).toNat = e.code.code ∧ e.word.getLsbD 8 = e.sticky ∧ e.word.extractLsb' 9 7 = 0#7 ∧
      (e.word.extractLsb' 16 8).toNat = e.fatalCode.code ∧ e.word.extractLsb' 24 8 = 0#8 := by
  have hcode := e.code.code_lt
  have hfatal := e.fatalCode.code_lt
  have hsticky := e.sticky.toNat_lt
  simp (disch := omega) only [errWord_eq_placed, getLsbD_eq_field, BitVec.extractLsb'_or, placed_field_at,
    placed_field_below, placed_field_above, BitVec.or_zero, BitVec.zero_or, toNat_ofNat_of_lt, getLsbD_flag, and_self]

/-- Settles O45: the fields by `errWord_fields`, and the write by its bit 8. -/
theorem errReadsAndClears : Obligations.ErrReadsAndClears := by
  intro s v
  have hwrite : eventStep (.busWrite 0x28 v) s = .next (if v.getLsbD 8 then s.clearError else s) :=
    eventStep_busWrite_address s v .err
  refine ⟨⟨s.err.word, busRead_address s .err nofun, ?_⟩, fun hbit => ?_, fun hbit => ?_⟩
  · rw [errNumber_eq_code, fatalNumber_eq_code]
    exact errWord_fields s.err
  · rw [hwrite, if_pos hbit]
    rfl
  · rw [hwrite, if_neg (Bool.eq_false_iff.mp hbit)]

/-! ### The reset values -/

/-- Settles O47: the 49 registers of the reset state, evaluated. -/
theorem resetRegistersReadTheirValues : Obligations.ResetRegistersReadTheirValues := by
  unfold Obligations.ResetRegistersReadTheirValues
  decide +kernel

end Sys2Proof.Machine
end

section
/-! SUPPORT and proof of `Obligations.BiasEstimatorAverages` (O30; rule R147): the window is the end of the bytes received, and
the mean of bytes is a byte. -/

namespace Sys2Proof.Machine

theorem lastN_suffix {α : Type} (n : Nat) (l : List α) : ∃ dropped, l = dropped ++ lastN n l :=
  ⟨l.take (l.length - n), (List.take_append_drop _ l).symm⟩

theorem sum_toNat_le (win : List Byte) : (win.map BitVec.toNat).sum ≤ 255 * win.length := by
  have h := List.sum_le_card_nsmul (win.map BitVec.toNat) 255 (by
    simp only [List.mem_map]
    rintro _ ⟨e, -, rfl⟩
    exact Nat.le_of_lt_succ e.isLt)
  rwa [List.length_map, smul_eq_mul, Nat.mul_comm] at h

/-- The mean of bytes fits a byte (rule R147). -/
theorem meanOf_toNat (win : List Byte) : (meanOf win).toNat = (win.map BitVec.toNat).sum / win.length := by
  refine toNat_ofNat_of_lt ?_
  have hmean : (win.map BitVec.toNat).sum / win.length ≤ 255 :=
    Nat.div_le_of_le_mul (by rw [Nat.mul_comm]; exact sum_toNat_le win)
  omega

theorem update_est (p : Config.Params) (b : List Byte) (u : BiasUnit) :
    (u.update p b).est =
      if (u.bufs + 1).toNat % p.biasK = 0 ∧ (u.update p b).win ≠ [] then meanOf (u.update p b).win else u.est := by
  simp only [← List.length_pos_iff]
  rfl

/-- Settles O30. -/
theorem biasEstimatorAverages : Obligations.BiasEstimatorAverages := by
  intro p b u
  refine ⟨lastN_suffix p.biasN (u.win ++ b), ?_, rfl, fun hperiod hne => ?_, fun hnot => ?_⟩
  · rw [← List.length_append]
    exact lastN_length p.biasN (u.win ++ b)
  · rw [update_est, if_pos ⟨hperiod, hne⟩, meanOf_toNat]
  · rw [update_est, if_neg hnot]

end Sys2Proof.Machine
end

section
/-! SUPPORT and proof of `Obligations.DeinterleaveIsBijection` (O31; rule R202): byte i of the packet is byte i div 6 of codeword
i mod 6, and `interleave` puts it back. -/

namespace Sys2Proof.Machine

@[simp] theorem deinterleave_length (packet : List Byte) : (deinterleave packet).length = 6 := by simp [deinterleave]

theorem deinterleave_byte (packet : List Byte) {i : Nat} (hi : i < 552) :
    ((deinterleave packet).getD (i % 6) []).getD (i / 6) 0 = packet.getD i 0 := by
  rw [deinterleave_getD packet (Nat.mod_lt i (by decide)), codeword_getD packet _ (by omega), Nat.div_add_mod]

/-- The packet whose codewords are given: the inverse of `deinterleave`. -/
def interleave (cws : List (List Byte)) : List Byte := (List.range 552).map fun i => (cws.getD (i % 6) []).getD (i / 6) 0

@[simp] theorem interleave_length (cws : List (List Byte)) : (interleave cws).length = 552 := by simp [interleave]

theorem interleave_getD (cws : List (List Byte)) {i : Nat} (hi : i < 552) :
    (interleave cws).getD i 0 = (cws.getD (i % 6) []).getD (i / 6) 0 := by
  simp [interleave, List.getD_eq_getElem?_getD, hi]

theorem interleave_deinterleave {packet : List Byte} (h : packet.length = 552) :
    interleave (deinterleave packet) = packet := by
  refine coeffs_ext (by simp [h]) fun i hi => ?_
  rw [interleave_length] at hi
  rw [interleave_getD _ hi, deinterleave_byte packet hi]

theorem deinterleave_interleave {cws : List (List Byte)} (h : cws.length = 6) (hcw : ∀ cw ∈ cws, cw.length = 92) :
    deinterleave (interleave cws) = cws := by
  refine List.ext_getElem (by simp [h]) fun c hc hc' => ?_
  rw [deinterleave_length] at hc
  rw [← List.getD_eq_getElem _ [], deinterleave_getD _ hc]
  have hlen : cws[c].length = 92 := hcw _ (List.getElem_mem hc')
  refine coeffs_ext (by rw [codeword_length, hlen]) fun j hj => ?_
  rw [codeword_length] at hj
  have hmod : (6 * j + c) % 6 = c := by omega
  have hdiv : (6 * j + c) / 6 = j := by omega
  rw [codeword_getD _ _ hj, interleave_getD _ (by omega), hmod, hdiv, List.getD_eq_getElem _ [] hc']

/-- Settles O31: `interleave` is the inverse on both sides. -/
theorem deinterleaveIsBijection : Obligations.DeinterleaveIsBijection := by
  refine ⟨fun packet _ => ⟨deinterleave_length packet, fun _ => length_of_mem_deinterleave, fun _ => deinterleave_byte packet⟩,
    fun a b ha hb hab => ?_, fun cws h hcw => ⟨interleave cws, interleave_length cws, deinterleave_interleave h hcw⟩⟩
  rw [← interleave_deinterleave ha, hab, interleave_deinterleave hb]

end Sys2Proof.Machine
end

section
/-! SUPPORT: the field of an accepted polynomial word (rules R111 to R116, R126). Multiplication by a nonzero element is a power of
the shift of rule R111, which is linear; from that come distributivity and associativity. With it the proofs of
`Obligations.LogTableInvertsPowerTable` (O21) and `Obligations.FieldLawsHold` (O22). -/

namespace Sys2Proof.Machine

/-! ### The tables that are built -/

@[simp] theorem powersFrom_length (poly : BitVec 16) (n : Nat) (e : Byte) : (powersFrom poly n e).length = n := by
  induction n generalizing e with
  | zero => rfl
  | succ n ih => rw [powersFrom, List.length_cons, ih]

theorem powersFrom_getD_succ (poly : BitVec 16) {n k : Nat} (e : Byte) (hk : k + 1 < n) :
    (powersFrom poly n e).getD (k + 1) 0 = nextPower poly ((powersFrom poly n e).getD k 0) := by
  induction n generalizing e k with
  | zero => omega
  | succ n ih =>
    cases k with
    | zero =>
      obtain ⟨m, rfl⟩ := Nat.exists_eq_add_of_le' (by omega : 1 ≤ n)
      rfl
    | succ k => exact ih (nextPower poly e) (Nat.lt_of_succ_lt_succ hk)

theorem buildPower_isPowerTable (poly : BitVec 16) : Claims.IsPowerTable poly (buildPower poly) := by
  refine ⟨by rw [buildPower, List.length_cons, powersFrom_length], rfl, rfl, fun k hk hlt => ?_⟩
  obtain ⟨n, rfl⟩ := Nat.exists_eq_add_of_le' hk
  rw [← nextPower_eq]
  exact powersFrom_getD_succ poly 0x01 (by omega)

theorem buildLog_getD (P : List Byte) (e : Byte) : (buildLog P).getD e.toNat 0 = BitVec.ofNat 8 (P.idxOf e) := by
  have he : e.toNat < 256 := e.isLt
  simp [buildLog, List.getD_eq_getElem?_getD, List.getElem?_range he]

/-- The log table finds an entry of a table without repetition at its own slot (rule R113). -/
theorem buildLog_isLogTable {P : List Byte} (hlen : P.length = 256) (honce : Claims.EveryByteOnce P) :
    Claims.IsLogTable P (buildLog P) := by
  refine ⟨by simp [buildLog], fun k hk => ?_⟩
  have hnodup : P.Nodup := List.nodup_iff_count_le_one.mpr fun v => (honce v).le
  rw [buildLog_getD, List.getD_eq_getElem P 0 (hlen.symm ▸ hk), hnodup.idxOf_getElem]

theorem buildTables_builtField {poly : BitVec 16} (h : isPermutation (buildPower poly) = true) :
    Claims.BuiltField poly (buildTables poly) := by
  have hpower := buildPower_isPowerTable poly
  have honce := (isPermutation_iff hpower.1).mp h
  exact ⟨hpower, honce, buildLog_isLogTable hpower.1 honce⟩

section
variable {poly : BitVec 16} {t : FieldTables} (h : Claims.BuiltField poly t)
include h

/-! ### Logarithms -/

theorem logAt_powerAt {k : Nat} (hk : k < 256) : t.logAt (t.powerAt k) = k := by
  obtain ⟨-, -, -, hlog⟩ := h
  rw [FieldTables.logAt, FieldTables.powerAt, hlog k hk, toNat_ofNat_of_lt hk]

theorem powerAt_zero : t.powerAt 0 = 0 := by
  obtain ⟨⟨-, hzero, -⟩, -⟩ := h
  exact hzero

theorem powerAt_one : t.powerAt 1 = 1 := by
  obtain ⟨⟨-, -, hone, -⟩, -⟩ := h
  exact hone

theorem exists_powerAt (e : Byte) : ∃ k, k < 256 ∧ t.powerAt k = e := by
  obtain ⟨⟨hlen, -⟩, honce, -⟩ := h
  obtain ⟨k, hk, hke⟩ := List.getElem_of_mem (mem_of_everyByteOnce honce e)
  exact ⟨k, hlen ▸ hk, by rw [FieldTables.powerAt, List.getD_eq_getElem _ 0 hk, hke]⟩

theorem logAt_lt (e : Byte) : t.logAt e < 256 := by
  obtain ⟨k, hk, rfl⟩ := exists_powerAt h e
  rwa [logAt_powerAt h hk]

theorem powerAt_logAt (e : Byte) : t.powerAt (t.logAt e) = e := by
  obtain ⟨k, hk, rfl⟩ := exists_powerAt h e
  rw [logAt_powerAt h hk]

theorem logAt_zero : t.logAt 0 = 0 := by
  have hlog := logAt_powerAt h (k := 0) (by decide)
  rwa [powerAt_zero h] at hlog

theorem logAt_one : t.logAt 1 = 1 := by
  have hlog := logAt_powerAt h (k := 1) (by decide)
  rwa [powerAt_one h] at hlog

theorem logAt_pos {e : Byte} (he : e ≠ 0) : 1 ≤ t.logAt e := by
  refine Nat.one_le_iff_ne_zero.mpr fun hlog => he ?_
  rw [← powerAt_logAt h e, hlog, powerAt_zero h]

theorem powerAt_ne_zero {k : Nat} (hk : k < 255) : t.powerAt (k + 1) ≠ 0 := fun hzero => by
  have hlog := logAt_powerAt h (k := k + 1) (by omega)
  rw [hzero, logAt_zero h] at hlog
  omega

/-! ### The shift of rule R111 -/

omit h in
/-- The shift is linear over exclusive-or. -/
theorem nextPower_xor (x y : Byte) : nextPower poly (x ^^^ y) = nextPower poly x ^^^ nextPower poly y := by
  simp only [nextPower_eq, BitVec.getLsbD_xor, BitVec.shiftLeft_xor_distrib]
  cases x.getLsbD 7 <;> cases y.getLsbD 7
  case false.false => rfl
  case false.true => exact BitVec.xor_assoc _ _ _
  case true.false =>
    exact (BitVec.xor_assoc _ _ _).trans (.trans (congrArg _ (BitVec.xor_comm _ _)) (BitVec.xor_assoc _ _ _).symm)
  case true.true =>
    show x <<< 1 ^^^ y <<< 1 = x <<< 1 ^^^ poly.setWidth 8 ^^^ (y <<< 1 ^^^ poly.setWidth 8)
    ext i hi
    simp only [BitVec.getElem_xor]
    cases (x <<< 1)[i] <;> cases (y <<< 1)[i] <;> cases (poly.setWidth 8)[i] <;> rfl

omit h in
theorem nextPower_zero : nextPower poly 0 = 0 := by
  rw [nextPower_eq, if_neg (by decide)]
  rfl

theorem nextPower_powerAt {k : Nat} (hlo : 1 ≤ k) (hhi : k < 255) : nextPower poly (t.powerAt k) = t.powerAt (k + 1) := by
  obtain ⟨⟨-, -, -, hstep⟩, -⟩ := h
  rw [nextPower_eq]
  exact (hstep (k + 1) (by omega) (by omega)).symm

/-- An element other than 0 and 1 is the shift of one: the power before it. -/
theorem exists_nextPower_eq {e : Byte} (h0 : e ≠ 0) (h1 : e ≠ 1) : ∃ x, nextPower poly x = e := by
  have hpos := logAt_pos h h0
  have hlt := logAt_lt h e
  have hne : t.logAt e ≠ 1 := fun hlog => h1 (by rw [← powerAt_logAt h e, hlog, powerAt_one h])
  obtain ⟨k, hk⟩ := Nat.exists_eq_add_of_le' hpos
  exact ⟨t.powerAt k, by rw [nextPower_powerAt h (by omega) (by omega), ← hk, powerAt_logAt h]⟩

/-- The shift of the last power is 1: by linearity 1 = 2 ⊕ 3 is a shift too, and no other power is left to be shifted to it. -/
theorem nextPower_last : nextPower poly (t.powerAt 255) = 1 := by
  obtain ⟨x, hx⟩ := exists_nextPower_eq h (e := 2) (by decide) (by decide)
  obtain ⟨y, hy⟩ := exists_nextPower_eq h (e := 3) (by decide) (by decide)
  have hone : nextPower poly (x ^^^ y) = 1 := by rw [nextPower_xor, hx, hy]; rfl
  obtain ⟨k, hk, hkz⟩ := exists_powerAt h (x ^^^ y)
  rw [← hkz] at hone
  obtain rfl | ⟨hlo, hhi⟩ | rfl : k = 0 ∨ (1 ≤ k ∧ k < 255) ∨ k = 255 := by omega
  · rw [powerAt_zero h, nextPower_zero] at hone
    exact absurd hone (by decide)
  · rw [nextPower_powerAt h hlo hhi, ← powerAt_one h] at hone
    have hlog := congrArg t.logAt hone
    rw [logAt_powerAt h (by omega), logAt_powerAt h (by decide)] at hlog
    omega
  · exact hone

/-! ### Powers of the shift -/

theorem iterate_one {k : Nat} (hk : k < 255) : (nextPower poly)^[k] 1 = t.powerAt (k + 1) := by
  induction k with
  | zero => exact (powerAt_one h).symm
  | succ k ih => rw [Function.iterate_succ_apply', ih (by omega), nextPower_powerAt h (by omega) hk]

theorem iterate_logAt {e : Byte} (he : e ≠ 0) : (nextPower poly)^[t.logAt e - 1] 1 = e := by
  have hpos := logAt_pos h he
  have hlt := logAt_lt h e
  rw [iterate_one h (by omega), Nat.sub_add_cancel hpos, powerAt_logAt h]

omit h in
theorem iterate_xor (n : Nat) (x y : Byte) :
    (nextPower poly)^[n] (x ^^^ y) = (nextPower poly)^[n] x ^^^ (nextPower poly)^[n] y := by
  induction n generalizing x y with
  | zero => rfl
  | succ n ih => rw [Function.iterate_succ_apply, nextPower_xor, ih]; rfl

omit h in
theorem iterate_zero (n : Nat) : (nextPower poly)^[n] 0 = 0 := Function.iterate_fixed nextPower_zero n

/-- 255 shifts lead every element back to itself. -/
theorem iterate_period (x : Byte) : Function.IsPeriodicPt (nextPower poly) 255 x := by
  have hone : (nextPower poly)^[255] 1 = 1 := by
    rw [Function.iterate_succ_apply', iterate_one h (by decide), nextPower_last h]
  show (nextPower poly)^[255] x = x
  by_cases hx : x = 0
  · rw [hx, iterate_zero]
  · conv_lhs => rw [← iterate_logAt h hx]
    rw [← Function.iterate_add_apply, Nat.add_comm, Function.iterate_add_apply, hone, iterate_logAt h hx]

/-- Multiplication by a nonzero element is a power of the shift (rules R111, R115). -/
theorem gfMul_eq_iterate {a : Byte} (ha : a ≠ 0) (b : Byte) : gfMul t a b = (nextPower poly)^[t.logAt a - 1] b := by
  by_cases hb : b = 0
  · rw [hb, gfMul_zero_right, iterate_zero]
  · conv_rhs => rw [← iterate_logAt h hb]
    rw [← Function.iterate_add_apply, ← (iterate_period h 1).iterate_mod_apply,
      iterate_one h (Nat.mod_lt _ (by decide)), gfMul, if_neg (not_or.mpr ⟨ha, hb⟩)]

/-! ### The field laws -/

theorem gfMul_gfAdd (a b c : Byte) : gfMul t a (gfAdd b c) = gfAdd (gfMul t a b) (gfMul t a c) := by
  by_cases ha : a = 0
  · simp only [ha, gfMul_zero_left, gfAdd]
    exact BitVec.xor_zero.symm
  · simp only [gfMul_eq_iterate h ha, gfAdd, iterate_xor]

theorem gfMul_ne_zero {a b : Byte} (ha : a ≠ 0) (hb : b ≠ 0) : gfMul t a b ≠ 0 := by
  rw [gfMul, if_neg (not_or.mpr ⟨ha, hb⟩)]
  exact powerAt_ne_zero h (Nat.mod_lt _ (by decide))

/-- The product adds the exponents (rule R115). -/
theorem logAt_gfMul {a b : Byte} (ha : a ≠ 0) (hb : b ≠ 0) :
    t.logAt (gfMul t a b) = (t.logAt a - 1 + (t.logAt b - 1)) % 255 + 1 := by
  rw [gfMul, if_neg (not_or.mpr ⟨ha, hb⟩), logAt_powerAt h (by omega)]

theorem gfMul_assoc (a b c : Byte) : gfMul t (gfMul t a b) c = gfMul t a (gfMul t b c) := by
  by_cases ha : a = 0
  · rw [ha, gfMul_zero_left, gfMul_zero_left, gfMul_zero_left]
  by_cases hb : b = 0
  · rw [hb, gfMul_zero_right, gfMul_zero_left, gfMul_zero_right]
  rw [gfMul_eq_iterate h (gfMul_ne_zero h ha hb), logAt_gfMul h ha hb, Nat.add_sub_cancel,
    (iterate_period h c).iterate_mod_apply, gfMul_eq_iterate h ha, gfMul_eq_iterate h hb, Function.iterate_add_apply]

/-- The inverse is the power whose exponent makes up 255 (rule R126). -/
theorem gfMul_eq_one_iff {a : Byte} (ha : a ≠ 0) (b : Byte) :
    gfMul t a b = 1 ↔ b = t.powerAt ((255 - (t.logAt a - 1)) % 255 + 1) := by
  have hpos := logAt_pos h ha
  have hlt := logAt_lt h a
  constructor
  · intro hone
    have hb : b ≠ 0 := by
      rintro rfl
      exact absurd (gfMul_zero_right t a ▸ hone) (by decide)
    have hposb := logAt_pos h hb
    have hltb := logAt_lt h b
    have hlog := logAt_gfMul h ha hb
    rw [hone, logAt_one h] at hlog
    have hexp : t.logAt b = (255 - (t.logAt a - 1)) % 255 + 1 := by omega
    rw [← hexp, powerAt_logAt h]
  · rintro rfl
    have hb := powerAt_ne_zero h (k := (255 - (t.logAt a - 1)) % 255) (Nat.mod_lt _ (by decide))
    have hlog := logAt_gfMul h ha hb
    rw [logAt_powerAt h (by omega)] at hlog
    have hexp : t.logAt (gfMul t a (t.powerAt ((255 - (t.logAt a - 1)) % 255 + 1))) = 1 := by omega
    rw [← powerAt_logAt h (gfMul t a _), hexp, powerAt_one h]

end

/-- Settles O21: the tables are the rules' (`buildTables_builtField`), and the rest holds in every built field. -/
theorem logTableInvertsPowerTable : Obligations.LogTableInvertsPowerTable := by
  intro poly hperm
  have h := buildTables_builtField hperm
  exact ⟨h, logAt_zero h, logAt_one h,
    fun e he => ⟨logAt_pos h he, Nat.le_of_lt_succ (logAt_lt h e), powerAt_logAt h e⟩,
    fun k _ hk => logAt_powerAt h (Nat.lt_succ_of_le hk)⟩

/-- Settles O22. -/
theorem fieldLawsHold : Obligations.FieldLawsHold := fun _ t h =>
  ⟨gfMul_comm t, gfMul_gfAdd h, fun a => ⟨(gfMul_comm t 1 a).trans (gfMul_one h a), gfMul_one h a⟩, gfMul_zero_right t,
    gfMul_assoc h, fun _ ha => gfMul_eq_one_iff h ha⟩

end Sys2Proof.Machine
end

section
/-! SUPPORT: the product with a factor X + x coefficient by coefficient, and the division as a linear operation on the running
remainder. With them the proofs of `Obligations.GeneratorIsOrderFreeAndMonic` (O24; rules R115, R117, R118) and
`Obligations.RemainderLawsHold` (O26; rules R118, R119). -/

namespace Sys2Proof.Machine

section
variable {poly : BitVec 16} {t : FieldTables} (h : Claims.BuiltField poly t)
include h

/-! ### The product with a factor X + x -/

/-- The leading coefficient stays, since the factor's is 1. -/
theorem polyMul_factor_getD_zero (g : List Byte) (x : Byte) : (polyMul t g [0x01, x]).getD 0 0 = g.getD 0 0 := by
  cases g with
  | nil => rfl
  | cons c g =>
    rw [polyMul_cons t c g (List.cons_ne_nil _ _), xorAligned_getD, map_gfMul_getD]
    exact BitVec.xor_zero.trans (gfMul_one h c)

/-- Every later coefficient is that of g, plus x times the one before it. -/
theorem polyMul_factor_getD_succ (g : List Byte) (x : Byte) (k : Nat) :
    (polyMul t g [0x01, x]).getD (k + 1) 0 = g.getD (k + 1) 0 ^^^ gfMul t (g.getD k 0) x := by
  induction g generalizing k with
  | nil =>
    show (0 : Byte) = 0 ^^^ gfMul t 0 x
    rw [gfMul_zero_left]
    rfl
  | cons c g ih =>
    rw [polyMul_cons t c g (List.cons_ne_nil _ _), xorAligned_getD, map_gfMul_getD, List.getD_cons_succ, List.getD_cons_succ]
    cases k with
    | zero =>
      rw [polyMul_factor_getD_zero h, BitVec.xor_comm]
      rfl
    | succ k =>
      rw [ih, List.getD_cons_succ, List.getD_nil, gfMul_zero_right]
      exact BitVec.zero_xor

omit h in
theorem polyMul_factor_length (t : FieldTables) (g : List Byte) (x y : Byte) :
    (polyMul t (polyMul t g [0x01, x]) [0x01, y]).length = if g = [] then 0 else g.length + 2 := by
  cases g with
  | nil => rfl
  | cons c g =>
    have hlen : (polyMul t (c :: g) [0x01, x]).length = g.length + 2 := polyMul_cons_length t c g _
    rw [polyMul_length t (List.ne_nil_of_length_pos (by omega)), hlen, if_neg (List.cons_ne_nil c g)]
    rfl

/-- Two factors multiply in in either order: the coefficients of their product are symmetric in x and y. -/
theorem polyMul_factor_right_comm (g : List Byte) (x y : Byte) :
    polyMul t (polyMul t g [0x01, x]) [0x01, y] = polyMul t (polyMul t g [0x01, y]) [0x01, x] := by
  refine coeffs_ext (by rw [polyMul_factor_length, polyMul_factor_length]) fun k _ => ?_
  cases k with
  | zero => simp only [polyMul_factor_getD_zero h]
  | succ k =>
    cases k with
    | zero =>
      simp only [polyMul_factor_getD_succ h, polyMul_factor_getD_zero h, BitVec.xor_assoc]
      exact congrArg _ (BitVec.xor_comm _ _)
    | succ k =>
      have hdistrib (a b c : Byte) : gfMul t (a ^^^ b) c = gfMul t a c ^^^ gfMul t b c := by
        rw [gfMul_comm, gfMul_comm t a, gfMul_comm t b]
        exact gfMul_gfAdd h c a b
      have hswap : gfMul t (gfMul t (g.getD k 0) x) y = gfMul t (gfMul t (g.getD k 0) y) x := by
        rw [gfMul_assoc h, gfMul_assoc h, gfMul_comm t x]
      simp only [polyMul_factor_getD_succ h, hdistrib, hswap, BitVec.xor_assoc]
      refine congrArg _ ?_
      rw [← BitVec.xor_assoc, ← BitVec.xor_assoc, BitVec.xor_comm (gfMul t _ x)]

theorem polyMul_factor_head {g : List Byte} (hg : g.head? = some 0x01) (x : Byte) :
    (polyMul t g [0x01, x]).head? = some 0x01 := by
  obtain ⟨rest, rfl⟩ := List.head?_eq_some_iff.mp hg
  have hzero := polyMul_factor_getD_zero h (0x01 :: rest) x
  obtain ⟨c, l, hcl⟩ : ∃ c l, polyMul t (0x01 :: rest) [0x01, x] = c :: l :=
    List.exists_cons_of_ne_nil (List.ne_nil_of_length_pos (by rw [polyMul_cons_length]; simp))
  rw [hcl] at hzero ⊢
  exact congrArg some hzero

theorem foldl_factor_head (order : List Nat) {g : List Byte} (hg : g.head? = some 0x01) :
    (order.foldl (fun g i => polyMul t g [0x01, alphaPow t i]) g).head? = some 0x01 := by
  induction order generalizing g with
  | nil => exact hg
  | cons i order ih => exact ih (polyMul_factor_head h hg _)

/-! ### The division is linear -/

/-- The multiples of a polynomial by two factors add up to its multiple by their sum. -/
theorem map_gfMul_gfAdd (l : List Byte) (f f' : Byte) :
    l.map (gfMul t (gfAdd f f')) = xorAligned (l.map (gfMul t f)) (l.map (gfMul t f')) := by
  refine coeffs_ext (by simp) fun k _ => ?_
  rw [xorAligned_getD, map_gfMul_getD, map_gfMul_getD, map_gfMul_getD, gfMul_comm, gfMul_gfAdd h, gfMul_comm,
    gfMul_comm t _ f']
  rfl

theorem reduceSteps_xorAligned (tail : List Byte) (k : Nat) {r r' : List Byte} (hr : r.length = k + tail.length)
    (hr' : r'.length = k + tail.length) :
    reduceSteps t tail k (xorAligned r r') = xorAligned (reduceSteps t tail k r) (reduceSteps t tail k r') := by
  induction k generalizing r r' with
  | zero => rfl
  | succ k ih =>
    obtain ⟨f, r, rfl⟩ : ∃ f l, r = f :: l := List.exists_cons_of_length_pos (by omega)
    obtain ⟨f', r', rfl⟩ : ∃ f l, r' = f :: l := List.exists_cons_of_length_pos (by omega)
    rw [List.length_cons] at hr hr'
    have hlen : tail.length ≤ r.length := by omega
    have hlen' : tail.length ≤ r'.length := by omega
    have hswap (a b c d : List Byte) :
        xorAligned (xorAligned a b) (xorAligned c d) = xorAligned (xorAligned a c) (xorAligned b d) := by
      rw [xorAligned_assoc, xorAligned_assoc, ← xorAligned_assoc b, xorAligned_comm b, xorAligned_assoc c]
    rw [xorAligned_cons, reduceSteps_cons _ _ (by rw [xorAligned_length]; omega), reduceSteps_cons f k hlen,
      reduceSteps_cons f' k hlen', map_gfMul_gfAdd h, hswap]
    exact ih (by rw [xorAligned_multiple_length t f hlen]; omega) (by rw [xorAligned_multiple_length t f' hlen']; omega)

theorem remainder_xorAligned (g : List Byte) {m m' : List Byte} (hm : m.length = m'.length) :
    remainder t (xorAligned m m') g = xorAligned (remainder t m g) (remainder t m' g) := by
  have hshifted : xorAligned m m' ++ List.replicate (g.length - 1) 0x00 =
      xorAligned (m ++ List.replicate (g.length - 1) 0x00) (m' ++ List.replicate (g.length - 1) 0x00) := by
    rw [xorAligned_eq_zipWith hm, xorAligned_eq_zipWith (by simp [hm]), List.zipWith_append hm, List.zipWith_replicate,
      min_self]
    rfl
  rw [remainder, remainder, remainder, hshifted, xorAligned_length, hm, max_self]
  exact reduceSteps_xorAligned h g.tail _ (by simp [hm]) (by simp)

end

/-! ### The division step by step -/

theorem reduceSteps_nil (t : FieldTables) (tail : List Byte) (k : Nat) : reduceSteps t tail k [] = [] := by cases k <;> rfl

theorem reduceSteps_add (t : FieldTables) (tail : List Byte) (j k : Nat) (r : List Byte) :
    reduceSteps t tail (j + k) r = reduceSteps t tail k (reduceSteps t tail j r) := by
  induction j generalizing r with
  | zero => rw [Nat.zero_add, reduceSteps]
  | succ j ih =>
    rw [Nat.add_right_comm]
    cases r with
    | nil => rw [reduceSteps_nil, reduceSteps_nil, reduceSteps_nil]
    | cons f r => exact ih _

/-- What the steps do not reach stays behind what they leave. -/
theorem reduceSteps_append (t : FieldTables) (tail : List Byte) (k : Nat) {r : List Byte} (s : List Byte)
    (hr : r.length = k + tail.length) : reduceSteps t tail k (r ++ s) = reduceSteps t tail k r ++ s := by
  induction k generalizing r with
  | zero => rfl
  | succ k ih =>
    obtain ⟨f, r, rfl⟩ : ∃ f l, r = f :: l := List.exists_cons_of_length_pos (by omega)
    rw [List.length_cons] at hr
    have hlen : (tail.map (gfMul t f)).length ≤ r.length := by rw [List.length_map]; omega
    have hfront : xorAligned (r ++ s) (tail.map (gfMul t f)) = xorAligned r (tail.map (gfMul t f)) ++ s := by
      refine coeffs_ext (by simp [-List.length_map, hlen]; omega) fun j _ => ?_
      rw [xorAligned_getD]
      rcases Nat.lt_or_ge j r.length with hj | hj
      · rw [List.getD_append _ _ _ _ hj, List.getD_append _ _ _ _ (by rw [xorAligned_length]; omega), xorAligned_getD]
      · rw [List.getD_append_right _ _ _ _ hj, List.getD_append_right _ _ _ _ (by rw [xorAligned_length]; omega),
          List.getD_eq_default _ _ (hlen.trans hj), xorAligned_length, max_eq_left hlen]
        exact BitVec.xor_zero
    rw [List.cons_append, reduceSteps_cons f k (by rw [List.length_append]; omega), reduceSteps_cons f k (by omega), hfront]
    exact ih (by rw [xorAligned_multiple_length t f (by omega)]; omega)

/-- A leading zero is discarded (rule R119). -/
theorem remainder_cons_zero (t : FieldTables) (m g : List Byte) : remainder t (0x00 :: m) g = remainder t m g :=
  congrArg (reduceSteps t g.tail m.length) (if_pos rfl)

theorem remainder_zeros_append (t : FieldTables) (n : Nat) (m g : List Byte) :
    remainder t (List.replicate n 0x00 ++ m) g = remainder t m g := by
  induction n with
  | zero => rfl
  | succ n ih => rw [List.replicate_succ, List.cons_append, remainder_cons_zero, ih]

theorem remainder_length (t : FieldTables) (m g : List Byte) : (remainder t m g).length = g.length - 1 := by
  rw [remainder_length_tail, List.length_tail]

/-- The parity's worth of zeros behind the message divides its remainder once more. -/
theorem remainder_append_zeros (t : FieldTables) (m g : List Byte) :
    remainder t (m ++ List.replicate (g.length - 1) 0x00) g = remainder t (remainder t m g) g := by
  have hlen : (m ++ List.replicate (g.length - 1) 0x00).length = m.length + (g.length - 1) := by simp
  have hrem := remainder_length t m g
  rw [remainder, hlen, reduceSteps_add, reduceSteps_append t g.tail m.length _ (by simp), ← remainder]
  conv_rhs => rw [remainder, hrem]

/-- A message followed by its remainder is a codeword: its own remainder is 0. -/
theorem remainder_append_remainder {poly : BitVec 16} {t : FieldTables} (h : Claims.BuiltField poly t) (m g : List Byte) :
    remainder t (m ++ remainder t m g) g = List.replicate (g.length - 1) 0 := by
  have hrem := remainder_length t m g
  have hsplit : m ++ remainder t m g =
      xorAligned (m ++ List.replicate (g.length - 1) 0x00) (List.replicate m.length 0x00 ++ remainder t m g) := by
    refine coeffs_ext (by simp [hrem]) fun j _ => ?_
    rw [xorAligned_getD]
    rcases Nat.lt_or_ge j m.length with hj | hj
    · rw [List.getD_append _ _ _ _ hj, List.getD_append _ _ _ _ hj, List.getD_append _ _ _ _ (by simpa using hj),
        List.getD_replicate _ hj]
      exact BitVec.xor_zero.symm
    · rw [List.getD_append_right _ _ _ _ hj, List.getD_append_right _ _ _ _ hj,
        List.getD_append_right _ _ _ _ (by simpa using hj), List.length_replicate]
      simp
  rw [hsplit, remainder_xorAligned h g (by simp [hrem]), remainder_append_zeros, remainder_zeros_append]
  refine coeffs_ext (by simp [remainder_length]) fun j _ => ?_
  rw [xorAligned_getD, BitVec.xor_self]
  simp

/-- Settles O24: the length by the factors' number, the order by `polyMul_factor_right_comm`. -/
theorem generatorIsOrderFreeAndMonic : Obligations.GeneratorIsOrderFreeAndMonic := by
  intro poly t start stop h hle _
  refine ⟨?_, foldl_factor_head h _ rfl, fun order hperm => ?_⟩
  · rw [genPoly_eq_generator t hle, generator_length]
  · rw [genPoly, Nat.sub_add_comm hle]
    exact hperm.foldl_eq' (fun x _ y _ g => polyMul_factor_right_comm h g _ _) [0x01]

/-- Settles O26: the laws of the division by any divisor (`remainder_xorAligned`, `remainder_append_remainder`). -/
theorem remainderLawsHold : Obligations.RemainderLawsHold := by
  intro poly t start stop h _ _
  refine ⟨fun m => remainder_length t m _, fun m₁ m₂ hlen => ?_, fun m => remainder_cons_zero t m _,
    fun m => remainder_append_remainder h m _⟩
  rw [← xorAligned_eq_zipWith hlen, remainder_xorAligned h _ hlen, xorAligned_eq_zipWith]
  rw [remainder_length, remainder_length]

end Sys2Proof.Machine
end

section
/-! SUPPORT: the digits of an angle (rule R142). `AtTurn` gives a Gaussian integer its angle in turns; squaring doubles the angle,
which is how `turnDigits` reads it digit by digit, and also why no angle lies halfway between two table values (log entry 5). With
it the proofs of `Obligations.LutEntryIsNearestAngle` (O27; rule R142) and `Obligations.LutKnownValues` (O28; rule R143). -/

namespace Sys2Proof.Machine

/-- The nonzero Gaussian integer `x + iy` has the absolute value `r` and stands at `τ` turns. -/
structure AtTurn (x y : ℤ) (r τ : ℝ) : Prop where
  pos : 0 < r
  re : (x : ℝ) = r * Real.cos (2 * Real.pi * τ)
  im : (y : ℝ) = r * Real.sin (2 * Real.pi * τ)

namespace AtTurn

variable {x y : ℤ} {r τ : ℝ}

/-! ### Turning -/

theorem of_arg {z : ℂ} (hz : z ≠ 0) (hre : z.re = x) (him : z.im = y) : AtTurn x y ‖z‖ (z.arg / (2 * Real.pi)) := by
  have hangle : 2 * Real.pi * (z.arg / (2 * Real.pi)) = z.arg := mul_div_cancel₀ _ (by positivity)
  exact
    { pos := norm_pos_iff.mpr hz
      re := by rw [hangle, Complex.norm_mul_cos_arg, hre]
      im := by rw [hangle, Complex.norm_mul_sin_arg, him] }

/-- Squaring doubles the angle. -/
theorem square (h : AtTurn x y r τ) : AtTurn (x * x - y * y) (2 * x * y) (r * r) (2 * τ) where
  pos := mul_pos h.pos h.pos
  re := by
    rw [mul_left_comm, Real.cos_two_mul']
    push_cast
    rw [h.re, h.im]
    ring
  im := by
    rw [mul_left_comm, Real.sin_two_mul]
    push_cast
    rw [h.re, h.im]
    ring

theorem sub_int (h : AtTurn x y r τ) (m : ℤ) : AtTurn x y r (τ - m) := by
  have hangle : 2 * Real.pi * (τ - m) = 2 * Real.pi * τ - m * (2 * Real.pi) := by ring
  exact
    { pos := h.pos
      re := by rw [hangle, Real.cos_sub_int_mul_two_pi]; exact h.re
      im := by rw [hangle, Real.sin_sub_int_mul_two_pi]; exact h.im }

theorem opposite (h : AtTurn x y r τ) : AtTurn (-x) (-y) r (τ - 1 / 2) := by
  have hangle : 2 * Real.pi * (τ - 1 / 2) = 2 * Real.pi * τ - Real.pi := by ring
  exact
    { pos := h.pos
      re := by rw [hangle, Real.cos_sub_pi]; push_cast; rw [h.re]; ring
      im := by rw [hangle, Real.sin_sub_pi]; push_cast; rw [h.im]; ring }

theorem conj (h : AtTurn x y r τ) : AtTurn x (-y) r (-τ) where
  pos := h.pos
  re := by rw [mul_neg, Real.cos_neg]; exact h.re
  im := by rw [mul_neg, Real.sin_neg]; push_cast; rw [h.im]; ring

/-! ### No angle is an odd multiple of a sixteenth turn -/

/-- √2 is irrational, on integers. -/
theorem eq_zero_of_sq_eq_two_mul_sq {a b : ℤ} (h : a ^ 2 = 2 * b ^ 2) : b = 0 := by
  by_contra hb
  have hb' : (b : ℝ) ≠ 0 := Int.cast_ne_zero.mpr hb
  have hsq : ((a : ℝ) / b) ^ 2 = 2 := by
    rw [div_pow, div_eq_iff (pow_ne_zero 2 hb')]
    exact_mod_cast h
  have hsqrt : √2 = |(a : ℝ) / b| := by rw [← hsq, Real.sqrt_sq_eq_abs]
  exact irrational_sqrt_two ⟨|(a : ℚ) / b|, by rw [hsqrt]; push_cast; rfl⟩

/-- At an odd multiple of 1/16 turn the square would have equal parts up to the sign, so that √2 would be rational. -/
theorem sixteenth_ne_odd (h : AtTurn x y r τ) (m : ℤ) : 16 * τ ≠ 2 * m + 1 := by
  intro hodd
  have hsquare := h.square
  have hcos : Real.cos (2 * (2 * Real.pi * (2 * τ))) = 0 := by
    refine Real.cos_eq_zero_iff.mpr ⟨m, ?_⟩
    rw [← hodd]
    ring
  rw [Real.cos_two_mul'] at hcos
  have hparts : (((x * x - y * y) ^ 2 : ℤ) : ℝ) = ((2 * x * y) ^ 2 : ℤ) := by
    rw [Int.cast_pow, Int.cast_pow, hsquare.re, hsquare.im]
    linear_combination (r * r) ^ 2 * hcos
  have hcases : (x - y) ^ 2 = 2 * y ^ 2 ∨ (x + y) ^ 2 = 2 * y ^ 2 := by
    rcases sq_eq_sq_iff_eq_or_eq_neg.mp (Int.cast_injective hparts) with heq | heq
    · exact .inl (by linarith)
    · exact .inr (by linarith)
  have hy : y = 0 := hcases.elim eq_zero_of_sq_eq_two_mul_sq eq_zero_of_sq_eq_two_mul_sq
  have hx : x = 0 := by
    subst hy
    rcases hcases with heq | heq <;> simpa using heq
  have hnorm : (x : ℝ) ^ 2 + (y : ℝ) ^ 2 = r ^ 2 := by
    rw [h.re, h.im, mul_pow, mul_pow, ← mul_add, Real.cos_sq_add_sin_sq, mul_one]
  have hpos := pow_pos h.pos 2
  rw [← hnorm, hx, hy] at hpos
  simp at hpos

theorem not_tie (h : AtTurn x y r τ) (n : ℕ) (m : ℤ) : 2 ^ (n + 4) * τ ≠ 2 * m + 1 := by
  induction n generalizing x y r τ with
  | zero =>
    have hbase := h.sixteenth_ne_odd m
    norm_num
    exact hbase
  | succ n ih =>
    have hscale : 2 ^ (n + 1 + 4) * τ = 2 ^ (n + 4) * (2 * τ) := by ring
    rw [hscale]
    exact ih h.square

/-! ### The digits -/

/-- The leading digit of the angle: half a turn or more. -/
def leadingDigit (x y : ℤ) : ℕ := if y < 0 ∨ (y = 0 ∧ x < 0) then 1 else 0

theorem turnDigits_succ (n : ℕ) (x y : ℤ) (acc : ℕ) :
    turnDigits (n + 1) x y acc = turnDigits n (x * x - y * y) (2 * x * y) (2 * acc + leadingDigit x y) := rfl

theorem digit_zero_of_lt (h : AtTurn x y r τ) (hlo : 0 ≤ τ) (hhi : τ < 1 / 2) : leadingDigit x y = 0 := by
  have hpi := Real.pi_pos
  refine if_neg ?_
  rcases hlo.eq_or_lt with rfl | hlo
  · have hx : (x : ℝ) = r := by rw [h.re]; simp
    have hy : (y : ℝ) = 0 := by rw [h.im]; simp
    have hx' : 0 < x := by exact_mod_cast hx ▸ h.pos
    have hy' : y = 0 := by exact_mod_cast hy
    omega
  · have hsin : 0 < Real.sin (2 * Real.pi * τ) := Real.sin_pos_of_pos_of_lt_pi (by positivity) (by nlinarith)
    have hy : (0 : ℝ) < y := h.im ▸ mul_pos h.pos hsin
    have hy' : 0 < y := by exact_mod_cast hy
    omega

theorem digit_one_of_ge (h : AtTurn x y r τ) (hlo : 1 / 2 ≤ τ) (hhi : τ < 1) : leadingDigit x y = 1 := by
  have hpi := Real.pi_pos
  refine if_pos ?_
  rcases hlo.eq_or_lt with rfl | hlo
  · have hangle : 2 * Real.pi * (1 / 2) = Real.pi := by ring
    have hx : (x : ℝ) < 0 := by rw [h.re, hangle, Real.cos_pi]; linarith [h.pos]
    have hy : (y : ℝ) = 0 := by rw [h.im, hangle, Real.sin_pi, mul_zero]
    exact .inr ⟨by exact_mod_cast hy, by exact_mod_cast hx⟩
  · have hsin : 0 < Real.sin (2 * Real.pi * τ - Real.pi) :=
      Real.sin_pos_of_pos_of_lt_pi (by nlinarith) (by nlinarith)
    rw [Real.sin_sub_pi] at hsin
    have hy : (y : ℝ) < 0 := h.im ▸ mul_neg_of_pos_of_neg h.pos (by linarith)
    exact .inl (by exact_mod_cast hy)

/-- What the leading digit leaves of the doubled angle is again within one turn. -/
theorem doubled_inRange (h : AtTurn x y r τ) (hlo : 0 ≤ τ) (hhi : τ < 1) :
    0 ≤ 2 * τ - leadingDigit x y ∧ 2 * τ - leadingDigit x y < 1 := by
  rcases lt_or_ge τ (1 / 2) with hhalf | hhalf
  · rw [h.digit_zero_of_lt hlo hhalf]
    constructor <;> push_cast <;> linarith
  · rw [h.digit_one_of_ge hhalf hhi]
    constructor <;> push_cast <;> linarith

/-- `turnDigits` appends the first `n` binary digits of the angle. -/
theorem turnDigits_eq (h : AtTurn x y r τ) (hlo : 0 ≤ τ) (hhi : τ < 1) (n acc : ℕ) :
    (turnDigits n x y acc : ℤ) = 2 ^ n * acc + ⌊2 ^ n * τ⌋ := by
  induction n generalizing x y r τ acc with
  | zero =>
    have hfloor : ⌊τ⌋ = 0 := Int.floor_eq_zero_iff.mpr ⟨hlo, hhi⟩
    simp [turnDigits, hfloor]
  | succ n ih =>
    obtain ⟨hlo', hhi'⟩ := h.doubled_inRange hlo hhi
    have hscale : 2 ^ n * (2 * τ - (leadingDigit x y : ℝ)) = 2 ^ (n + 1) * τ - ((2 ^ n * leadingDigit x y : ℤ) : ℝ) := by
      push_cast
      ring
    have hrec := ih (h.square.sub_int (leadingDigit x y)) (by exact_mod_cast hlo') (by exact_mod_cast hhi')
      (2 * acc + leadingDigit x y)
    rw [turnDigits_succ, hrec, Int.cast_natCast, hscale, Int.floor_sub_intCast]
    push_cast
    ring

end AtTurn

/-! ### The table entry of an angle -/

/-- The entry of rule R142 for the sample `(x, y)` from the centre. -/
def angleEntry (pw : ℕ) (x y : ℤ) : Phase := sextPW pw ((turnDigits (pw + 1) x y 0 + 1) / 2 : ℕ)

theorem lutEntry_eq_angleEntry (pw : ℕ) {c i q : Byte} {x y : ℤ} (hx : (i.toNat : ℤ) - c.toNat = x)
    (hy : (q.toNat : ℤ) - c.toNat = y) : lutEntry pw c i q = angleEntry pw x y := by
  subst hx hy
  rfl

theorem turnDigits_zero (n : ℕ) : turnDigits n 0 0 0 = 0 := by
  induction n with
  | zero => rfl
  | succ n ih => exact ih

theorem angleEntry_zero (pw : ℕ) : angleEntry pw 0 0 = 0 := by
  rw [angleEntry, turnDigits_zero]
  exact Int.zero_bmod

section
variable {x y : ℤ} {r τ : ℝ}

/-- The entry is the angle in units of 2^−PW turns, rounded. -/
theorem angleEntry_of_turn (h : AtTurn x y r τ) (pw : ℕ) :
    angleEntry pw x y = Int.bmod ⌊2 ^ pw * τ + 1 / 2⌋ (2 ^ pw) := by
  have hdigits := (h.sub_int ⌊τ⌋).turnDigits_eq (Int.fract_nonneg τ) (Int.fract_lt_one τ) (pw + 1) 0
  have hrounded : (((turnDigits (pw + 1) x y 0 + 1) / 2 : ℕ) : ℤ) = ⌊2 ^ pw * (τ - ⌊τ⌋) + 1 / 2⌋ := by
    have hhalf : 2 ^ pw * (τ - ⌊τ⌋) + 1 / 2 = (2 ^ (pw + 1) * (τ - ⌊τ⌋) + 1) / (2 : ℕ) := by
      push_cast
      ring
    rw [hhalf, Int.floor_div_natCast, Int.floor_add_one]
    push_cast
    rw [hdigits]
    simp
  have hturns : 2 ^ pw * τ + 1 / 2 = 2 ^ pw * (τ - ⌊τ⌋) + 1 / 2 + (((2 ^ pw : ℕ) * ⌊τ⌋ : ℤ) : ℝ) := by
    push_cast
    ring
  rw [angleEntry, sextPW, hrounded, hturns, Int.floor_add_intCast, Int.add_mul_bmod_self_left]

/-- An angle that is a whole number of units is its own entry. -/
theorem angleEntry_of_exact (h : AtTurn x y r τ) {pw : ℕ} (hpw : 1 ≤ pw) {N : ℤ} (hN : 2 ^ pw * τ = N)
    (hrange : PhaseInRange pw N) : angleEntry pw x y = N := by
  have hfloor : ⌊(N : ℝ) + 1 / 2⌋ = N := Int.floor_eq_iff.mpr ⟨by linarith, by linarith⟩
  have hpow : ((2 ^ pw : ℕ) : ℤ) = 2 * 2 ^ (pw - 1) := by exact_mod_cast two_pow_pred hpw
  obtain ⟨hlo, hhi⟩ := hrange
  rw [angleEntry_of_turn h, hN, hfloor]
  exact Int.bmod_eq_of_le (by omega) (by omega)

/-- No angle lies halfway between two units (log entry 5). -/
theorem turn_ne_half (h : AtTurn x y r τ) {pw : ℕ} (hpw : 3 ≤ pw) (k : ℤ) : 2 ^ pw * τ + 1 / 2 ≠ k := by
  obtain ⟨n, rfl⟩ := Nat.exists_eq_add_of_le' hpw
  intro htie
  refine h.not_tie n (k - 1) ?_
  have hscale : 2 ^ (n + 4) * τ = 2 * (2 ^ (n + 3) * τ) := by ring
  rw [hscale]
  push_cast
  linarith

end

/-- Settles O27: `angleEntry_of_turn` for the angle of the statement, and `turn_ne_half` for the strictness. -/
theorem lutEntryIsNearestAngle : Obligations.LutEntryIsNearestAngle := by
  intro pw c i q hpw
  obtain ⟨z, hz⟩ : ∃ z : ℂ, z = ⟨(i.toNat : ℝ) - (c.toNat : ℝ), (q.toNat : ℝ) - (c.toNat : ℝ)⟩ := ⟨_, rfl⟩
  rw [← hz]
  by_cases h0 : z = 0
  · have hx : (i.toNat : ℝ) - (c.toNat : ℝ) = 0 := congrArg Complex.re (hz.symm.trans h0)
    have hy : (q.toNat : ℝ) - (c.toNat : ℝ) = 0 := congrArg Complex.im (hz.symm.trans h0)
    refine ⟨0, by simp [h0], ?_⟩
    rw [lutEntry_eq_angleEntry pw (x := 0) (y := 0) (by exact_mod_cast hx) (by exact_mod_cast hy), angleEntry_zero,
      Int.zero_bmod]
  · have hturn : AtTurn ((i.toNat : ℤ) - c.toNat) ((q.toNat : ℤ) - c.toNat) ‖z‖ (z.arg / (2 * Real.pi)) :=
      .of_arg h0 (by rw [hz]; push_cast; rfl) (by rw [hz]; push_cast; rfl)
    have hunits : z.arg * 2 ^ (pw - 1) / Real.pi = 2 ^ pw * (z.arg / (2 * Real.pi)) := by
      obtain ⟨n, rfl⟩ := Nat.exists_eq_add_of_le' (Nat.one_le_of_lt hpw)
      have hpi := Real.pi_ne_zero
      rw [Nat.add_sub_cancel]
      field_simp
      ring
    refine ⟨⌊2 ^ pw * (z.arg / (2 * Real.pi)) + 1 / 2⌋, ?_, angleEntry_of_turn hturn pw⟩
    have hle := Int.floor_le (2 ^ pw * (z.arg / (2 * Real.pi)) + 1 / 2)
    have hlt := Int.lt_floor_add_one (2 ^ pw * (z.arg / (2 * Real.pi)) + 1 / 2)
    have hne := turn_ne_half hturn hpw ⌊2 ^ pw * (z.arg / (2 * Real.pi)) + 1 / 2⌋
    rw [hunits, abs_lt]
    exact ⟨by linarith [lt_of_le_of_ne hle hne.symm], by linarith⟩

/-! ### Known values -/

/-- The sample on the positive x axis, the positive y axis and the diagonal between them, at `d` from the centre. -/
theorem AtTurn.right {d : ℕ} (hd : 1 ≤ d) : AtTurn d 0 d 0 where
  pos := by exact_mod_cast hd
  re := by simp
  im := by simp

theorem AtTurn.up {d : ℕ} (hd : 1 ≤ d) : AtTurn 0 d d (1 / 4) := by
  have hangle : 2 * Real.pi * (1 / 4) = Real.pi / 2 := by ring
  exact
    { pos := by exact_mod_cast hd
      re := by rw [hangle, Real.cos_pi_div_two]; simp
      im := by rw [hangle, Real.sin_pi_div_two]; simp }

theorem AtTurn.diagonal {d : ℕ} (hd : 1 ≤ d) : AtTurn d d (d * √2) (1 / 8) := by
  have hangle : 2 * Real.pi * (1 / 8) = Real.pi / 4 := by ring
  have hpos : (0 : ℝ) < d := by exact_mod_cast hd
  have hroot : √2 * √2 = 2 := Real.mul_self_sqrt (by norm_num)
  exact
    { pos := by positivity
      re := by rw [hangle, Real.cos_pi_div_four]; push_cast; linear_combination -(d / 2 : ℝ) * hroot
      im := by rw [hangle, Real.sin_pi_div_four]; push_cast; linear_combination -(d / 2 : ℝ) * hroot }

/-- The entries on the axes and the diagonals, at `d` from the centre (rule R143). -/
theorem angleEntry_compass {pw : ℕ} (hpw : 3 ≤ pw) {d : ℕ} (hd : 1 ≤ d) :
    (angleEntry pw d 0 = 0 ∧ angleEntry pw 0 d = 2 ^ (pw - 2) ∧ angleEntry pw d d = 2 ^ (pw - 3)) ∧
    (angleEntry pw (-d) 0 = -2 ^ (pw - 1) ∧ angleEntry pw 0 (-d) = -2 ^ (pw - 2) ∧
      angleEntry pw (-d) (-d) = -(3 * 2 ^ (pw - 3))) := by
  obtain ⟨n, rfl⟩ := Nat.exists_eq_add_of_le' hpw
  have hsub1 : n + 3 - 1 = n + 2 := by omega
  have hsub2 : n + 3 - 2 = n + 1 := by omega
  have hsub3 : n + 3 - 3 = n := by omega
  have hunit : (0 : ℤ) < 2 ^ n := by positivity
  have hpow1 : (2 : ℤ) ^ (n + 1) = 2 * 2 ^ n := by ring
  have hpow2 : (2 : ℤ) ^ (n + 2) = 4 * 2 ^ n := by ring
  have hleft := (AtTurn.right hd).opposite
  have hdown := (AtTurn.up hd).opposite
  have hdiagonal := (AtTurn.diagonal hd).opposite
  rw [neg_zero] at hleft hdown
  rw [hsub1, hsub2, hsub3]
  refine ⟨⟨angleEntry_of_exact (AtTurn.right hd) (by omega) ?_ ?_, angleEntry_of_exact (AtTurn.up hd) (by omega) ?_ ?_,
    angleEntry_of_exact (AtTurn.diagonal hd) (by omega) ?_ ?_⟩, angleEntry_of_exact hleft (by omega) ?_ ?_,
    angleEntry_of_exact hdown (by omega) ?_ ?_, angleEntry_of_exact hdiagonal (by omega) ?_ ?_⟩
  case refine_1 | refine_3 | refine_5 | refine_7 | refine_9 | refine_11 =>
    push_cast
    ring
  all_goals
    rw [PhaseInRange, hsub1]
    constructor <;> omega

/-- Mirrored at the x axis an angle changes its sign, and so does its entry where the range holds the negative (rule R143). -/
theorem angleEntry_conj {pw : ℕ} (hpw : 3 ≤ pw) {x y : ℤ} (hy : y ≠ 0) (hmin : angleEntry pw x y ≠ -2 ^ (pw - 1)) :
    angleEntry pw x y = -angleEntry pw x (-y) := by
  have hz : (⟨x, y⟩ : ℂ) ≠ 0 := fun h0 => hy (Int.cast_eq_zero.mp (congrArg Complex.im h0 : (y : ℝ) = 0))
  have hturn := AtTurn.of_arg hz rfl rfl
  generalize (⟨x, y⟩ : ℂ).arg / (2 * Real.pi) = τ at hturn
  have hround : ⌊2 ^ pw * -τ + 1 / 2⌋ = -⌊2 ^ pw * τ + 1 / 2⌋ := by
    have hle := Int.floor_le (2 ^ pw * τ + 1 / 2)
    have hlt := Int.lt_floor_add_one (2 ^ pw * τ + 1 / 2)
    have hne := turn_ne_half hturn hpw ⌊2 ^ pw * τ + 1 / 2⌋
    refine Int.floor_eq_iff.mpr ⟨by push_cast; linarith, ?_⟩
    push_cast
    linarith [lt_of_le_of_ne hle hne.symm]
  have hentry := angleEntry_of_turn hturn pw
  rw [hentry] at hmin ⊢
  rw [angleEntry_of_turn hturn.conj, hround, Int.neg_bmod]
  split
  case isFalse => rw [neg_neg]
  case isTrue hdvd =>
    have hrange := sextPW_inRange (by omega : 1 ≤ pw) ⌊2 ^ pw * τ + 1 / 2⌋
    have hpow : ((2 ^ pw : ℕ) : ℤ) = 2 * 2 ^ (pw - 1) := by exact_mod_cast two_pow_pred (by omega : 1 ≤ pw)
    have hdvd' : ((2 ^ pw : ℕ) : ℤ) ∣ 2 * Int.bmod ⌊2 ^ pw * τ + 1 / 2⌋ (2 ^ pw) := by
      have hrest := Int.dvd_bmod_sub_self (x := ⌊2 ^ pw * τ + 1 / 2⌋) (m := 2 ^ pw)
      have hsum := dvd_add hdvd (hrest.mul_left 2)
      rwa [← mul_add, add_sub_cancel] at hsum
    rw [sextPW] at hrange
    obtain ⟨hlo, hhi⟩ := hrange
    obtain ⟨j, hj⟩ := hdvd'
    rw [hpow] at hj
    have hcancel : Int.bmod ⌊2 ^ pw * τ + 1 / 2⌋ (2 ^ pw) = 2 ^ (pw - 1) * j := by linarith
    have hpos : (0 : ℤ) < 2 ^ (pw - 1) := by positivity
    have hj0 : j = 0 := by
      rw [hcancel] at hlo hhi hmin
      have hjlo : -1 ≤ j := by nlinarith
      have hjhi : j < 1 := by nlinarith
      have hjne : j ≠ -1 := by rintro rfl; exact hmin (by ring)
      omega
    rw [hcancel, hj0]
    ring

theorem toNat_ofNat_add {c : Byte} {d : ℕ} (h : c.toNat + d ≤ 255) : ((BitVec.ofNat 8 (c.toNat + d)).toNat : ℤ) - c.toNat = d := by
  rw [toNat_ofNat_of_lt (by omega)]
  push_cast
  ring

theorem toNat_ofNat_sub {c : Byte} {d : ℕ} (h : d ≤ c.toNat) : ((BitVec.ofNat 8 (c.toNat - d)).toNat : ℤ) - c.toNat = -d := by
  have hc := c.isLt
  rw [toNat_ofNat_of_lt (by omega)]
  omega

/-- Settles O28: the values of every width by `angleEntry_compass`, the symmetry by `angleEntry_conj`; the listed ones are
evaluated. -/
theorem lutKnownValues : Obligations.LutKnownValues := by
  refine ⟨fun pw c hpw => ?_, by decide +kernel⟩
  have hc : (c.toNat : ℤ) - c.toNat = 0 := sub_self _
  refine ⟨(lutEntry_eq_angleEntry pw hc hc).trans (angleEntry_zero pw), fun d hd hle => ?_, fun d hd hle => ?_,
    fun i d hd hup hdown hmin => ?_⟩
  · have hx := toNat_ofNat_add hle
    obtain ⟨⟨hright, hup, hdiagonal⟩, -⟩ := angleEntry_compass hpw hd
    exact ⟨(lutEntry_eq_angleEntry pw hx hc).trans hright, (lutEntry_eq_angleEntry pw hc hx).trans hup,
      (lutEntry_eq_angleEntry pw hx hx).trans hdiagonal⟩
  · have hx := toNat_ofNat_sub hle
    obtain ⟨-, hleft, hdown, hdiagonal⟩ := angleEntry_compass hpw hd
    exact ⟨(lutEntry_eq_angleEntry pw hx hc).trans hleft, (lutEntry_eq_angleEntry pw hc hx).trans hdown,
      (lutEntry_eq_angleEntry pw hx hx).trans hdiagonal⟩
  · rw [lutEntry_eq_angleEntry pw rfl (toNat_ofNat_add hup)] at hmin ⊢
    rw [lutEntry_eq_angleEntry pw rfl (toNat_ofNat_sub hdown)]
    exact angleEntry_conj hpw (by omega) hmin

end Sys2Proof.Machine
end

section
/-! SUPPORT: one SHORT packet in a stream that reaches the framer in two parts (rules R166, R169 to R178). `Carries` says what of
the worker's state a part of the stream has changed; each lemma about `spill` says what it does with such a part, up to the
dispatch of the packet. With it the proof of `Obligations.ShortPacketSurvivesEverySplit` (O39; `42_bit_slicer_framer.md` section
6). -/

namespace Sys2Proof.Machine

/-! ### What receiving bits changes -/

/-- The state with another framer, and other counts of what is received: the packets' counters and OUT_TRACE stay. -/
def WorkerState.withReceived (f : Framer) (samples validBits maxRun syncA : Word) (w : WorkerState) : WorkerState :=
  { w with
    framer := f
    counters := { w.counters with samples := samples, validBits := validBits, maxRun := maxRun, syncA := syncA } }

/-- `w` is `base` after some reception: no packet is dispatched, none truncated, and no Uplink sync counted. -/
def SameRecords (base w : WorkerState) : Prop :=
  ∃ f samples validBits maxRun syncA, w = base.withReceived f samples validBits maxRun syncA

theorem SameRecords.refl (w : WorkerState) : SameRecords w w := ⟨_, _, _, _, _, rfl⟩

theorem dispatchPacket_withReceived (env : WorkerEnv) (v : Variant) (bits : List Bool) (w : WorkerState) (f : Framer)
    (a b c d : Word) :
    dispatchPacket env v bits (w.withReceived f a b c d) = (dispatchPacket env v bits w).withReceived f a b c d := by
  simp only [dispatchPacket, rawEmit, validatePacket, WorkerState.emit]
  cases v <;> repeat' split
  all_goals rfl

/-- A dispatch does not read what reception changes (rules R200 to R207). -/
theorem SameRecords.dispatch {base w : WorkerState} (h : SameRecords base w) (env : WorkerEnv) (v : Variant)
    (bits : List Bool) : SameRecords (dispatchPacket env v bits base) (dispatchPacket env v bits w) := by
  obtain ⟨f, a, b, c, d, rfl⟩ := h
  exact ⟨f, a, b, c, d, dispatchPacket_withReceived env v bits base f a b c d⟩

/-- The counters that no dispatch touches (rule R212). -/
structure SameReception (c c' : Counters) : Prop where
  samples : c'.samples = c.samples
  validBits : c'.validBits = c.validBits
  syncA : c'.syncA = c.syncA
  syncU : c'.syncU = c.syncU
  trunc : c'.trunc = c.trunc

theorem dispatchPacket_sameReception (env : WorkerEnv) (v : Variant) (bits : List Bool) (w : WorkerState) :
    SameReception w.counters (dispatchPacket env v bits w).counters := by
  simp only [dispatchPacket, rawEmit, validatePacket, WorkerState.emit]
  cases v <;> repeat' split
  all_goals exact ⟨rfl, rfl, rfl, rfl, rfl⟩

/-- `w` is `base` after `syncs` Active syncs, `bits` bits and `phases` phases; its accumulator and continuation are given. -/
structure Carries (base w : WorkerState) (acc : List Bool) (cont : ContKind) (syncs : Word) (bits phases : ℕ) : Prop where
  records : SameRecords base w
  acc : w.framer.acc = acc
  cont : w.framer.cont = cont
  syncA : w.counters.syncA = base.counters.syncA + syncs
  validBits : w.counters.validBits = base.counters.validBits + BitVec.ofNat 32 bits
  samples : w.counters.samples = base.counters.samples + BitVec.ofNat 32 phases

theorem word_add_succ (a : Word) (n : ℕ) : a + BitVec.ofNat 32 n + 1 = a + BitVec.ofNat 32 (n + 1) := by
  rw [BitVec.add_assoc, BitVec.ofNat_add]
  rfl

section
variable {base w : WorkerState} {acc : List Bool} {cont : ContKind} {syncs : Word} {bits phases : ℕ}

theorem Carries.refl (w : WorkerState) : Carries w w w.framer.acc w.framer.cont 0 0 0 where
  records := .refl w
  acc := rfl
  cont := rfl
  syncA := (BitVec.add_zero _).symm
  validBits := (BitVec.add_zero _).symm
  samples := (BitVec.add_zero _).symm

/-- The framer's other fields are no part of what is carried. -/
theorem Carries.withFramer (h : Carries base w acc cont syncs bits phases) (f : Framer) :
    Carries base { w with framer := f } f.acc f.cont syncs bits phases := by
  obtain ⟨⟨_, a, b, c, d, rfl⟩, -, -, hsync, hbits, hphases⟩ := h
  exact ⟨⟨f, a, b, c, d, rfl⟩, rfl, rfl, hsync, hbits, hphases⟩

theorem Carries.append (h : Carries base w acc cont syncs bits phases) (b : Bool) :
    Carries base (w.append b) (acc ++ [b]) cont syncs (bits + 1) phases := by
  obtain ⟨⟨_, _, _, _, _, rfl⟩, rfl, rfl, hsync, hbits, hphases⟩ := h
  exact ⟨⟨_, _, _, _, _, rfl⟩, rfl, rfl, hsync, (congrArg (· + 1) hbits).trans (word_add_succ _ _), hphases⟩

theorem Carries.countSample (h : Carries base w acc cont syncs bits phases) :
    Carries base w.countSample acc cont syncs bits (phases + 1) := by
  obtain ⟨⟨_, _, _, _, _, rfl⟩, rfl, rfl, hsync, hbits, hphases⟩ := h
  exact ⟨⟨_, _, _, _, _, rfl⟩, rfl, rfl, hsync, hbits, (congrArg (· + 1) hphases).trans (word_add_succ _ _)⟩

theorem Carries.countSyncA (h : Carries base w acc cont 0 bits phases) :
    Carries base w.countSyncA acc cont 1 bits phases := by
  obtain ⟨⟨_, _, _, _, _, rfl⟩, rfl, rfl, hsync, hbits, hphases⟩ := h
  exact ⟨⟨_, _, _, _, _, rfl⟩, rfl, rfl, congrArg (· + 1) (hsync.trans (BitVec.add_zero _)), hbits, hphases⟩

/-- A dispatch, seen from the state that has dispatched the same packet already. -/
theorem Carries.dispatch (h : Carries base w acc cont syncs bits phases) (env : WorkerEnv) (v : Variant)
    (packet : List Bool) :
    Carries (dispatchPacket env v packet base) (dispatchPacket env v packet w) acc cont syncs bits phases := by
  have hbase := dispatchPacket_sameReception env v packet base
  have hw := dispatchPacket_sameReception env v packet w
  exact
    { records := h.records.dispatch env v packet
      acc := by rw [dispatchPacket_framer]; exact h.acc
      cont := by rw [dispatchPacket_framer]; exact h.cont
      syncA := by rw [hw.syncA, hbase.syncA]; exact h.syncA
      validBits := by rw [hw.validBits, hbase.validBits]; exact h.validBits
      samples := by rw [hw.samples, hbase.samples]; exact h.samples }

theorem Carries.appendAll (h : Carries base w acc cont syncs bits phases) (l : List Bool) :
    Carries base (l.foldl (fun w b => w.append b) w) (acc ++ l) cont syncs (bits + l.length) phases := by
  induction l generalizing w acc bits with
  | nil => rw [List.append_nil]; exact h
  | cons b l ih =>
    have hrest := ih (h.append b)
    rwa [List.append_assoc, List.singleton_append, Nat.add_assoc, Nat.add_comm 1] at hrest

end

/-! ### The stream of one SHORT packet -/

/-- An Active sync, five 0 bits and 235 further bits (rules R80, R172). -/
structure ShortStream (env : WorkerEnv) (body stream : List Bool) : Prop where
  cap : 4416 ≤ env.params.accCap
  body_length : body.length = 235
  sync : stream.take 36 = bits36 env.settings.syncA
  payload : stream.drop 36 = List.replicate 5 false ++ body

/-- The packet is dispatched, once, and nothing is left of the stream. -/
structure Delivered (env : WorkerEnv) (body : List Bool) (base u : WorkerState) (phases : ℕ) : Prop where
  carries : Carries (dispatchPacket env .short (List.replicate 5 false ++ body) base) u [] .none 1 276 phases
  fstate : u.framer.fstate = .searching

section
variable {env : WorkerEnv} {body stream : List Bool} {base w : WorkerState} {acc : List Bool} {cont : ContKind} {syncs : Word}
  {bits phases : ℕ}

theorem ShortStream.payload_length (hs : ShortStream env body stream) :
    (List.replicate 5 false ++ body).length = 240 := by
  rw [List.length_append, List.length_replicate, hs.body_length]

theorem ShortStream.length (hs : ShortStream env body stream) : stream.length = 276 := by
  have hlen := congrArg List.length hs.payload
  rw [List.length_drop, hs.payload_length] at hlen
  omega

theorem ShortStream.take_drop (hs : ShortStream env body stream) (k : ℕ) :
    (stream.take k).drop 36 = (List.replicate 5 false ++ body).take (k - 36) := by
  rw [List.drop_take, hs.payload]

theorem ShortStream.rest (hs : ShortStream env body stream) {k : ℕ} (hk : 36 ≤ k) :
    (List.replicate 5 false ++ body).take (k - 36) ++ stream.drop k = List.replicate 5 false ++ body := by
  have hdrop : stream.drop k = (List.replicate 5 false ++ body).drop (k - 36) := by
    rw [← hs.payload, List.drop_drop, Nat.add_sub_cancel' hk]
  rw [hdrop, List.take_append_drop]

/-- The five 0 bits say SHORT (rule R172). -/
theorem activeVariant_payload (body : List Bool) {n : ℕ} (hn : 5 ≤ n) (hlen : n ≤ 5 + body.length) :
    activeVariant ((List.replicate 5 false ++ body).take n) = some .short := by
  have hlong : 5 ≤ ((List.replicate 5 false ++ body).take n).length := by
    rw [List.length_take, List.length_append, List.length_replicate]
    exact le_min hn (hn.trans hlen)
  have hzeros : ((List.replicate 5 false ++ body).take n).take 5 = List.replicate 5 false := by
    rw [List.take_take, min_eq_left hn]
    rfl
  rw [activeVariant_of_known hlong, Claims.activeKind, if_pos hzeros]

theorem ShortStream.activeVariant (hs : ShortStream env body stream) :
    activeVariant (List.replicate 5 false ++ body) = some .short := by
  have hwhole := activeVariant_payload body (n := 240) (by decide) (by rw [hs.body_length])
  rwa [List.take_of_length_le hs.payload_length.le] at hwhole

/-! ### What a SEAM spill does with a part of it -/

/-- Fewer than 36 bits are kept (rule R178). -/
theorem spill_of_tail (h : Carries base w acc .none syncs bits phases) (hlen : acc.length < 36) :
    ∃ u, spill env .seam w = .going u ∧ Carries base u acc .none syncs bits phases ∧ u.framer.fstate = .searching := by
  have hnone : resolvedCont w.framer = .none := (resolvedCont_of_ne_undet (by simp [h.cont])).trans h.cont
  refine ⟨Claims.framed acc .none .searching w, ?_, h.withFramer _, rfl⟩
  rw [spill_none hnone, h.acc, scanFrom_tail hlen, spillTail_seam h.cont]

/-- The sync is there, and fewer than five bits after it (rules R174, R176). -/
theorem spill_of_undetermined (hs : ShortStream env body stream) {k : ℕ} (hlo : 36 ≤ k) (hhi : k < 41)
    (h : Carries base w (stream.take k) .none 0 bits phases) :
    ∃ u, spill env .seam w = .going u ∧
      Carries base u ((List.replicate 5 false ++ body).take (k - 36)) .undet 1 bits phases := by
  have hlen := hs.length
  have hcap := hs.cap
  have hnone : resolvedCont w.framer = .none := (resolvedCont_of_ne_undet (by simp [h.cont])).trans h.cont
  have hsync : (stream.take k).take 36 = bits36 env.settings.syncA := by rw [List.take_take, min_eq_left hlo, hs.sync]
  have hshort : activeVariant ((stream.take k).drop 36) = none := activeVariant_of_short (by simp; omega)
  refine ⟨Claims.framed ((List.replicate 5 false ++ body).take (k - 36)) .undet .awaitingContinuation w.countSyncA, ?_,
    h.countSyncA.withFramer _⟩
  rw [spill_none hnone, h.acc, scanFrom_active_undetermined (by simp; omega) hsync hshort, hs.take_drop, shortfall_none]
  exact if_neg (by omega)

/-- The sync is there, and part of the packet (rules R174, R176). -/
theorem spill_of_incomplete (hs : ShortStream env body stream) {k : ℕ} (hlo : 41 ≤ k) (hhi : k < 276)
    (h : Carries base w (stream.take k) .none 0 bits phases) :
    ∃ u, spill env .seam w = .going u ∧
      Carries base u ((List.replicate 5 false ++ body).take (k - 36)) (.pending .short) 1 bits phases := by
  have hlen := hs.length
  have hcap := hs.cap
  have hbits : Variant.short.bits = 240 := rfl
  have hnone : resolvedCont w.framer = .none := (resolvedCont_of_ne_undet (by simp [h.cont])).trans h.cont
  have hsync : (stream.take k).take 36 = bits36 env.settings.syncA := by
    rw [List.take_take, min_eq_left (by omega), hs.sync]
  have hvariant : activeVariant ((stream.take k).drop 36) = some .short := by
    rw [hs.take_drop]
    exact activeVariant_payload body (by omega) (by rw [hs.body_length]; omega)
  refine ⟨Claims.framed ((List.replicate 5 false ++ body).take (k - 36)) (.pending .short) .awaitingContinuation w.countSyncA, ?_,
    h.countSyncA.withFramer _⟩
  rw [spill_none hnone, h.acc, scanFrom_active_short (by simp; omega) hsync hvariant (by simp; omega), hs.take_drop,
    shortfall_some]
  exact if_neg (by omega)

/-- What is left of the stream behind the packet is nothing (rules R177, R178). -/
theorem scanFrom_delivered (h : Carries base w acc cont 1 276 phases) (f : Framer) (hf : f.cont = .none) :
    ∃ u, scanFrom env .seam [] { dispatchPacket env .short (List.replicate 5 false ++ body) w with framer := f } = .going u ∧
      Delivered env body base u phases := by
  refine ⟨Claims.framed [] .none .searching
    { dispatchPacket env .short (List.replicate 5 false ++ body) w with framer := f }, ?_,
    (h.dispatch env .short _).withFramer _, rfl⟩
  rw [scanFrom_tail (by simp), spillTail_seam hf]

/-- The whole stream: the packet is found and dispatched (rules R173, R174). -/
theorem spill_of_whole (hs : ShortStream env body stream) (h : Carries base w stream .none 0 276 phases) :
    ∃ u, spill env .seam w = .going u ∧ Delivered env body base u phases := by
  have hlen := hs.length
  have hnone : resolvedCont w.framer = .none := (resolvedCont_of_ne_undet (by simp [h.cont])).trans h.cont
  have hvariant : activeVariant (stream.drop 36) = some .short := by rw [hs.payload]; exact hs.activeVariant
  have hpacket : (List.replicate 5 false ++ body).take Variant.short.bits = List.replicate 5 false ++ body :=
    List.take_of_length_le hs.payload_length.le
  have hrest : stream.drop (36 + Variant.short.bits) = [] := List.drop_eq_nil_of_le hlen.le
  rw [spill_none hnone, h.acc, scanFrom_active_complete hs.sync hvariant hlen.ge, hrest, hs.payload, hpacket, dispatching_eq]
  exact scanFrom_delivered h.countSyncA _ h.cont

/-- The rest of the packet after a pending part: the continuation is served (rules R171, R172). -/
theorem spill_of_continuation (hs : ShortStream env body stream)
    (h : Carries base w (List.replicate 5 false ++ body) cont 1 276 phases) (hcont : cont = .undet ∨ cont = .pending .short) :
    ∃ u, spill env .seam w = .going u ∧ Delivered env body base u phases := by
  have hpayload := hs.payload_length
  have hpending : resolvedCont w.framer = .pending .short := by
    rcases hcont with rfl | rfl
    · rw [resolvedCont_of_undet h.cont, h.acc, hs.activeVariant]
      rfl
    · exact (resolvedCont_of_ne_undet (by simp [h.cont])).trans h.cont
  have hpacket : (List.replicate 5 false ++ body).take Variant.short.bits = List.replicate 5 false ++ body :=
    List.take_of_length_le hpayload.le
  have hrest : (List.replicate 5 false ++ body).drop Variant.short.bits = [] := List.drop_eq_nil_of_le hpayload.le
  rw [spill_pending_complete hpending (by rw [h.acc]; exact hpayload.ge), h.acc, hpacket, hrest]
  exact scanFrom_delivered h _ rfl

/-- Two receptions of the stream, split at `k`, each followed by a SEAM spill. The second reception finds the first part either
as a tail, or as a pending part of the packet, or delivered already. -/
theorem delivered_of_split (hs : ShortStream env body stream) {k : ℕ} (hk : k ≤ 276) {phases' : ℕ}
    {second : WorkerState → Progress} (h : Carries base w (stream.take k) .none 0 k phases)
    (hsecond : ∀ (b u : WorkerState) (acc : List Bool) (cont : ContKind) (syncs : Word), SameRun w.framer u.framer →
      acc.length ≤ k → Carries b u acc cont syncs k phases →
      ∃ u', second u = .going u' ∧ Carries b u' (acc ++ stream.drop k) cont syncs 276 phases') :
    ∃ u, (spill env .seam w).andThen (fun u => (second u).andThen (spill env .seam)) = .going u ∧
      Delivered env body base u phases' := by
  have hlen := hs.length
  obtain ⟨v, hv, hrun, -⟩ := spill_answers hs.cap .seam w
  have hgoing {u : WorkerState} (hu : spill env .seam w = .going u) : v = u := by simpa [hv] using hu
  rw [hv, Progress.going_andThen]
  obtain htail | ⟨hlo, hhi⟩ | ⟨hlo, hhi⟩ | rfl : k < 36 ∨ (36 ≤ k ∧ k < 41) ∨ (41 ≤ k ∧ k < 276) ∨ k = 276 := by omega
  · obtain ⟨u, hu, hcarries, -⟩ := spill_of_tail (env := env) h (by simp; omega)
    obtain rfl := hgoing hu
    obtain ⟨u', hu', hfinal⟩ := hsecond _ _ _ _ _ hrun (by simp) hcarries
    rw [hu', Progress.going_andThen]
    rw [List.take_append_drop] at hfinal
    exact spill_of_whole hs hfinal
  · obtain ⟨u, hu, hcarries⟩ := spill_of_undetermined hs hlo hhi h
    obtain rfl := hgoing hu
    obtain ⟨u', hu', hfinal⟩ := hsecond _ _ _ _ _ hrun (by simp) hcarries
    rw [hu', Progress.going_andThen]
    rw [hs.rest hlo] at hfinal
    exact spill_of_continuation hs hfinal (.inl rfl)
  · obtain ⟨u, hu, hcarries⟩ := spill_of_incomplete hs hlo hhi h
    obtain rfl := hgoing hu
    obtain ⟨u', hu', hfinal⟩ := hsecond _ _ _ _ _ hrun (by simp) hcarries
    rw [hu', Progress.going_andThen]
    rw [hs.rest (by omega)] at hfinal
    exact spill_of_continuation hs hfinal (.inr rfl)
  · rw [List.take_of_length_le hlen.le] at h
    obtain ⟨u, hu, hdelivered⟩ := spill_of_whole hs h
    obtain rfl := hgoing hu
    obtain ⟨u', hu', hfinal⟩ := hsecond _ _ _ _ _ hrun (by simp) hdelivered.carries
    rw [hu', Progress.going_andThen]
    rw [List.drop_eq_nil_of_le hlen.le, List.append_nil] at hfinal
    obtain ⟨u'', hu'', hcarries, hstate⟩ := spill_of_tail (env := env) hfinal (by simp)
    exact ⟨u'', hu'', hcarries, hstate⟩

end

/-! ### The phases of an entry -/

/-- The phase forms a delta with the one before it (rule R161). -/
def formsDelta (p : Config.Params) (f : Framer) : Bool := if p.pairStride = 1 then f.prevValid else f.pairPhase

/-- PREV and the pairing state after a phase (rule R161). -/
def afterPhase (p : Config.Params) (φ : Phase) (f : Framer) : Framer :=
  { f with prev := φ, prevValid := true, pairPhase := if p.pairStride = 1 then f.pairPhase else !f.pairPhase }

/-- The deltas that phases form from the framer's pairing state on. -/
def deltasFrom (p : Config.Params) (f : Framer) (phases : List Phase) : List Phase :=
  Claims.formedDeltas p f.prev f.prevValid f.pairPhase phases

/-- The delta of the next phase, if it forms one. -/
def nextDelta (p : Config.Params) (f : Framer) (φ : Phase) : List Phase := if formsDelta p f then [deltaOf p f.prev φ] else []

theorem deltasFrom_cons (p : Config.Params) (f : Framer) (φ : Phase) (rest : List Phase) :
    deltasFrom p f (φ :: rest) = nextDelta p f φ ++ deltasFrom p (afterPhase p φ f) rest := by
  simp only [deltasFrom, Claims.formedDeltas, nextDelta, formsDelta, afterPhase, deltaOf, sextPW]
  split <;> rfl

/-- The framer after a sequence of phases. -/
def afterPhases (p : Config.Params) (l : List Phase) (f : Framer) : Framer := l.foldl (fun f φ => afterPhase p φ f) f

theorem deltasFrom_append (p : Config.Params) (l rest : List Phase) (f : Framer) :
    deltasFrom p f (l ++ rest) = deltasFrom p f l ++ deltasFrom p (afterPhases p l f) rest := by
  induction l generalizing f with
  | nil => rfl
  | cons φ l ih => rw [List.cons_append, deltasFrom_cons, deltasFrom_cons, ih, List.append_assoc]; rfl

/-- The framers form the same deltas from now on. -/
structure SamePairing (f g : Framer) : Prop where
  prev : g.prev = f.prev
  prevValid : g.prevValid = f.prevValid
  pairPhase : g.pairPhase = f.pairPhase

theorem SamePairing.trans {f g h : Framer} (a : SamePairing f g) (b : SamePairing g h) : SamePairing f h :=
  ⟨b.prev.trans a.prev, b.prevValid.trans a.prevValid, b.pairPhase.trans a.pairPhase⟩

theorem SameRun.samePairing {f g : Framer} (h : SameRun f g) : SamePairing f g := ⟨h.prev, h.prevValid, h.pairPhase⟩

theorem SamePairing.afterPhases {f g : Framer} (h : SamePairing f g) (p : Config.Params) (l : List Phase) :
    SamePairing (afterPhases p l f) (afterPhases p l g) := by
  induction l generalizing f g with
  | nil => exact h
  | cons φ l ih => exact ih ⟨rfl, rfl, by simp only [afterPhase, h.pairPhase]⟩

theorem deltasFrom_congr (p : Config.Params) {f g : Framer} (h : SamePairing f g) (l : List Phase) :
    deltasFrom p g l = deltasFrom p f l := by
  rw [deltasFrom, deltasFrom, h.prev, h.prevValid, h.pairPhase]

/-- A sample (rule R161), for either pair stride. -/
theorem sample_eq (env : WorkerEnv) (φ : Phase) (w : WorkerState) :
    sample env φ w =
      (if formsDelta env.params w.framer then slice env (deltaOf env.params w.framer.prev φ) w.countSample
        else .going w.countSample).andThen fun u => .going { u with framer := afterPhase env.params φ u.framer } := by
  simp only [sample, formsDelta, afterPhase]
  split <;> rfl

section
variable {env : WorkerEnv} {base w : WorkerState} {acc : List Bool} {cont : ContKind} {syncs : Word} {bits phases : ℕ}

theorem Carries.afterPhase (h : Carries base w acc cont syncs bits phases) (p : Config.Params) (φ : Phase) :
    Carries base { w with framer := afterPhase p φ w.framer } acc cont syncs bits phases := by
  have hframer := h.withFramer (Machine.afterPhase p φ w.framer)
  exact { hframer with acc := h.acc, cont := h.cont }

/-- A phase whose delta, if it forms one, is valid, where the accumulator has room (rules R161, R164 to R166). -/
theorem sample_carries (φ : Phase) (h : Carries base w acc cont syncs bits phases)
    (hvalid : ∀ d ∈ nextDelta env.params w.framer φ, validDelta env.settings d = true)
    (hroom : acc.length < env.params.accCap) :
    ∃ u, sample env φ w = .going u ∧
      Carries base u (acc ++ (nextDelta env.params w.framer φ).map bitOf) cont syncs
        (bits + (nextDelta env.params w.framer φ).length) (phases + 1) ∧
      SamePairing (afterPhase env.params φ w.framer) u.framer := by
  rw [sample_eq]
  by_cases hforms : formsDelta env.params w.framer = true
  · have hdelta : nextDelta env.params w.framer φ = [deltaOf env.params w.framer.prev φ] := if_pos hforms
    rw [hdelta] at hvalid ⊢
    have hnotfull : w.countSample.framer.acc.length ≠ env.params.accCap := h.acc ▸ Nat.ne_of_lt hroom
    rw [if_pos hforms, slice_of_room (hvalid _ List.mem_cons_self) hnotfull]
    exact ⟨_, rfl, (h.countSample.append _).afterPhase _ _, ⟨rfl, rfl, rfl⟩⟩
  · have hdelta : nextDelta env.params w.framer φ = [] := if_neg hforms
    rw [hdelta, if_neg hforms, List.map_nil, List.append_nil]
    exact ⟨_, rfl, h.countSample.afterPhase _ _, ⟨rfl, rfl, rfl⟩⟩

/-- The phases of an entry whose deltas are all valid append their bits (rules R160, R164 to R166). -/
theorem samples_carries (l : List Phase) (h : Carries base w acc cont syncs bits phases)
    (hvalid : ∀ d ∈ deltasFrom env.params w.framer l, validDelta env.settings d = true)
    (hroom : acc.length + (deltasFrom env.params w.framer l).length < env.params.accCap) :
    ∃ u, samples env l w = .going u ∧
      Carries base u (acc ++ (deltasFrom env.params w.framer l).map bitOf) cont syncs
        (bits + (deltasFrom env.params w.framer l).length) (phases + l.length) ∧
      SamePairing (afterPhases env.params l w.framer) u.framer := by
  induction l generalizing w acc bits phases with
  | nil => exact ⟨w, rfl, (List.append_nil acc).symm ▸ h, ⟨rfl, rfl, rfl⟩⟩
  | cons φ l ih =>
    rw [deltasFrom_cons] at hvalid hroom ⊢
    rw [List.length_append] at hroom
    obtain ⟨v, hv, hcarries, hpairing⟩ :=
      sample_carries φ h (fun d hd => hvalid d (List.mem_append_left _ hd)) (by omega)
    have hrest := deltasFrom_congr env.params hpairing l
    obtain ⟨u, hu, hfinal, hpairing'⟩ := ih hcarries
      (fun d hd => hvalid d (List.mem_append_right _ (hrest ▸ hd)))
      (by rw [hrest, List.length_append, List.length_map]; omega)
    refine ⟨u, by rw [samples, hv, Progress.going_andThen, hu], ?_, (hpairing.afterPhases env.params l).trans hpairing'⟩
    rwa [hrest, List.append_assoc, ← List.map_append, Nat.add_assoc, ← List.length_append, Nat.add_assoc,
      Nat.add_comm 1] at hfinal

/-- An entry that follows no drop (rules R160, R169). -/
theorem processEntry_of_continuous (env : WorkerEnv) (l : List Phase) :
    processEntry env { phases := l, discont := false } = fun w => (samples env l w).andThen (spill env .seam) := rfl

end

/-- The observations of a delivered packet. -/
theorem Delivered.observed {env : WorkerEnv} {body : List Bool} {base u : WorkerState} {phases : ℕ}
    (h : Delivered env body base u phases) :
    u.framer.acc = [] ∧ u.framer.cont = .none ∧ u.framer.fstate = .searching ∧
      u.outTrace = (dispatchPacket env .short (List.replicate 5 false ++ body) base).outTrace ∧
      Claims.dispatchCounters u.counters =
        Claims.dispatchCounters (dispatchPacket env .short (List.replicate 5 false ++ body) base).counters ∧
      u.counters.syncA = base.counters.syncA + 1 ∧ u.counters.syncU = base.counters.syncU ∧
      u.counters.trunc = base.counters.trunc ∧ u.counters.validBits = base.counters.validBits + 276 ∧
      u.counters.samples = base.counters.samples + BitVec.ofNat 32 phases := by
  have hsame := dispatchPacket_sameReception env .short (List.replicate 5 false ++ body) base
  obtain ⟨⟨⟨_, _, _, _, _, rfl⟩, hacc, hcont, hsync, hbits, hphases⟩, hstate⟩ := h
  exact ⟨hacc, hcont, hstate, rfl, rfl, hsame.syncA ▸ hsync, hsame.syncU, hsame.trunc, hsame.validBits ▸ hbits,
    hsame.samples ▸ hphases⟩

/-- Settles O39: `delivered_of_split`, for bits that are appended one by one and for the phases of entries. -/
theorem shortPacketSurvivesEverySplit : Obligations.ShortPacketSurvivesEverySplit := by
  refine ⟨fun env body w k stream hcap hbody hacc hcont hk hsync hpayload => ?_,
    fun env body w first second deltas stream hcap hbody hacc hcont hdeltas hvalid hstream hsync hpayload => ?_⟩
  · have hs : ShortStream env body stream := ⟨hcap, hbody, matches_iff.mp hsync, hpayload⟩
    have hlen := hs.length
    have hstart := Carries.refl w
    rw [hacc, hcont] at hstart
    have hfirst := hstart.appendAll (stream.take k)
    rw [List.length_take, min_eq_left (by omega), Nat.zero_add, List.nil_append] at hfirst
    obtain ⟨u, hu, hdelivered⟩ := delivered_of_split hs hk (phases' := 0)
      (second := fun u => .going ((stream.drop k).foldl (fun w b => w.append b) u)) hfirst
      fun b u acc cont syncs _ _ hcarries => by
        have hsecond := hcarries.appendAll (stream.drop k)
        rw [List.length_drop, hlen, Nat.add_sub_cancel' hk] at hsecond
        exact ⟨_, rfl, hsecond⟩
    obtain ⟨h1, h2, h3, h4, h5, h6, h7, h8, h9, -⟩ := hdelivered.observed
    exact ⟨u, hu, h1, h2, h3, h4, h5, h6, h7, h8, h9⟩
  · have hs : ShortStream env body stream := ⟨hcap, hbody, matches_iff.mp hsync, hpayload⟩
    have hlen := hs.length
    have hstart := Carries.refl w
    rw [hacc, hcont] at hstart
    rw [← deltasFrom, deltasFrom_append] at hdeltas
    have hwindow : ∀ d ∈ deltas, validDelta env.settings d = true := fun d hd => (validDelta_iff _ _).mpr (hvalid d hd)
    have hbits : stream = deltas.map bitOf := hstream
    rw [hdeltas] at hwindow hbits
    have hcount := congrArg List.length hbits
    rw [hlen, List.length_map, List.length_append] at hcount
    rw [List.map_append] at hbits
    obtain ⟨v, hv, hfirst, hpairing⟩ := samples_carries first hstart
      (fun d hd => hwindow d (List.mem_append_left _ hd)) (by rw [List.length_nil]; omega)
    have htake : stream.take (deltasFrom env.params w.framer first).length = (deltasFrom env.params w.framer first).map bitOf := by
      rw [hbits]
      exact List.take_left' (List.length_map _)
    have hdrop : stream.drop (deltasFrom env.params w.framer first).length =
        (deltasFrom env.params (afterPhases env.params first w.framer) second).map bitOf := by
      rw [hbits]
      exact List.drop_left' (List.length_map _)
    rw [List.nil_append, ← htake, Nat.zero_add, Nat.zero_add] at hfirst
    obtain ⟨u, hu, hdelivered⟩ := delivered_of_split hs (by omega) (second := samples env second) hfirst
      fun b u acc cont syncs hrun hshort hcarries => by
        have hrest := deltasFrom_congr env.params (hpairing.trans hrun.samePairing) second
        obtain ⟨u', hu', hsecond, -⟩ := samples_carries second hcarries
          (fun d hd => hwindow d (List.mem_append_right _ (hrest ▸ hd))) (by rw [hrest]; omega)
        rw [hrest, ← hdrop, ← hcount] at hsecond
        exact ⟨u', hu', hsecond⟩
    obtain ⟨h1, h2, h3, h4, h5, h6, h7, h8, h9, h10⟩ := hdelivered.observed
    refine ⟨u, ?_, h1, h2, h3, h4, h5, h6, h7, h8, h9, h10⟩
    simpa only [processEntry_of_continuous, hv, Progress.going_andThen] using hu

end Sys2Proof.Machine
end
